-- ==== Sys2Proof/Word.lean ====
section
/-!
DEFINITION. The two word types of the engine: a byte of the line and the 16-bit words of the checksum and of the
LENGTH field (spec/00_scope.md rule R6).
-/

namespace Sys2Proof

/-- One character of the line or one 8-bit header field (R6, R60). -/
abbrev Byte := BitVec 8

/-- The checksum registers and H_LENGTH are 16 bits wide (R26, R27). -/
abbrev Word16 := BitVec 16

end Sys2Proof
end

