-- ==== Sys2Proof/Config.lean ====
section
/-!
DEFINITION. The names the engine uses for queries and record fields, and the implementation parameters of
spec/00_scope.md rule R5 as ONE configuration record of plain data (spec/10_state.md rule R33), with the one value
the spec leaves wholly free (which bytes survive a full receive FIFO). The values a parameter has by default stand
in Machine/Params.lean.
-/

namespace Sys2Proof

/-- The seven commands that have a wire query (R95: every name but `status`). -/
inductive WireCmd where
  | protocol
  | manufactory
  | analog
  | alarm
  | chargingDischarge
  | serialnumber
  | systemparameter
deriving DecidableEq, Repr

/-- The eight host commands (R95). -/
inductive Cmd where
  | wire (w : WireCmd)
  | status
deriving DecidableEq, Repr

/-- The four queries a status round makes of one module (R22). -/
inductive RoundQuery where
  | analog
  | chargingDischarge
  | alarm
  | systemparameter
deriving DecidableEq, Repr

/-- Field names of a DecodedRecord: the seven header names of R194, then the payload names of R201 to R211. -/
inductive Field where
  | ver | adr | cid | rtn | length | lenId | payload
  | protocolVersion
  | batteryName | softwareVersion | manufacturerName
  | infoFlag | commandValue
  | cellCount | cellVoltages | temperatureCount | temperatures
  | current | moduleVoltage | detectedCapacity | cycleCount | remainingCapacity | moduleCapacity
  | chargeVoltageLimit | dischargeVoltageLimit | chargeCurrentLimit | dischargeCurrentLimit
  | statusByte | chargeEnable | dischargeEnable | chargeImmediately1 | chargeImmediately2 | fullChargeRequired
  | cellAlarms | temperatureAlarms | chargeCurrentAlarm | moduleVoltageAlarm | dischargeCurrentAlarm | statusBytes
  | cellHighVoltageLimit | cellLowVoltageLimit | cellUnderVoltageLimit
  | chargeHighTemperatureLimit | chargeLowTemperatureLimit
  | moduleHighVoltageLimit | moduleLowVoltageLimit | moduleUnderVoltageLimit
  | dischargeHighTemperatureLimit | dischargeLowTemperatureLimit
  | serialNumber
deriving DecidableEq, Repr

/-- A move of the cursor of a payload (the `seek` of R193), part of the OPEN LAYOUT: where it starts from, and how far it
goes. -/
structure Move where
  /-- from where slot `k` of the layout was read (slot 0: the start of the payload), or from where the cursor is -/
  origin : Option Nat
  /-- characters forward, or back where negative -/
  chars : Int
  /-- characters more when the detected-capacity flag read so far is the wide one (R207) -/
  wideChars : Int
deriving DecidableEq, Repr

/-- One piece of a payload layout, read at the cursor. A layout says only where a field stands; how a field reads is the
same in every layout (R92 to R96). A list follows its count in every layout, as R196 fixes it. -/
inductive Slot where
  /-- one fixed-width token, stored under its field name -/
  | token (f : Field)
  /-- a one-byte count, then that many tokens (R196) -/
  | counted (count : Field) (list : Field)
  /-- `k` text bytes, trailing nulls removed (R96) -/
  | text (f : Field) (k : Nat)
  /-- `k` bytes kept as numbers -/
  | bytes (f : Field) (k : Nat)
  /-- every whole byte that remains, as text -/
  | textRest (f : Field)
  /-- every whole byte that remains, kept as numbers -/
  | bytesRest (f : Field)
  /-- the status byte and its five flags (R94) -/
  | statusFlags
  /-- a narrow capacity (R207) -/
  | narrow (f : Field)
  /-- a wide capacity in the place of the narrow one, read only when the flag read so far is the wide one (R207) -/
  | wide (f : Field)
  /-- the cursor moves: over characters no token covers (R192), or to a field that stands before one already read.
  DESIGN CHOICE (log 7): the move itself is never an error, also past the end of the payload, where the next token is an
  overrun (R65) and `rest()` counts no byte. -/
  | move (m : Move)
deriving DecidableEq, Repr

/-- The OPEN parameter LAYOUT of one command: the order and position of its fields (R5, D18). Its slots are read, and so
fail, in the order they are listed in, which is the cursor's own way through the payload ("field by field in cursor order",
R294); with moves back that need not be the order of the positions. DESIGN CHOICE (log 7): that the reading order is part
of the parameter. -/
abbrev Layout := List Slot

/-- LAYOUT(cmd). `protocol` has none: no field of its payload is read (R201). -/
structure Layouts where
  manufactory : Layout
  analog : Layout
  alarm : Layout
  chargingDischarge : Layout
  serialnumber : Layout
  systemparameter : Layout
deriving DecidableEq, Repr

/-- One value for each of the seven wire commands. -/
structure PerWire (α : Type) where
  protocol : α
  manufactory : α
  analog : α
  alarm : α
  chargingDischarge : α
  serialnumber : α
  systemparameter : α
deriving DecidableEq, Repr

/-- Parity of a character of the line, part of the OPEN LINE_FORMAT (D9). Which parities there are is DESIGN CHOICE
(log 21): the spec names none. -/
inductive Parity where
  | absent
  | odd
  | even
  | mark
  | space
deriving DecidableEq, Repr

/-- LINE_FORMAT (R5, D9). No rule reads the first four; `charTime` is how much NOW advances while one character is
shifted out (R121: "`len(f)` character times of the OPEN `LINE_FORMAT`"). That a format is a whole bit rate, a whole
number of data bits, a parity and a number of half stop bits is DESIGN CHOICE (log 21): the spec leaves its form open. -/
structure LineFormat where
  bitRate : Nat
  dataBits : Nat
  parity : Parity
  /-- stop bits in halves: 2 is one stop bit, 3 is one and a half -/
  stopHalves : Nat
  charTime : Nat
deriving DecidableEq, Repr

/-- The implementation parameters (R5, R33). A parameter that is a function of the module index, the group or a
length is its default formula with a finite table of exceptions in front of it (log 8). -/
structure Config where
  /-- GROUP -/
  group : Nat
  /-- VER_TX -/
  verTx : Byte
  /-- CID1_TX -/
  cid1Tx : Byte
  /-- CID2_TX(cmd) -/
  cid2Tx : PerWire Byte
  /-- HAS_INFO(cmd) -/
  hasInfo : PerWire Bool
  /-- ADDR(i, g): exceptions (i, g, address) to the default formula -/
  addrTable : List (Nat × Nat × Byte)
  /-- INFO_TX(cmd, i, g): exceptions (cmd, i, g, characters) to the default -/
  infoTable : List (WireCmd × Nat × Nat × List Byte)
  /-- LCHK(n): exceptions (n, four bits) to the default formula -/
  lchkTable : List (Nat × BitVec 4)
  /-- LAYOUT(cmd) -/
  layouts : Layouts
  /-- SIGNED(field): the 16-bit fields read as two's complement -/
  signedFields : List Field
  /-- DEADLINE_FAST -/
  deadlineFast : Nat
  /-- DEADLINE_DEFAULT -/
  deadlineDefault : Nat
  /-- POLL_INTERVAL -/
  pollInterval : Nat
  /-- IDLE_TIMEOUT -/
  idleTimeout : Nat
  /-- LINE_FORMAT -/
  lineFormat : LineFormat
  /-- RXFIFO_DEPTH; `none` is unbounded (R61) -/
  rxfifoDepth : Option Nat
  /-- FRAMEBUF_DEPTH; `none` is unbounded (D6) -/
  framebufDepth : Option Nat
  /-- PROBE_MAX -/
  probeMax : Nat
  /-- DISCOVERY_LIMIT -/
  discoveryLimit : Nat
  /-- RETRY_MAX; `none` is infinity (R249) -/
  retryMax : Option Nat
deriving DecidableEq, Repr

/-- FREE VALUE (log 5). When a byte arrives at a full RXFIFO, "which bytes are kept is OPEN" (R61): at the `n`-th
overflow the byte at position `k` of the queue with the new byte behind it is kept if this says so. No body: nothing
can be proved of its value. -/
opaque Config.overflowKeeps : Nat → Nat → Bool

end Sys2Proof
end

