-- ==== Sys2Proof/Machine/Params.lean ====
section
/-!
DEFINITION. The fixed constants of spec/00_scope.md rule R5 under their names, the default values of the OPEN
parameters (R5, R171 to R173, R88, R199, R202 to R211), and which configurations the spec allows.
-/

namespace Sys2Proof

/-! ## Fixed constants (R5) -/

/-- START_MARKER -/
def startMarker : Byte := 0x7E
/-- END_MARKER -/
def endMarker : Byte := 0x0D
/-- MIN_FRAME (C6: the threshold the codec tests, not the size of the shortest well-formed frame) -/
def minFrame : Nat := 16
/-- HDR_CHARS -/
def hdrChars : Nat := 12
/-- CHK_CHARS -/
def chkChars : Nat := 4
/-- LENID_MASK -/
def lenidMask : Word16 := 0x0FFF
/-- LEN_SYSPARAM -/
def lenSysparam : Nat := 50
/-- LEN_MGMT -/
def lenMgmt : Nat := 20
/-- LEN_SERIAL -/
def lenSerial : Nat := 34
/-- CAP_FLAG_WIDE -/
def capFlagWide : Nat := 4
/-- CAP_NARROW_CHARS -/
def capNarrowChars : Nat := 4
/-- CAP_WIDE_CHARS -/
def capWideChars : Nat := 6
/-- TEMP_OFFSET -/
def tempOffset : Int := 2731
/-- SCALE_CELLV -/
def scaleCellV : Nat := 1000
/-- SCALE_CAP -/
def scaleCap : Nat := 1000
/-- SCALE_CURRENT -/
def scaleCurrent : Nat := 10
/-- SCALE_TEMP -/
def scaleTemp : Nat := 10
/-- The divisor of a module's voltage and of the voltage limits (R203, R208, R210). -/
def scaleVolt : Nat := 1000
/-- FLAG_MASKS (R94), charge enable first -/
def maskChargeEnable : Byte := 0x80
def maskDischargeEnable : Byte := 0x40
def maskChargeImmediately1 : Byte := 0x20
def maskChargeImmediately2 : Byte := 0x10
def maskFullChargeRequired : Byte := 0x08
/-- The longest well-formed frame, the least FRAMEBUF_DEPTH (R5, R91). -/
def longestFrame : Nat := 1 + hdrChars + 4095 + chkChars + 1

/-! ## Selection by command -/

def PerWire.get {α : Type} (p : PerWire α) (w : WireCmd) : α :=
  match w with
  | .protocol => p.protocol
  | .manufactory => p.manufactory
  | .analog => p.analog
  | .alarm => p.alarm
  | .chargingDischarge => p.chargingDischarge
  | .serialnumber => p.serialnumber
  | .systemparameter => p.systemparameter

def RoundQuery.toWire (q : RoundQuery) : WireCmd :=
  match q with
  | .analog => .analog
  | .chargingDischarge => .chargingDischarge
  | .alarm => .alarm
  | .systemparameter => .systemparameter

/-- The fixed order of a round (R22, R253): analog, charge/discharge, alarm, system parameter. -/
def RoundQuery.next? (q : RoundQuery) : Option RoundQuery :=
  match q with
  | .analog => some .chargingDischarge
  | .chargingDischarge => some .alarm
  | .alarm => some .systemparameter
  | .systemparameter => none

/-- The command codes of R95. -/
def Cmd.code (c : Cmd) : Nat :=
  match c with
  | .wire .protocol => 0
  | .wire .manufactory => 1
  | .wire .analog => 2
  | .wire .alarm => 3
  | .wire .chargingDischarge => 4
  | .wire .serialnumber => 5
  | .wire .systemparameter => 6
  | .status => 7

/-! ## Tokens -/

/-- How one token of a payload is read (R92, R93, R200). -/
inductive Machine.Token where
  /-- U8, an Int -/
  | byte
  /-- a 16-bit number, unscaled -/
  | word
  /-- a 16-bit number over a fixed divisor -/
  | scaled (den : Nat)
  /-- a 16-bit deci-Kelvin number (R200) -/
  | temp
  /-- an alarm token (R93) -/
  | alarm
deriving DecidableEq, Repr

/-- The token of each field (R203, R208 to R210); for a list field, of its elements. Byte-wide fields and the names
that no single token carries read as U8. -/
def Machine.tokenOf (f : Field) : Machine.Token :=
  match f with
  | .cycleCount => .word
  | .cellVoltages => .scaled scaleCellV
  | .current | .chargeCurrentLimit | .dischargeCurrentLimit => .scaled scaleCurrent
  | .moduleVoltage | .chargeVoltageLimit | .dischargeVoltageLimit => .scaled scaleVolt
  | .cellHighVoltageLimit | .cellLowVoltageLimit | .cellUnderVoltageLimit => .scaled scaleCellV
  | .moduleHighVoltageLimit | .moduleLowVoltageLimit | .moduleUnderVoltageLimit => .scaled scaleVolt
  | .remainingCapacity | .moduleCapacity => .scaled scaleCap
  | .temperatures | .chargeHighTemperatureLimit | .chargeLowTemperatureLimit
  | .dischargeHighTemperatureLimit | .dischargeLowTemperatureLimit => .temp
  | .cellAlarms | .temperatureAlarms | .chargeCurrentAlarm | .moduleVoltageAlarm | .dischargeCurrentAlarm => .alarm
  | .ver | .adr | .cid | .rtn | .length | .lenId | .payload | .protocolVersion
  | .batteryName | .softwareVersion | .manufacturerName | .infoFlag | .commandValue | .cellCount
  | .temperatureCount | .detectedCapacity | .statusByte | .chargeEnable | .dischargeEnable
  | .chargeImmediately1 | .chargeImmediately2 | .fullChargeRequired | .statusBytes | .serialNumber => .byte

/-- How many characters a token has (R92, R93). -/
def Machine.Token.chars (t : Machine.Token) : Nat :=
  match t with
  | .byte => 2
  | .word => 4
  | .scaled _ => 4
  | .temp => 4
  | .alarm => 2

/-! ## Default layouts (R202 to R211; the field order is the spec's default of an OPEN parameter) -/

/-- R202: 10 text bytes, 2 bytes, the rest. -/
def layoutManufactory : Layout :=
  [.text .batteryName 10, .bytes .softwareVersion 2, .textRest .manufacturerName]

/-- R203 and R207. -/
def layoutAnalog : Layout :=
  [.token .infoFlag, .token .commandValue, .counted .cellCount .cellVoltages,
   .counted .temperatureCount .temperatures, .token .current, .token .moduleVoltage,
   .narrow .remainingCapacity, .token .detectedCapacity, .narrow .moduleCapacity, .token .cycleCount,
   .wide .remainingCapacity, .wide .moduleCapacity]

/-- R209. -/
def layoutAlarm : Layout :=
  [.token .infoFlag, .token .commandValue, .counted .cellCount .cellAlarms,
   .counted .temperatureCount .temperatureAlarms, .token .chargeCurrentAlarm, .token .moduleVoltageAlarm,
   .token .dischargeCurrentAlarm, .bytesRest .statusBytes]

/-- R208. -/
def layoutChargingDischarge : Layout :=
  [.token .commandValue, .token .chargeVoltageLimit, .token .dischargeVoltageLimit, .token .chargeCurrentLimit,
   .token .dischargeCurrentLimit, .statusFlags]

/-- R211. -/
def layoutSerialnumber : Layout :=
  [.token .commandValue, .text .serialNumber 16]

/-- R210. -/
def layoutSystemparameter : Layout :=
  [.token .infoFlag, .token .cellHighVoltageLimit, .token .cellLowVoltageLimit, .token .cellUnderVoltageLimit,
   .token .chargeHighTemperatureLimit, .token .chargeLowTemperatureLimit, .token .chargeCurrentLimit,
   .token .moduleHighVoltageLimit, .token .moduleLowVoltageLimit, .token .moduleUnderVoltageLimit,
   .token .dischargeHighTemperatureLimit, .token .dischargeLowTemperatureLimit, .token .dischargeCurrentLimit]

def Layouts.default : Layouts :=
  { manufactory := layoutManufactory
    analog := layoutAnalog
    alarm := layoutAlarm
    chargingDischarge := layoutChargingDischarge
    serialnumber := layoutSerialnumber
    systemparameter := layoutSystemparameter }

/-- SIGNED by default (R199): every current and current limit. -/
def signedDefault : List Field :=
  [.current, .chargeCurrentLimit, .dischargeCurrentLimit]

/-- The default CID2_TX table (R172). -/
def cid2Default : PerWire Byte :=
  { protocol := 0x4F
    manufactory := 0x51
    analog := 0x42
    alarm := 0x44
    chargingDischarge := 0x92
    serialnumber := 0x93
    systemparameter := 0x47 }

/-- The default HAS_INFO table (R173). -/
def hasInfoDefault : PerWire Bool :=
  { protocol := false
    manufactory := false
    analog := true
    alarm := true
    chargingDischarge := true
    serialnumber := true
    systemparameter := false }

/-- DESIGN CHOICE (log 2): nothing in the spec gives a line format. -/
def lineFormatDefault : LineFormat :=
  { bitRate := 9600, dataBits := 8, parity := .absent, stopHalves := 2, charTime := 1 }

/-- The configuration the machine has after reset: every default the spec gives; DISCOVERY_LIMIT and PROBE_MAX as in
the common configuration of spec/95_test_vectors.md part P; the rest DESIGN CHOICE (log 2). -/
def Config.default : Config :=
  { group := 0
    verTx := 0x20
    cid1Tx := 0x46
    cid2Tx := cid2Default
    hasInfo := hasInfoDefault
    addrTable := []
    infoTable := []
    lchkTable := []
    layouts := Layouts.default
    signedFields := signedDefault
    deadlineFast := 20
    deadlineDefault := 100
    pollInterval := 1
    idleTimeout := 5
    lineFormat := lineFormatDefault
    rxfifoDepth := none
    framebufDepth := some longestFrame
    probeMax := 2
    discoveryLimit := 8
    retryMax := none }

/-! ## ADDR (R171) -/

/-- The default address formula (R171): `((g & 0xF) << 4) | ((i + 1) & 0xF)`. -/
def defaultAddr (i g : Nat) : Byte :=
  BitVec.ofNat 8 (g % 16 * 16 + (i + 1) % 16)

/-- ADDR(i, g) (R171): the configuration's exceptions, then the default formula. -/
def Machine.addr (c : Config) (i g : Nat) : Byte :=
  match c.addrTable.find? (fun e => e.1 == i && e.2.1 == g) with
  | some e => e.2.2
  | none => defaultAddr i g

/-! ## The layouts the spec allows -/

/-- A slot without its widths and moves: which field is read, and as what. -/
def Slot.shape (t : Slot) : Slot :=
  match t with
  | .token f => .token f
  | .counted c l => .counted c l
  | .text f _ => .text f 0
  | .bytes f _ => .bytes f 0
  | .textRest f => .text f 0
  | .bytesRest f => .bytes f 0
  | .statusFlags => .statusFlags
  | .narrow f => .narrow f
  | .wide f => .wide f
  | .move _ => .move ⟨none, 0, 0⟩

/-- What a layout reads, moves of the cursor left out. -/
def Layout.shape (l : Layout) : List Slot :=
  (l.map Slot.shape).filter (fun t => decide (t ≠ .move ⟨none, 0, 0⟩))

/-- `l` reads the fields of `d`, each as `d` reads it, in some order and at some positions. -/
def Layout.reorders (l d : Layout) : Bool :=
  (Layout.shape l).isPerm (Layout.shape d)

/-- Where a cursor stands in a layout: `base` characters, and behind the lists read by some slots, of which each has at
most the given number of characters. -/
structure Place where
  base : Int
  past : List (Nat × Nat)
deriving DecidableEq, Repr

/-- The place `d` characters further on. -/
def Place.shift (a : Place) (d : Int) : Place :=
  { a with base := a.base + d }

/-- `a` stands no further than `b` whatever the lengths of the lists: not even when every list that only `a` is behind has
its greatest length. -/
def Place.upTo (a b : Place) : Bool :=
  decide (a.base + ((a.past.filter (fun x => !b.past.contains x)).map (fun x => (x.2 : Int))).sum ≤ b.base)

/-- `a` stands before `b` whatever the lengths of the lists. -/
def Place.before (a b : Place) : Bool :=
  (a.shift 1).upTo b

/-- The place behind a field that takes every whole byte left, read at `a` by slot `starts.length`, in a payload of length
`len` where that is known. -/
def Place.behindRest (a : Place) (len : Option Nat) (starts : List Place) : Place :=
  match len with
  | some n => a.shift (2 * ((n - a.base).toNat / 2))
  | none => { a with past := a.past ++ [(starts.length, 4095)] }

/-- Where the cursor stands behind slot `t`, the `starts.length`-th, read at `a`; `wide` if the flag read so far is the wide
one, `len` the exact length of the payload where it has one (R195). A list has at most 255 tokens (R196), a rest at most 4095
characters, and in a payload of known length all whole bytes left. -/
def Slot.behind (t : Slot) (len : Option Nat) (wide : Bool) (starts : List Place) (a : Place) : Place :=
  match t with
  | .token f => a.shift (Machine.tokenOf f).chars
  | .counted _ l => { base := a.base + 2, past := a.past ++ [(starts.length, 255 * (Machine.tokenOf l).chars)] }
  | .text _ k => a.shift (2 * k)
  | .bytes _ k => a.shift (2 * k)
  | .textRest _ => a.behindRest len starts
  | .bytesRest _ => a.behindRest len starts
  | .statusFlags => a.shift 2
  | .narrow _ => a.shift capNarrowChars
  | .wide _ => if wide then a.shift capWideChars else a
  | .move m =>
    ((m.origin.bind (fun k => starts[k]?)).getD a).shift (m.chars + if wide then m.wideChars else 0)

/-- Where each slot of a layout is read, and the place behind the last, when the flag is the wide one (`wide`) and when it is
not; `seen` once the flag has been read. -/
def Layout.placesFrom (len : Option Nat) (wide : Bool) : Layout → Bool → List Place → Place → List Place
  | [], _, starts, a => starts ++ [a]
  | t :: ts, seen, starts, a =>
    Layout.placesFrom len wide ts (seen || decide (t = .token .detectedCapacity)) (starts ++ [a])
      (t.behind len (wide && seen) starts a)

def Layout.places (len : Option Nat) (wide : Bool) (l : Layout) : List Place :=
  Layout.placesFrom len wide l false [] ⟨0, []⟩

/-- The field each slot of a layout reads, with the place it is read at and the place behind it; without the wide flag no wide
capacity is read. -/
def Layout.spans (len : Option Nat) (wide : Bool) (l : Layout) : List (Slot × Place × Place) :=
  (l.zip ((Layout.places len wide l).zip (Layout.places len wide l).tail)).filter (fun x =>
    match x.1 with
    | .move _ => false
    | .wide _ => wide
    | _ => true)

/-- The places no field may lie behind: the end of the payload, which has the exact length or at most 4095 characters (R87), and
the end of a field that takes what remains. -/
def Layout.ends (len : Option Nat) (wide : Bool) (l : Layout) : List Place :=
  ⟨len.getD 4095, []⟩ :: (Layout.spans len wide l).filterMap (fun x =>
    match x.1 with
    | .textRest _ => some x.2.2
    | .bytesRest _ => some x.2.2
    | _ => none)

/-- Every position is one inside the payload (R5), in both branches of R207: a move starts from a slot already read, none goes
to before the first character, and no field lies past the end in every payload, of which the fixed ones have an exact length
(R195, N6) and the others at most 4095 characters (for these, and behind a field that takes what remains, DEDUCED, log 7). A
payload too short for its counts is no matter of the layout (R196). -/
def Layout.placed (len : Option Nat) (l : Layout) : Bool :=
  l.zipIdx.all (fun x =>
      match x.1 with
      | .move ⟨some k, _, _⟩ => decide (k < x.2)
      | _ => true)
    && [false, true].all (fun wide =>
      (Layout.places len wide l).all (fun a => decide (0 ≤ a.base))
        && (Layout.spans len wide l).all (fun x => (Layout.ends len wide l).all (fun e => !e.before x.2.2)))

/-- A slot that reads a capacity. -/
def Slot.isCapacity (t : Slot) : Bool :=
  match t with
  | .narrow _ => true
  | .wide _ => true
  | .token _ | .counted _ _ | .text _ _ | .bytes _ _ | .textRest _ | .bytesRest _ | .statusFlags | .move _ => false

/-- No character of a capacity is part of another token, in either branch of R207 and whatever the counts of the lists: a
capacity "is read as a different token at a different offset, never as part of another token" (R63). -/
def Layout.separate (l : Layout) : Bool :=
  [false, true].all (fun wide =>
    decide ((Layout.spans none wide l).Pairwise (fun x y =>
      x.1.isCapacity = true ∨ y.1.isCapacity = true → x.2.2.upTo y.2.1 = true ∨ y.2.2.upTo x.2.1 = true)))

/-- A capacity is re-read as a wide one behind its narrow token and behind the flag, at a larger offset (R207, N6). -/
def Layout.widens (l : Layout) (f : Field) : Bool :=
  decide (l.idxOf (.narrow f) < l.idxOf (.wide f))
    && decide (l.idxOf (.token .detectedCapacity) < l.idxOf (.wide f))
    && (match (Layout.places none true l)[l.idxOf (.narrow f)]?, (Layout.places none true l)[l.idxOf (.wide f)]? with
        | some a, some b => a.before b
        | _, _ => false)

/-- LAYOUT is a reordering of the default: it says where fields stand, not which fields there are (R5, D18), within what the
spec gives: fields inside their payloads, capacities apart from other tokens, the wide ones at larger offsets. -/
def Layouts.legal (l : Layouts) : Bool :=
  Layout.reorders l.manufactory layoutManufactory
    && Layout.reorders l.analog layoutAnalog
    && Layout.reorders l.alarm layoutAlarm
    && Layout.reorders l.chargingDischarge layoutChargingDischarge
    && Layout.reorders l.serialnumber layoutSerialnumber
    && Layout.reorders l.systemparameter layoutSystemparameter
    && l.manufactory.placed none
    && l.analog.placed none
    && l.alarm.placed none
    && l.chargingDischarge.placed lenMgmt
    && l.serialnumber.placed lenSerial
    && l.systemparameter.placed lenSysparam
    && l.analog.separate
    && l.analog.widens .remainingCapacity
    && l.analog.widens .moduleCapacity

/-! ## The configurations the spec allows -/

/-- The module indexes an engine can address: those below DISCOVERY_LIMIT, and 0, which the recovery probe and a command
over no module use whatever was discovered (R248, R265). -/
def Config.indexes (c : Config) : List Nat :=
  List.range (max 1 c.discoveryLimit)

/-- ADDR represents the index in the configured group: by an address of its own, or by the default formula within its
four bits for each (R171, U31: "default: index above 14, group above 15"). -/
def Config.addrRepresents (c : Config) (i : Nat) : Bool :=
  c.addrTable.any (fun e => e.1 == i && e.2.1 == c.group) || (decide (i ≤ 14) && decide (c.group ≤ 15))

/-- U31: ADDR represents every index in use, and no two of them alias. -/
def Config.addrLegal (c : Config) : Bool :=
  c.indexes.all c.addrRepresents && decide (c.indexes.map (fun i => Machine.addr c i c.group)).Nodup

/-- A character an encoder emits (R90). -/
def isHexUpper (b : Byte) : Bool :=
  (decide (0x30 ≤ b.toNat) && decide (b.toNat ≤ 0x39)) || (decide (0x41 ≤ b.toNat) && decide (b.toNat ≤ 0x46))

/-- An INFO is up to 4095 characters (R170), each "one of `0`-`9`, `A`-`F`" (R90). -/
def infoLegal (info : List Byte) : Bool :=
  decide (info.length ≤ 4095) && info.all isHexUpper

/-- The constraints of the table of R5 and of the rules it points at (R33). -/
def Config.legal (c : Config) : Bool :=
  c.addrLegal
    && decide (c.deadlineFast < c.deadlineDefault)
    && decide (1 ≤ c.probeMax)
    && (match c.framebufDepth with
        | none => true
        | some d => decide (longestFrame ≤ d))
    && c.infoTable.all (fun e => infoLegal e.2.2.2)
    && c.layouts.legal

end Sys2Proof
end

