-- ==== Sys2Proof/Syntax.lean ====
section
/-!
DEFINITION. The instruction set: the eight host commands of spec/30_encoding.md rule R95, one constructor for each row
of spec/opcode_table.json, each with the module index of the host port (R97: an integer, 0-based, that may be missing).
-/

namespace Sys2Proof

/-- A host command (R95, R97). The operand is CMD_IDX as the host presents it: `none` when missing. `status` takes the
same port and ignores it (R97). -/
inductive Instr where
  | protocol (idx : Option Int)
  | manufactory (idx : Option Int)
  | analog (idx : Option Int)
  | alarm (idx : Option Int)
  | chargingDischarge (idx : Option Int)
  | serialnumber (idx : Option Int)
  | systemparameter (idx : Option Int)
  | status (idx : Option Int)
deriving DecidableEq, Repr

/-- The command an instruction names. -/
def Instr.cmd : Instr → Cmd
  | .protocol _ => .wire .protocol
  | .manufactory _ => .wire .manufactory
  | .analog _ => .wire .analog
  | .alarm _ => .wire .alarm
  | .chargingDischarge _ => .wire .chargingDischarge
  | .serialnumber _ => .wire .serialnumber
  | .systemparameter _ => .wire .systemparameter
  | .status _ => .status

/-- The module index an instruction carries. -/
def Instr.idx : Instr → Option Int
  | .protocol i => i
  | .manufactory i => i
  | .analog i => i
  | .alarm i => i
  | .chargingDischarge i => i
  | .serialnumber i => i
  | .systemparameter i => i
  | .status i => i

/-- The instruction of a command and an index. -/
def Instr.ofCmd (c : Cmd) (idx : Option Int) : Instr :=
  match c with
  | .wire .protocol => .protocol idx
  | .wire .manufactory => .manufactory idx
  | .wire .analog => .analog idx
  | .wire .alarm => .alarm idx
  | .wire .chargingDischarge => .chargingDischarge idx
  | .wire .serialnumber => .serialnumber idx
  | .wire .systemparameter => .systemparameter idx
  | .status => .status idx

end Sys2Proof
end

