-- ==== Sys2Proof/WellFormed.lean ====
section
/-!
DEFINITION. Which instructions have a wire form of their own under the default address formula: a query whose module
index is present, not negative and small enough for the four index bits of the address byte (spec/42_command_encoder.md
rule R171). The host may present any index (spec/44_orchestrator.md rule R265); an ill-formed one still runs, clamped.
-/

namespace Sys2Proof

/-- The index is there (a wire query always carries an address). -/
def Instr.idxPresent (i : Instr) : Bool :=
  i.idx.isSome

/-- The index is not negative (R97: "0-based"). -/
def Instr.idxNonneg (i : Instr) : Bool :=
  match i.idx with
  | none => true
  | some n => decide (0 ≤ n)

/-- The index fits the low four bits of the default address (R171): 0 to 15. Index 15 is address nibble 0. -/
def Instr.idxFits (i : Instr) : Bool :=
  match i.idx with
  | none => true
  | some n => decide (n < 16)

/-- The instruction is a wire query (R181: `status` has no encoding). -/
def Instr.isQuery (i : Instr) : Bool :=
  match i with
  | .status _ => false
  | .protocol _ => true
  | .manufactory _ => true
  | .analog _ => true
  | .alarm _ => true
  | .chargingDischarge _ => true
  | .serialnumber _ => true
  | .systemparameter _ => true

/-- A well-formed wire query. -/
def Instr.wellFormed (i : Instr) : Bool :=
  i.isQuery && i.idxPresent && i.idxNonneg && i.idxFits

end Sys2Proof
end

