-- ==== Sys2Proof/Decode.lean ====
section
/-!
DEFINITION. The two encodings of a command, decoder and encoder of each. The HOST PORT's: the exact name string
(spec/30_encoding.md rules R95, R97, R100). The WIRE's: the six header bytes VER ADR CID RTN LENGTH of
spec/opcode_table.json with the INFO byte behind them (R80, R82, R103), under the table's own bits, which are the
default parameter values of R171 to R173 and R88.
-/

namespace Sys2Proof

/-- Why a decoder rejects its input. -/
inductive Reject where
  /-- the host port: not one of the eight names (R100) -/
  | unknownName (name : List Byte)
  /-- the wire: no row of the opcode table has these header bits -/
  | noRow (header : BitVec 48)
  /-- the wire: fewer than six header bytes -/
  | shortHeader (bytes : List Byte)
  /-- the wire: the INFO is not the one the row's query carries (R173) -/
  | wrongInfo (info : List Byte)
deriving DecidableEq, Repr

/-! ## The host port -/

/-- The exact string of each command (R95), in ASCII. -/
def Cmd.name (c : Cmd) : List Byte :=
  match c with
  -- "protocol"
  | .wire .protocol => [0x70, 0x72, 0x6F, 0x74, 0x6F, 0x63, 0x6F, 0x6C]
  -- "manufactory"
  | .wire .manufactory => [0x6D, 0x61, 0x6E, 0x75, 0x66, 0x61, 0x63, 0x74, 0x6F, 0x72, 0x79]
  -- "analog"
  | .wire .analog => [0x61, 0x6E, 0x61, 0x6C, 0x6F, 0x67]
  -- "alarm"
  | .wire .alarm => [0x61, 0x6C, 0x61, 0x72, 0x6D]
  -- "charging/discharge"
  | .wire .chargingDischarge =>
    [0x63, 0x68, 0x61, 0x72, 0x67, 0x69, 0x6E, 0x67, 0x2F, 0x64, 0x69, 0x73, 0x63, 0x68, 0x61, 0x72, 0x67, 0x65]
  -- "serialnumber"
  | .wire .serialnumber => [0x73, 0x65, 0x72, 0x69, 0x61, 0x6C, 0x6E, 0x75, 0x6D, 0x62, 0x65, 0x72]
  -- "systemparameter"
  | .wire .systemparameter =>
    [0x73, 0x79, 0x73, 0x74, 0x65, 0x6D, 0x70, 0x61, 0x72, 0x61, 0x6D, 0x65, 0x74, 0x65, 0x72]
  -- "status"
  | .status => [0x73, 0x74, 0x61, 0x74, 0x75, 0x73]

/-- The eight commands in the order of R95. -/
def Cmd.all : List Cmd :=
  [.wire .protocol, .wire .manufactory, .wire .analog, .wire .alarm, .wire .chargingDischarge, .wire .serialnumber,
   .wire .systemparameter, .status]

/-- The decoder of the host port, total on any name: "Matching is exact and case-sensitive" (R100). -/
def decodeCommand (name : List Byte) (idx : Option Int) : Except Reject Instr :=
  match Cmd.all.find? (fun c => c.name == name) with
  | some c => .ok (Instr.ofCmd c idx)
  | none => .error (.unknownName name)

/-- The encoder of the host port: what the host puts on CMD_NAME and CMD_IDX. -/
def encodeCommand (i : Instr) : List Byte × Option Int :=
  (i.cmd.name, i.idx)

/-! ## The wire -/

/-- A row of the opcode table: the constant bits of a query's six header bytes, VER in bits 47 to 40. -/
structure Row where
  wire : WireCmd
  pattern : BitVec 48
  mask : BitVec 48
deriving DecidableEq, Repr

/-- Every bit of the header but the eight address bits is constant (opcode_table.json, "mask"). -/
def headerMask : BitVec 48 := 0xFF00FFFFFFFF

/-- The seven wire rows of spec/opcode_table.json ("match", "mask"). -/
def opcodeRows : List Row :=
  [⟨.protocol, 0x2000464F0000, headerMask⟩,
   ⟨.manufactory, 0x200046510000, headerMask⟩,
   ⟨.analog, 0x20004642E002, headerMask⟩,
   ⟨.alarm, 0x20004644E002, headerMask⟩,
   ⟨.chargingDischarge, 0x20004692E002, headerMask⟩,
   ⟨.serialnumber, 0x20004693E002, headerMask⟩,
   ⟨.systemparameter, 0x200046470000, headerMask⟩]

/-- The address byte of a header word, bits 39 to 32. -/
def headerAdr (w : BitVec 48) : Byte :=
  BitVec.ofNat 8 (w.toNat / 2 ^ 32)

/-- The module index of an address under the default formula (R171): the low four bits are the index plus one. -/
def indexOfAdr (a : Byte) : Nat :=
  (a.toNat % 16 + 15) % 16

/-- The group of an address under the default formula (R171). -/
def groupOfAdr (a : Byte) : Nat :=
  a.toNat / 16

/-- The decoder of a wire header: the row its constant bits match, the index and the group of its address. -/
def decodeHeaderWord (w : BitVec 48) : Except Reject (Instr × Nat) :=
  match opcodeRows.find? (fun r => w &&& r.mask == r.pattern) with
  | some r => .ok (Instr.ofCmd (.wire r.wire) (some (indexOfAdr (headerAdr w) : Int)), groupOfAdr (headerAdr w))
  | none => .error (.noRow w)

/-- Six bytes as one word, the first byte the most significant (R63, R82). -/
def wordOfHeader (v a c r h l : Byte) : BitVec 48 :=
  BitVec.ofNat 48 (((((v.toNat * 256 + a.toNat) * 256 + c.toNat) * 256 + r.toNat) * 256 + h.toNat) * 256 + l.toNat)

/-- A header word as its six bytes, VER first (R82). -/
def headerBytes (w : BitVec 48) : List Byte :=
  [BitVec.ofNat 8 (w.toNat / 2 ^ 40), BitVec.ofNat 8 (w.toNat / 2 ^ 32), BitVec.ofNat 8 (w.toNat / 2 ^ 24),
   BitVec.ofNat 8 (w.toNat / 2 ^ 16), BitVec.ofNat 8 (w.toNat / 2 ^ 8), BitVec.ofNat 8 w.toNat]

/-- The INFO bytes of a query under the default parameters (R173): the address for the four data queries. -/
def defaultInfo (w : WireCmd) (a : Byte) : List Byte :=
  if hasInfoDefault.get w then [a] else []

/-- The query command an instruction sends; `status` sends none of its own (R181). -/
def Instr.query? (i : Instr) : Option WireCmd :=
  match i.cmd with
  | .wire w => some w
  | .status => none

/-- The decoder of a whole wire query, total on any bytes: the body's bytes after un-hexing (R80). -/
def decodeQuery (bytes : List Byte) : Except Reject (Instr × Nat) :=
  match bytes with
  | v :: a :: c :: r :: h :: l :: info =>
    match decodeHeaderWord (wordOfHeader v a c r h l) with
    | .error e => .error e
    | .ok (i, g) =>
      match i.query? with
      | some w => if info = defaultInfo w a then .ok (i, g) else .error (.wrongInfo info)
      | none => .error (.wrongInfo info)
  | _ => .error (.shortHeader bytes)

/-- The constant bits of a query (the row's pattern). -/
def patternOf (w : WireCmd) : BitVec 48 :=
  match w with
  | .protocol => 0x2000464F0000
  | .manufactory => 0x200046510000
  | .analog => 0x20004642E002
  | .alarm => 0x20004644E002
  | .chargingDischarge => 0x20004692E002
  | .serialnumber => 0x20004693E002
  | .systemparameter => 0x200046470000

/-- The header word of query `w` to module `n` of group `g` (R103). -/
def encodeHeaderWord (w : WireCmd) (n g : Nat) : BitVec 48 :=
  patternOf w ||| BitVec.ofNat 48 ((defaultAddr n g).toNat * 2 ^ 32)

/-- The encoder: the bytes of a query's body before they are written as hex digits; an instruction that is no
well-formed query has none (R181, R171). -/
def encodeQuery (i : Instr) (g : Nat) : Option (List Byte) :=
  if i.wellFormed then
    match i.query?, i.idx with
    | some w, some n =>
      some (headerBytes (encodeHeaderWord w n.toNat g) ++ defaultInfo w (defaultAddr n.toNat g))
    | _, _ => none
  else none

/-- What the opcode table's word of `nbits` bits stands for: the instruction and the group it is sent to. A wire row
has 48 bits, the six header bytes with VER highest; its INFO byte is a function of the address bits and no operand of
its own (R173), so the header word alone decides. The one row with no bits is `status`, which "sends no frame of its
own" (R98, R181; log 6). -/
def decodeTable (nbits w : Nat) : Except Reject (Instr × Nat) :=
  if nbits = 0 then .ok (.status none, 0)
  else if nbits = 48 then decodeHeaderWord (BitVec.ofNat 48 w)
  else .error (.shortHeader [])

/-- The instruction the decoder reads from a word of the opcode table. -/
def decodeTableWord (nbits w : Nat) : Option Instr :=
  match decodeTable nbits w with
  | .ok (i, _) => some i
  | .error _ => none

end Sys2Proof
end

