-- ==== Sys2Proof/Machine/State.lean ====
section
/-!
DEFINITION. The state of the engine as plain data (spec/10_state.md rules R20 to R36, spec/20_memory.md R60 to R62), the
inputs of the two agents outside it (spec/00_scope.md rule R11), the reasons a step can stop, and the machine right
after reset (R36).
-/

namespace Sys2Proof.Machine

/-! ## Values and records (R9, R31, R32) -/

/-- An exact scaled number: the integer numerator over a fixed denominator (R9). -/
structure Dec where
  num : Int
  den : Nat
deriving DecidableEq, Repr

/-- The four states of an alarm token (R93). -/
inductive AlarmState where
  | ok
  | belowLimit
  | aboveLimit
  | otherError
deriving DecidableEq, Repr

/-- A typed value of a DecodedRecord (R9). -/
inductive Value where
  | int (n : Int)
  | dec (x : Dec)
  | bool (b : Bool)
  | alarm (a : AlarmState)
  | text (bytes : List Byte)
  | ints (l : List Int)
  | decs (l : List Dec)
  | alarms (l : List AlarmState)
deriving DecidableEq, Repr

/-- A DecodedRecord: a finite mapping from field name to value (R31), held sorted by the field's position in the
list of names, each name once. -/
abbrev Record := List (Field × Value)

/-- One module's four stripped records of a round (R32, R254). -/
structure ModuleSnapshot where
  analog : Record
  chargeDischarge : Record
  alarm : Record
  systemParameter : Record
deriving DecidableEq, Repr

/-- The `Calculated` record (R255 to R260). An extreme over nothing is absent (R258). -/
structure Calculated where
  totalCapacityAh : Dec
  remainingCapacityAh : Dec
  remainingPercent : Rat
  totalCapacityKWh : Dec
  remainingCapacityKWh : Dec
  currentA : Dec
  powerW : Dec
  minCellVoltage : Option Dec
  maxCellVoltage : Option Dec
  minTemperature : Option Dec
  maxTemperature : Option Dec
  cellAlarmOk : Bool
  temperatureAlarmOk : Bool
  currentAlarmOk : Bool
  moduleVoltageAlarmOk : Bool
deriving DecidableEq, Repr

/-- A StackSnapshot (R254): the modules in index order and the Calculated record. -/
structure StackSnapshot where
  modules : List ModuleSnapshot
  calculated : Calculated
deriving DecidableEq, Repr

/-! ## Errors (R290) -/

inductive FramingReason where
  | tooShort
  | noStart
  | noEnd
deriving DecidableEq, Repr

inductive HeaderReason where
  | shortHeader
  | notHex
  | lengthMismatch
deriving DecidableEq, Repr

inductive PayloadReason where
  | wrongLength
  | overrun
  | notHex
deriving DecidableEq, Repr

/-- The six error kinds with what each carries (R290). None of them stops the machine. -/
inductive EngineError where
  | transportTimeout
  | framing (reason : FramingReason)
  /-- `declared` is `none` when the declared checksum is not hex (R157) -/
  | checksum (computed : Word16) (declared : Option Word16)
  | header (reason : HeaderReason)
  | payloadFormat (cmd : WireCmd) (lenid : Nat) (reason : PayloadReason)
  | protocolMisuse (name : List Byte)
deriving DecidableEq, Repr

/-! ## Enumerations of the state -/

/-- ORCH_STATE (R21). -/
inductive OrchState where
  | discovering
  | idle
  | sending
  | awaiting
  | decoding
  | retrying
  | done
deriving DecidableEq, Repr

/-- Where in the pseudocode of `Retrying` (R248) the engine stands; the model's own cursor (log 15). -/
inductive RetryPhase where
  /-- at the first `sample_stop` -/
  | entry
  /-- a finite RETRY_MAX has been passed (R249; log 12) -/
  | exhausted
  /-- at the test of the `while` -/
  | test
  /-- sending the recovery probe -/
  | probeSend
  /-- receiving its answer -/
  | probeReceive
  /-- decoding its answer -/
  | probeDecode
  /-- at the `sample_stop` after a failed attempt -/
  | probeFailed
  /-- at the last `sample_stop`, before `pc <- Sending` -/
  | leave
deriving DecidableEq, Repr

/-- RX_STATE (R25). -/
inductive RxState where
  | off
  | hunt
  | collect
deriving DecidableEq, Repr

/-- RESULT_KIND (R29, R31). -/
inductive ResultKind where
  | nothing
  | record
  | null
  | misuse
deriving DecidableEq, Repr

/-- RESULT (R31). After NULL there is no value; after MISUSE "no mapping exists", and what is left is the name the
error carries (R290; log 11). -/
inductive ResultValue where
  | absent
  | record (r : Record)
  | stack (s : StackSnapshot)
  | misused (name : List Byte)
deriving DecidableEq, Repr

/-! ## Inputs (R11, R20, R293, R320, R340) -/

/-- One move of an agent outside the engine, or of the engine itself. -/
inductive Input where
  /-- the engine takes one step -/
  | engine
  /-- NOW advances by `d` (R10) -/
  | time (d : Nat)
  /-- a character has been received on RXD (R61) -/
  | byte (b : Byte)
  /-- the STOP port is at this level (R250) -/
  | stop (level : Bool)
  /-- CMD_START pulses with this name and index at the port (R241) -/
  | command (name : List Byte) (idx : Option Int)
  /-- RESET is asserted (R320, R321) -/
  | resetAssert
  /-- RESET is released and these parameters are sampled (R320, R33) -/
  | resetRelease (c : Config)
deriving DecidableEq, Repr

/-! ## The state -/

/-- What stands outside the engine's registers: the inputs still to come, the clock, the input levels, what has left
on TXD, and the counter of free values. DESIGN CHOICE (log 4): the inputs are a finite list, so a stream of bytes without end
(R335) is met as a list of any length, after which the bus is silent; that "the environment eventually stops sending", which
R340 calls no property of the engine, holds of every run. -/
structure Env where
  inputs : List Input
  now : Nat
  stop : Bool
  inReset : Bool
  txd : List Byte
  freeCtr : Nat
deriving DecidableEq, Repr

/-- The sequencer (R21 to R23). -/
structure Seq where
  orch : OrchState
  retryPhase : RetryPhase
  seqM : Nat
  seqQ : RoundQuery
  discI : Nat
  probeCnt : Nat
  retryCnt : Nat
deriving DecidableEq, Repr

/-- The orchestrator registers (R24); GROUP is in the configuration. -/
structure Regs where
  cmd : Cmd
  midx : Nat
  curCmd : WireCmd
  curIdx : Nat
  probeMode : Bool
  moduleCount : Nat
deriving DecidableEq, Repr

/-- The transmit side of the transport (R25, R121). -/
structure Tx where
  de : Bool
  buf : List Byte
  len : Nat
  pos : Nat
  start : Nat
  duration : Nat
deriving DecidableEq, Repr

/-- The receive side of the transport (R25, R61). -/
structure Rx where
  fifo : List Byte
  state : RxState
  frame : List Byte
  frameLen : Nat
  deadlineAt : Nat
  lastByteAt : Nat
deriving DecidableEq, Repr

/-- The codec registers (R26). -/
structure Chk where
  acc : Word16
  computed : Word16
  declared : Word16
  declaredValid : Bool
deriving DecidableEq, Repr

/-- The decoder registers (R27); H_PAYLOAD is a view (R62). -/
structure Hdr where
  ver : Byte
  adr : Byte
  cid : Byte
  rtn : Byte
  length : Word16
  lenid : BitVec 12
  cursor : Nat
deriving DecidableEq, Repr

/-- The flags and output ports (R29, R20). -/
structure Flags where
  ready : Bool
  busy : Bool
  done : Bool
  resultKind : ResultKind
  stopSeen : Bool
  lastErr : Option EngineError
deriving DecidableEq, Repr

/-- Results and working records (R31, R32). -/
structure Results where
  result : ResultValue
  record : Record
  snapM : ModuleSnapshot
  snap : List ModuleSnapshot
  lastSnapshot : Option StackSnapshot
deriving DecidableEq, Repr

structure State where
  env : Env
  cfg : Config
  seq : Seq
  regs : Regs
  tx : Tx
  rx : Rx
  chk : Chk
  hdr : Hdr
  flags : Flags
  out : Results
deriving DecidableEq, Repr

/-- Why the machine stops. No instruction raises one in a configuration R5 allows. -/
inductive Fault where
  /-- Raised by the last step of a status round when a record it folds lacks a field the fold reads (R256 to R259),
  which only a LAYOUT that is no reordering of the command's fields can bring about (log 17). Safe: the model stops
  where no engine of the spec exists. -/
  | recordLacksField
deriving DecidableEq, Repr

/-- What the model refuses. -/
inductive Refusal where
  /-- Raised by exec for an instruction that has no meaning yet; no arm raises it. Safe. -/
  | notModelled (mnemonic : String)
  /-- Raised when RESET is released with parameters outside R5's constraints or U31's ("refuse the configuration").
  Safe: no engine of the spec has them. -/
  | illegalConfiguration
deriving DecidableEq, Repr

abbrev Outcome := Host.Outcome State Fault Refusal

/-! ## Reset (R36, R320) -/

/-- No record in any slot (R253: "empty ModuleSnapshot"). -/
def ModuleSnapshot.empty : ModuleSnapshot :=
  { analog := [], chargeDischarge := [], alarm := [], systemParameter := [] }

/-- The machine right after reset: every value R36 states; what R36 leaves unspecified, and the model's own fields,
at the values of log 1 and log 15; the parameters of log 2. -/
def State.reset : State :=
  { env := { inputs := [], now := 0, stop := false, inReset := false, txd := [], freeCtr := 0 }
    cfg := Config.default
    seq := { orch := .discovering, retryPhase := .entry, seqM := 0, seqQ := .analog, discI := 0, probeCnt := 0,
             retryCnt := 0 }
    regs := { cmd := .wire .protocol, midx := 0, curCmd := .serialnumber, curIdx := 0, probeMode := true,
              moduleCount := 0 }
    tx := { de := false, buf := [], len := 0, pos := 0, start := 0, duration := 0 }
    rx := { fifo := [], state := .off, frame := [], frameLen := 0, deadlineAt := 0, lastByteAt := 0 }
    chk := { acc := 0, computed := 0, declared := 0, declaredValid := false }
    hdr := { ver := 0, adr := 0, cid := 0, rtn := 0, length := 0, lenid := 0, cursor := 0 }
    flags := { ready := false, busy := true, done := false, resultKind := .nothing, stopSeen := false,
               lastErr := none }
    out := { result := .absent, record := [], snapM := ModuleSnapshot.empty, snap := [], lastSnapshot := none } }

end Sys2Proof.Machine
end

