-- ==== Sys2Proof/Machine/Operands.lean ====
section
/-!
DEFINITION. The operand forms of the engine: ASCII-hex primitives (spec/00_scope.md R8), the module index and its
address (spec/44_orchestrator.md R265, spec/42_command_encoder.md R171 to R173), the LENGTH field (spec/30_encoding.md
R87, R88), the cursor primitives and tokens of a payload (R92, R96, spec/43_response_decoder.md R193, R200), and the
record operations (spec/10_state.md R31, R32).
-/

namespace Sys2Proof.Machine

/-! ## ASCII-hex primitives (R8) -/

/-- HEXDIGIT(n), upper case only. -/
def hexDigit (n : Nat) : Byte :=
  if n < 10 then BitVec.ofNat 8 (0x30 + n) else BitVec.ofNat 8 (0x37 + n)

/-- HEX2 of a value below 256. -/
def hex2 (v : Nat) : List Byte :=
  [hexDigit (v / 16 % 16), hexDigit (v % 16)]

/-- HEX4 of a value below 65536. -/
def hex4 (v : Nat) : List Byte :=
  hex2 (v / 256 % 256) ++ hex2 (v % 256)

/-- DIGITVAL(c): both letter cases; `none` is INVALID (D2, D3). -/
def digitVal (c : Byte) : Option Nat :=
  if 0x30 ≤ c.toNat ∧ c.toNat ≤ 0x39 then some (c.toNat - 0x30)
  else if 0x41 ≤ c.toNat ∧ c.toNat ≤ 0x46 then some (c.toNat - 0x37)
  else if 0x61 ≤ c.toNat ∧ c.toNat ≤ 0x66 then some (c.toNat - 0x57)
  else none

/-- UNHEX with the value of the digits already read in `acc`. -/
def unhexFrom (acc : Nat) : List Byte → Option Nat
  | [] => some acc
  | c :: cs =>
    match digitVal c with
    | none => none
    | some d => unhexFrom (acc * 16 + d) cs

/-- UNHEX(s), most significant digit first; `none` is INVALID. -/
def unhex (s : List Byte) : Option Nat :=
  unhexFrom 0 s

/-- SUM(s): the sum of the byte values. -/
def byteSum : List Byte → Nat
  | [] => 0
  | b :: bs => b.toNat + byteSum bs

/-- `s[a : b]` (R6). -/
def slice (s : List Byte) (a b : Nat) : List Byte :=
  (s.drop a).take (b - a)

/-! ## The module index (R265) -/

/-- clamp(idx): a missing or negative index is 0, one past the last module is the last. -/
def clamp (idx : Option Int) (count : Nat) : Nat :=
  match idx with
  | none => 0
  | some n => if n < 0 ∨ count = 0 then 0 else if (count : Int) ≤ n then count - 1 else n.toNat

/-! ## INFO, LCHK and LENGTH -/

/-- The default INFO_TX(cmd, i, g) (R173): HEX2 of the address for the four per-module data queries, empty for the other
three. -/
def defaultInfoTx (c : Config) (w : WireCmd) (i g : Nat) : List Byte :=
  if hasInfoDefault.get w then hex2 (addr c i g).toNat else []

/-- INFO_TX(cmd, i, g) (R173): the configuration's exceptions, then the default. -/
def infoTx (c : Config) (w : WireCmd) (i g : Nat) : List Byte :=
  match c.infoTable.find? (fun e => e.1 == w && e.2.1 == i && e.2.2.1 == g) with
  | some e => e.2.2.2
  | none => defaultInfoTx c w i g

/-- The INFO characters of a query: none unless HAS_INFO(cmd) (R170). -/
def infoOf (c : Config) (w : WireCmd) (i : Nat) : List Byte :=
  if c.hasInfo.get w then infoTx c w i c.group else []

/-- The default LCHK(n) (R88): the negated digit sum of LENID. -/
def defaultLchk (n : Nat) : Nat :=
  (16 - (n % 16 + n / 16 % 16 + n / 256 % 16) % 16) % 16

/-- LCHK(n): the configuration's exceptions, then the default formula. -/
def lchk (c : Config) (n : Nat) : Nat :=
  match c.lchkTable.find? (fun e => e.1 == n) with
  | some e => e.2.toNat
  | none => defaultLchk n

/-- The LENGTH field of an outbound frame, `(LCHK(n) << 12) | n` (R88). -/
def lengthTx (c : Config) (n : Nat) : Nat :=
  lchk c n * 4096 + n % 4096

/-! ## Records (R31, R32) -/

/-- The position of a field in the list of names, by which a record is kept sorted. -/
def fieldOrder (f : Field) : Nat :=
  f.ctorIdx

/-- Write one field of a record (R7: MemWrite on RECORD). -/
def Record.set (f : Field) (v : Value) : Record → Record
  | [] => [(f, v)]
  | (g, w) :: r =>
    if fieldOrder f < fieldOrder g then (f, v) :: (g, w) :: r
    else if f = g then (f, v) :: r
    else (g, w) :: Record.set f v r

/-- Read one field of a record. -/
def Record.get? (f : Field) : Record → Option Value
  | [] => none
  | (g, w) :: r => if g = f then some w else Record.get? f r

/-- The seven header names of R194. -/
def headerFields : List Field :=
  [.ver, .adr, .cid, .rtn, .length, .lenId, .payload]

/-- strip(rec) (R247): the seven header fields and nothing else are removed. -/
def strip (r : Record) : Record :=
  r.filter (fun e => !headerFields.contains e.1)

/-! ## The cursor (R193)

A read answers the value and the cursor after it, or the reason and the cursor at which it failed. -/

abbrev Read (α : Type) := Except (PayloadReason × Nat) (α × Nat)

/-- take(k): the bound first, then the characters; a failed take leaves the cursor where it was. -/
def takeHex (p : List Byte) (k cur : Nat) : Read Nat :=
  if p.length < cur + k then .error (.overrun, cur)
  else
    match unhex ((p.drop cur).take k) with
    | none => .error (.notHex, cur)
    | some u => .ok (u, cur + k)

/-- The two's-complement reading of a 16-bit token (R92, S16). -/
def signed16 (u : Nat) : Int :=
  if 0x8000 ≤ u then (u : Int) - 0x10000 else u

/-- A number of `k` characters, 16 bits wide, read as SIGNED(field) says (R199). -/
def readNum (c : Config) (f : Field) (k : Nat) (p : List Byte) (cur : Nat) : Read Int :=
  match takeHex p k cur with
  | .error e => .error e
  | .ok (u, cur') => .ok (if c.signedFields.contains f then signed16 u else (u : Int), cur')

/-- rdU16 or rdS16, as SIGNED(field) says (R193, R199). -/
def read16 (c : Config) (f : Field) (p : List Byte) (cur : Nat) : Read Int :=
  readNum c f 4 p cur

/-- rdU8 as a byte. -/
def read8 (p : List Byte) (cur : Nat) : Read Byte :=
  match takeHex p 2 cur with
  | .error e => .error e
  | .ok (u, cur') => .ok (BitVec.ofNat 8 u, cur')

/-- `n` reads in order (R196). -/
def readMany {α : Type} (rd : Nat → Read α) : Nat → Nat → Read (List α)
  | 0, cur => .ok ([], cur)
  | n + 1, cur =>
    match rd cur with
    | .error e => .error e
    | .ok (a, cur') =>
      match readMany rd n cur' with
      | .error e => .error e
      | .ok (as, cur'') => .ok (a :: as, cur'')

/-- Remove every trailing null byte, and no other (R96). -/
def trimNulls (bs : List Byte) : List Byte :=
  (bs.reverse.dropWhile (fun b => b == 0)).reverse

/-- rest(): the whole bytes left (R193); none at a cursor past the end (log 7). -/
def restBytes (p : List Byte) (cur : Nat) : Nat :=
  (p.length - cur) / 2

/-- The cursor `cur` after a move, with `starts` the cursors at which the slots before it were read; `wide` if the flag
read so far is the wide one (log 7). -/
def moveCursor (m : Move) (starts : List Nat) (wide : Bool) (cur : Nat) : Nat :=
  (((m.origin.bind (fun k => starts[k]?)).getD cur : Int) + m.chars + if wide then m.wideChars else 0).toNat

/-- A scaled 16-bit token (R92). -/
def readScaled (c : Config) (f : Field) (den : Nat) (p : List Byte) (cur : Nat) : Read Dec :=
  match read16 c f p cur with
  | .error e => .error e
  | .ok (n, cur') => .ok (⟨n, den⟩, cur')

/-- rdTemp: `Dec(raw - TEMP_OFFSET, 10)` (R200). -/
def readTemp (c : Config) (f : Field) (p : List Byte) (cur : Nat) : Read Dec :=
  match read16 c f p cur with
  | .error e => .error e
  | .ok (n, cur') => .ok (⟨n - tempOffset, scaleTemp⟩, cur')

end Sys2Proof.Machine
end

