-- ==== Sys2Proof/Machine/Flags.lean ====
section
/-!
DEFINITION. Flags of the payload and of the engine: the alarm mapping (spec/30_encoding.md R93), the five status flags
(R94), the error codes and kinds (spec/60_exceptions.md R290), and the status flags of the engine that command accept,
stop sampling and the end of a command write (spec/10_state.md R29, spec/44_orchestrator.md R241, R250, R252).
-/

namespace Sys2Proof.Machine

/-- ALARM of a byte (R93). -/
def alarmOf (n : Nat) : AlarmState :=
  match n with
  | 0 => .ok
  | 1 => .belowLimit
  | 2 => .aboveLimit
  | _ => .otherError

/-- rdAlarm (R193). -/
def readAlarm (p : List Byte) (cur : Nat) : Read AlarmState :=
  match takeHex p 2 cur with
  | .error e => .error e
  | .ok (u, cur') => .ok (alarmOf u, cur')

/-- One flag of the status byte (R94): true means "on". -/
def flagOf (b mask : Byte) : Bool :=
  decide (b &&& mask ≠ 0)

/-- The status byte and its five flags, as R208 writes them. -/
def setStatusFlags (b : Byte) (r : Record) : Record :=
  let r := Record.set .statusByte (.int b.toNat) r
  let r := Record.set .chargeEnable (.bool (flagOf b maskChargeEnable)) r
  let r := Record.set .dischargeEnable (.bool (flagOf b maskDischargeEnable)) r
  let r := Record.set .chargeImmediately1 (.bool (flagOf b maskChargeImmediately1)) r
  let r := Record.set .chargeImmediately2 (.bool (flagOf b maskChargeImmediately2)) r
  Record.set .fullChargeRequired (.bool (flagOf b maskFullChargeRequired)) r

/-- The code numbers of R290. -/
def EngineError.code (e : EngineError) : Nat :=
  match e with
  | .transportTimeout => 1
  | .framing _ => 2
  | .checksum _ _ => 3
  | .header _ => 4
  | .payloadFormat _ _ _ => 5
  | .protocolMisuse _ => 6

/-- The column "recoverable" of R290. -/
def EngineError.recoverable (e : EngineError) : Bool :=
  match e with
  | .transportTimeout => true
  | .framing _ => true
  | .checksum _ _ => true
  | .header _ => true
  | .payloadFormat _ _ _ => true
  | .protocolMisuse _ => false

/-! ## The engine's flags -/

/-- The flags a new command finds (R241): RESULT_KIND, STOP_SEEN, LAST_ERR cleared, BUSY set. -/
def clearForCommand (s : State) : State :=
  { s with flags := { s.flags with resultKind := .nothing, stopSeen := false, lastErr := none, busy := true } }

/-- The write of sample_stop() (R250); what it returns is `s.env.stop`. -/
def sampleStop (s : State) : State :=
  if s.env.stop then { s with flags := { s.flags with stopSeen := true } } else s

/-- finish(kind, v) up to `pc <- Done` (R252): the result, the DONE pulse, BUSY cleared. -/
def finish (kind : ResultKind) (v : ResultValue) (s : State) : State :=
  { s with
    seq := { s.seq with orch := .done }
    flags := { s.flags with resultKind := kind, done := true, busy := false }
    out := { s.out with result := v } }

/-- The last transition of finish (R252): the pulse ends and the engine is Idle. -/
def toIdle (s : State) : State :=
  { s with
    seq := { s.seq with orch := .idle }
    flags := { s.flags with done := false } }

end Sys2Proof.Machine
end

