-- ==== Sys2Proof/Machine/Ops.lean ====
section
/-!
DEFINITION. The named operations over the buffers (RXFIFO, FRAMEBUF, TXBUF: spec/20_memory.md R60 to R62), the Transport
(spec/40_transport.md R120 to R130), the clock, and taking a recoverable error and returning from one
(spec/60_exceptions.md R296, R299; spec/44_orchestrator.md R240, R246, R248).
-/

namespace Sys2Proof.Machine

/-! ## Small writes -/

/-- The inputs still to come. -/
def setInputs (l : List Input) (s : State) : State :=
  { s with env := { s.env with inputs := l } }

/-- `pc <- S` (R7). -/
def setOrch (o : OrchState) (s : State) : State :=
  { s with seq := { s.seq with orch := o } }

/-- The next step of `Retrying` (R248). -/
def setRetryPhase (p : RetryPhase) (s : State) : State :=
  { s with seq := { s.seq with retryPhase := p } }

/-- NOW advances (R10: monotone). -/
def advance (d : Nat) (s : State) : State :=
  { s with env := { s.env with now := s.env.now + d } }

/-- The view H_PAYLOAD (R62): `FRAMEBUF[1 + HDR_CHARS : 1 + HDR_CHARS + H_LENID]`. -/
def State.hPayload (s : State) : List Byte :=
  slice s.rx.frame (1 + hdrChars) (1 + hdrChars + s.hdr.lenid.toNat)

/-! ## RXFIFO (R61) -/

/-- The bytes of a queue whose positions are kept, positions counted from `k`. -/
def keepFrom (keep : Nat → Bool) : Nat → List Byte → List Byte
  | _, [] => []
  | k, b :: bs => if keep k then b :: keepFrom keep (k + 1) bs else keepFrom keep (k + 1) bs

/-- A character has been received: appended while DE = 0, dropped while the driver is on or RESET is asserted (R61,
R122, R320). At a full queue which bytes are kept is OPEN: any bytes of the old queue and the new one, in order, at
most RXFIFO_DEPTH of them (log 5). -/
def receiveByte (b : Byte) (s : State) : State :=
  if s.tx.de || s.env.inReset then s
  else
    match s.cfg.rxfifoDepth with
    | none => { s with rx := { s.rx with fifo := s.rx.fifo ++ [b] } }
    | some d =>
      if s.rx.fifo.length < d then { s with rx := { s.rx with fifo := s.rx.fifo ++ [b] } }
      else
        { s with
          rx := { s.rx with
                  fifo := (keepFrom (Config.overflowKeeps s.env.freeCtr) 0 (s.rx.fifo ++ [b])).take d }
          env := { s.env with freeCtr := s.env.freeCtr + 1 } }

/-! ## The form of the buffers (R60 to R62, R32) -/

/-- A record holds each name once, in the order of the names, so that equal mappings are equal lists (R31). -/
def Record.sorted : Record → Bool
  | [] => true
  | [_] => true
  | (f, _) :: (g, w) :: r => decide (fieldOrder f < fieldOrder g) && Record.sorted ((g, w) :: r)

/-- TX_LEN and FRAME_LEN are the lengths of their buffers, TX_POS stays within TXBUF. -/
def Memory.lengths (s : State) : Bool :=
  decide (s.tx.len = s.tx.buf.length) && decide (s.tx.pos ≤ s.tx.len) && decide (s.rx.frameLen = s.rx.frame.length)

/-- No buffer holds more than its parameter allows (R60, R61, R126); a frame that is still being collected has not
filled FRAMEBUF. -/
def Memory.bounded (s : State) : Bool :=
  (match s.cfg.rxfifoDepth with
   | none => true
   | some d => decide (s.rx.fifo.length ≤ d))
    && (match s.cfg.framebufDepth with
        | none => true
        | some d => decide (s.rx.frameLen ≤ d) && (decide (s.rx.state ≠ .collect) || decide (s.rx.frameLen < d)))

/-- The form every buffer of the state keeps. -/
def Memory.wf (s : State) : Bool :=
  Memory.lengths s && Memory.bounded s && Record.sorted s.out.record

/-! ## send (R121) -/

/-- Load TXBUF and drive the bus. -/
def sendStart (f : List Byte) (s : State) : State :=
  { s with tx := { s.tx with de := true, buf := f, len := f.length, pos := 0, start := s.env.now } }

/-- Shift out TXBUF[TX_POS]; one character time passes. -/
def sendShift (s : State) : State :=
  { s with
    tx := { s.tx with pos := s.tx.pos + 1 }
    env := { s.env with
             txd := s.env.txd ++ (slice s.tx.buf s.tx.pos (s.tx.pos + 1))
             now := s.env.now + s.cfg.lineFormat.charTime } }

/-- The last stop bit has left: release the bus, record the duration. -/
def sendFlush (s : State) : State :=
  { s with tx := { s.tx with de := false, duration := s.env.now - s.tx.start } }

/-- One step of `send(f)` (R121); the first component says that `send` has returned. -/
def sendStep (f : List Byte) (s : State) : Bool × State :=
  if !s.tx.de then (false, sendStart f s)
  else if s.tx.pos < s.tx.len then (false, sendShift s)
  else (true, sendFlush s)

/-! ## receive_frame (R123 to R128) -/

/-- What one step of `receive_frame` answers. -/
inductive Received where
  /-- it has not returned -/
  | waiting
  /-- it returned None -/
  | noFrame
  /-- it returned FRAMEBUF[0 : FRAME_LEN] -/
  | frame
deriving DecidableEq, Repr

/-- Entry (R124). -/
def receiveEntry (d : Nat) (s : State) : State :=
  { s with rx := { s.rx with deadlineAt := s.env.now + d, frame := [], frameLen := 0, state := .hunt } }

/-- Write the first byte of a frame, FRAMEBUF[0], and FRAME_LEN <- 1 (R7, R125). -/
def frameStart (b : Byte) (s : State) : State :=
  { s with rx := { s.rx with
      frame := [b]
      frameLen := 1
      lastByteAt := s.env.now } }

/-- Append one byte at FRAMEBUF[FRAME_LEN] (R7, R126). -/
def frameAppend (b : Byte) (s : State) : State :=
  { s with rx := { s.rx with
      frame := s.rx.frame.take s.rx.frameLen ++ [b]
      frameLen := s.rx.frameLen + 1
      lastByteAt := s.env.now } }

/-- The destructive read of RXFIFO (R66): what is left of the queue. -/
def fifoRest (rest : List Byte) (s : State) : State :=
  { s with rx := { s.rx with fifo := rest } }

/-- RX_STATE <- v. -/
def setRx (v : RxState) (s : State) : State :=
  { s with rx := { s.rx with state := v } }

/-- The hunt step (R125): the deadline is tested before a byte is taken. -/
def huntStep (s : State) : Received × State :=
  if s.rx.deadlineAt ≤ s.env.now then (.noFrame, setRx .off s)
  else
    match s.rx.fifo with
    | [] => (.waiting, advance s.cfg.pollInterval s)
    | b :: rest =>
      if b = startMarker then (.waiting, setRx .collect (frameStart b (fifoRest rest s)))
      else (.waiting, fifoRest rest s)

/-- The collect step (R126): a waiting byte wins over idle expiry; the deadline is not tested. -/
def collectStep (s : State) : Received × State :=
  match s.rx.fifo with
  | b :: rest =>
    let s' := frameAppend b (fifoRest rest s)
    if b = endMarker then (.frame, setRx .off s')
    else if some s'.rx.frameLen = s.cfg.framebufDepth then (.frame, setRx .off s')
    else (.waiting, s')
  | [] =>
    if s.cfg.idleTimeout ≤ s.env.now - s.rx.lastByteAt then (.frame, setRx .off s)
    else (.waiting, advance s.cfg.pollInterval s)

/-- One step of `receive_frame(d)` (R123). A caller enters it with the flush of its `send` (R124), so RX_OFF is not found
here in a run. -/
def receiveStep (d : Nat) (s : State) : Received × State :=
  match s.rx.state with
  | .off => (.waiting, receiveEntry d s)
  | .hunt => huntStep s
  | .collect => collectStep s

/-! ## Starting a transaction (R240) -/

/-- The first line of `transact(cmd, i, probe)`, then `pc <- Sending`. -/
def startTransaction (w : WireCmd) (i : Nat) (probe : Bool) (s : State) : State :=
  { s with
    regs := { s.regs with curCmd := w, curIdx := i, probeMode := probe }
    seq := { s.seq with orch := .sending, retryCnt := 0 } }

/-! ## Taking a recoverable error (R296) and returning from one (R299) -/

/-- RETRY_CNT would pass a finite RETRY_MAX (R249; log 12). -/
def retriesExhausted (s : State) : Bool :=
  match s.cfg.retryMax with
  | none => false
  | some m => decide (m ≤ s.seq.retryCnt)

/-- Entry to `Retrying` (R296): LAST_ERR <- err, RETRY_CNT <- RETRY_CNT + 1, RECORD cleared, pc <- Retrying; every
other register of the command is kept. -/
def enterRetrying (e : EngineError) (s : State) : State :=
  { s with
    seq := { s.seq with
             orch := .retrying
             retryPhase := if retriesExhausted s then .exhausted else .entry
             retryCnt := if retriesExhausted s then s.seq.retryCnt else s.seq.retryCnt + 1 }
    flags := { s.flags with lastErr := some e }
    out := { s.out with record := [] } }

/-- Return from `Retrying` (R299): pc <- Sending, nothing to restore. -/
def returnFromRetrying (s : State) : State :=
  setOrch .sending s

/-- The end of discovery (R262, R263): MODULE_COUNT <- DISC_I, READY <- 1, BUSY <- 0, pc <- Idle. -/
def endDiscovery (s : State) : State :=
  { s with
    regs := { s.regs with moduleCount := s.seq.discI }
    flags := { s.flags with ready := true, busy := false }
    seq := { s.seq with orch := .idle } }

/-- A probe-mode transaction returns EMPTY (R246): LAST_ERR records the kind, discovery ends (R262). -/
def probeEmpty (e : EngineError) (s : State) : State :=
  endDiscovery { s with flags := { s.flags with lastErr := some e } }

/-- A transaction has failed (R240): EMPTY in probe mode, `Retrying` otherwise. -/
def failTransaction (e : EngineError) (s : State) : State :=
  if s.regs.probeMode then probeEmpty e s else enterRetrying e s

end Sys2Proof.Machine
end

