-- ==== Sys2Proof/Machine/Codec.lean ====
section
/-!
DEFINITION. The Packet Codec: the 16-bit checksum and its accumulator (spec/41_frame_codec.md R150, R159), encode (R151)
and decode with its trim, framing checks and checksum check (R152 to R157).
-/

namespace Sys2Proof.Machine

/-- CHK16(s) (R150): the two's-complement negation of the byte sum, modulo 2^16. -/
def chk16 (s : List Byte) : Word16 :=
  BitVec.ofNat 16 ((0x10000 - byteSum s % 0x10000) % 0x10000)

/-- CHK_ACC after the body's bytes (R159). -/
def chkAcc (s : List Byte) : Word16 :=
  s.foldl (fun a b => a + b.setWidth 16) 0

/-- encode(body) (R151). -/
def encodeFrame (body : List Byte) : List Byte :=
  startMarker :: (body ++ (hex4 (chk16 body).toNat ++ [endMarker]))

/-- trim(frame) (R153): leading bytes before the first START_MARKER go; without one nothing goes. -/
def trim (f : List Byte) : List Byte :=
  if f.contains startMarker then f.dropWhile (fun b => b != startMarker) else f

/-- The framing checks (R154), in the order written there. -/
def framingError (t : List Byte) : Option FramingReason :=
  if t.length < minFrame then some .tooShort
  else if t.head? ≠ some startMarker then some .noStart
  else if t.getLast? ≠ some endMarker then some .noEnd
  else none

/-- The body of a trimmed frame (R155, R156): `t[1 : L - 5]`. -/
def bodyOf (t : List Byte) : List Byte :=
  slice t 1 (t.length - 5)

/-- The declared checksum (R155): `UNHEX(t[L - 5 : L - 1])`. -/
def declaredOf (t : List Byte) : Option Nat :=
  unhex (slice t (t.length - 5) (t.length - 1))

/-- decode(frame) (R152): the codec registers it leaves, and the body or the first error. -/
def decodeFrame (f : List Byte) (k : Chk) : Chk × Except EngineError (List Byte) :=
  let t := trim f
  match framingError t with
  | some r => (k, .error (.framing r))
  | none =>
    let body := bodyOf t
    let computed := chk16 body
    match declaredOf t with
    | none =>
      ({ k with acc := chkAcc body, computed := computed, declaredValid := false },
       .error (.checksum computed none))
    | some d =>
      let declared : Word16 := BitVec.ofNat 16 d
      let k' : Chk := { acc := chkAcc body, computed := computed, declared := declared, declaredValid := true }
      if declared = computed then (k', .ok body) else (k', .error (.checksum computed (some declared)))

end Sys2Proof.Machine
end

