-- ==== Sys2Proof/Machine/Encoder.lean ====
section
/-!
DEFINITION. The Command Encoder (spec/42_command_encoder.md R170 to R181): the body of each query, one definition for
each of the seven, and the deadline of its answer (spec/44_orchestrator.md R244).
-/

namespace Sys2Proof.Machine

/-- The header of an outbound frame followed by its INFO (R170). -/
def buildBody (c : Config) (cid2 : Byte) (a : Byte) (info : List Byte) : List Byte :=
  hex2 c.verTx.toNat ++ (hex2 a.toNat ++ (hex2 c.cid1Tx.toNat ++ (hex2 cid2.toNat ++
    (hex4 (lengthTx c info.length) ++ info))))

/-- R174. -/
def protocolBody (c : Config) (i : Nat) : List Byte :=
  buildBody c c.cid2Tx.protocol (addr c i c.group) (infoOf c .protocol i)

/-- R175. -/
def manufactoryBody (c : Config) (i : Nat) : List Byte :=
  buildBody c c.cid2Tx.manufactory (addr c i c.group) (infoOf c .manufactory i)

/-- R176. -/
def analogBody (c : Config) (i : Nat) : List Byte :=
  buildBody c c.cid2Tx.analog (addr c i c.group) (infoOf c .analog i)

/-- R177. -/
def chargingDischargeBody (c : Config) (i : Nat) : List Byte :=
  buildBody c c.cid2Tx.chargingDischarge (addr c i c.group) (infoOf c .chargingDischarge i)

/-- R178. -/
def alarmBody (c : Config) (i : Nat) : List Byte :=
  buildBody c c.cid2Tx.alarm (addr c i c.group) (infoOf c .alarm i)

/-- R179. -/
def systemparameterBody (c : Config) (i : Nat) : List Byte :=
  buildBody c c.cid2Tx.systemparameter (addr c i c.group) (infoOf c .systemparameter i)

/-- R180. -/
def serialnumberBody (c : Config) (i : Nat) : List Byte :=
  buildBody c c.cid2Tx.serialnumber (addr c i c.group) (infoOf c .serialnumber i)

/-- build(cmd, i, GROUP) (R170). -/
def queryBody (c : Config) (w : WireCmd) (i : Nat) : List Byte :=
  match w with
  | .protocol => protocolBody c i
  | .manufactory => manufactoryBody c i
  | .analog => analogBody c i
  | .alarm => alarmBody c i
  | .chargingDischarge => chargingDischargeBody c i
  | .serialnumber => serialnumberBody c i
  | .systemparameter => systemparameterBody c i

/-- deadline_of(cmd) (R244). -/
def deadlineOf (c : Config) (w : WireCmd) : Nat :=
  match w with
  | .serialnumber => c.deadlineFast
  | .protocol => c.deadlineDefault
  | .manufactory => c.deadlineDefault
  | .analog => c.deadlineDefault
  | .alarm => c.deadlineDefault
  | .chargingDischarge => c.deadlineDefault
  | .systemparameter => c.deadlineDefault

/-- One step of `send(encode(build(cmd, i, GROUP)))` (R242): the generator's accumulator is written when the frame is
built, on the step that loads TXBUF. -/
def sendQueryStep (w : WireCmd) (i : Nat) (s : State) : Bool × State :=
  let body := queryBody s.cfg w i
  let s' := if s.tx.de then s else { s with chk := { s.chk with acc := chkAcc body } }
  sendStep (encodeFrame body) s'

end Sys2Proof.Machine
end

