-- ==== Sys2Proof/Machine/Decoder.lean ====
section
/-!
DEFINITION. The Response Decoder (spec/43_response_decoder.md R190 to R212): header, layout interpreter over the cursor
primitives, and one decode definition for each of the seven queries.
-/

namespace Sys2Proof.Machine

/-! ## The header (R191) -/

/-- The five header tokens of a body, or `none` when a character is not hex. -/
def headerTokens (body : List Byte) : Option (Nat × Nat × Nat × Nat × Nat) :=
  match unhex (slice body 0 2), unhex (slice body 2 4), unhex (slice body 4 6), unhex (slice body 6 8),
      unhex (slice body 8 12) with
  | some v, some a, some c, some r, some l => some (v, a, c, r, l)
  | _, _, _, _, _ => none

/-- decode_header(body): the decoder registers it leaves, and the payload or the first error. H_ registers are written
only when all five tokens are hex; the cursor only when the lengths agree (R191). -/
def decodeHeader (body : List Byte) (h : Hdr) : Hdr × Except HeaderReason (List Byte) :=
  if body.length < hdrChars then (h, .error .shortHeader)
  else
    match headerTokens body with
    | none => (h, .error .notHex)
    | some (v, a, c, r, l) =>
      let length : Word16 := BitVec.ofNat 16 l
      let lenid : BitVec 12 := (length &&& lenidMask).setWidth 12
      let h' : Hdr :=
        { h with ver := BitVec.ofNat 8 v, adr := BitVec.ofNat 8 a, cid := BitVec.ofNat 8 c, rtn := BitVec.ofNat 8 r,
                 length := length, lenid := lenid }
      if body.length - hdrChars ≠ lenid.toNat then (h', .error .lengthMismatch)
      else ({ h' with cursor := 0 }, .ok (slice body hdrChars (hdrChars + lenid.toNat)))

/-- The seven header fields of a record (R194). -/
def headerRecord (h : Hdr) (payload : List Byte) : Record :=
  [(.ver, .int h.ver.toNat), (.adr, .int h.adr.toNat), (.cid, .int h.cid.toNat), (.rtn, .int h.rtn.toNat),
   (.length, .int h.length.toNat), (.lenId, .int h.lenid.toNat), (.payload, .text payload)]

/-! ## Reading a payload by its layout -/

/-- One token, stored under its field name. -/
def readToken (c : Config) (f : Field) (p : List Byte) (cur : Nat) : Read Value :=
  match tokenOf f with
  | .byte =>
    match takeHex p 2 cur with
    | .error e => .error e
    | .ok (u, cur') => .ok (.int u, cur')
  | .word =>
    match read16 c f p cur with
    | .error e => .error e
    | .ok (n, cur') => .ok (.int n, cur')
  | .scaled d =>
    match readScaled c f d p cur with
    | .error e => .error e
    | .ok (x, cur') => .ok (.dec x, cur')
  | .temp =>
    match readTemp c f p cur with
    | .error e => .error e
    | .ok (x, cur') => .ok (.dec x, cur')
  | .alarm =>
    match readAlarm p cur with
    | .error e => .error e
    | .ok (a, cur') => .ok (.alarm a, cur')

/-- `n` tokens of a list field (R196). -/
def readList (c : Config) (f : Field) (n : Nat) (p : List Byte) (cur : Nat) : Read Value :=
  match tokenOf f with
  | .byte =>
    match readMany (read8 p) n cur with
    | .error e => .error e
    | .ok (l, cur') => .ok (.ints (l.map (fun b => (b.toNat : Int))), cur')
  | .word =>
    match readMany (read16 c f p) n cur with
    | .error e => .error e
    | .ok (l, cur') => .ok (.ints l, cur')
  | .scaled d =>
    match readMany (readScaled c f d p) n cur with
    | .error e => .error e
    | .ok (l, cur') => .ok (.decs l, cur')
  | .temp =>
    match readMany (readTemp c f p) n cur with
    | .error e => .error e
    | .ok (l, cur') => .ok (.decs l, cur')
  | .alarm =>
    match readMany (readAlarm p) n cur with
    | .error e => .error e
    | .ok (l, cur') => .ok (.alarms l, cur')

/-- rdText(k) (R193, R96). -/
def readText (k : Nat) (p : List Byte) (cur : Nat) : Read Value :=
  match readMany (read8 p) k cur with
  | .error e => .error e
  | .ok (l, cur') => .ok (.text (trimNulls l), cur')

/-- `k` bytes kept as numbers. -/
def readBytes (k : Nat) (p : List Byte) (cur : Nat) : Read Value :=
  match readMany (read8 p) k cur with
  | .error e => .error e
  | .ok (l, cur') => .ok (.ints (l.map (fun b => (b.toNat : Int))), cur')

/-- A wide capacity, `Dec(rdU24(), 1000)` (R92, R207). -/
def readWide (p : List Byte) (cur : Nat) : Read Value :=
  match takeHex p capWideChars cur with
  | .error e => .error e
  | .ok (u, cur') => .ok (.dec ⟨u, scaleCap⟩, cur')

/-- The detected-capacity flag read so far selects the wide branch: only the value 4 does (R207). -/
def wideFlag (r : Record) : Bool :=
  decide (Record.get? .detectedCapacity r = some (.int capFlagWide))

/-- A narrow capacity, `Dec(rdU16(), 1000)` (R207). -/
def readNarrow (c : Config) (f : Field) (p : List Byte) (cur : Nat) : Read Value :=
  match readNum c f capNarrowChars p cur with
  | .error e => .error e
  | .ok (n, cur') => .ok (.dec ⟨n, scaleCap⟩, cur')

/-- Store what a read answers under a field name. -/
def storeRead (f : Field) (r : Record) (x : Read Value) : Read Record :=
  match x with
  | .error e => .error e
  | .ok (v, cur) => .ok (Record.set f v r, cur)

/-- One slot of a layout, `starts` being the cursors at which the slots before it were read. In the wide branch of R207 the
narrow capacity has been read and stored, and the wide one takes its place. -/
def readSlot (c : Config) (t : Slot) (starts : List Nat) (p : List Byte) (cur : Nat) (r : Record) : Read Record :=
  match t with
  | .token f => storeRead f r (readToken c f p cur)
  | .counted n l =>
    match takeHex p 2 cur with
    | .error e => .error e
    | .ok (k, cur') => storeRead l (Record.set n (.int k) r) (readList c l k p cur')
  | .text f k => storeRead f r (readText k p cur)
  | .bytes f k => storeRead f r (readBytes k p cur)
  | .textRest f => storeRead f r (readText (restBytes p cur) p cur)
  | .bytesRest f => storeRead f r (readBytes (restBytes p cur) p cur)
  | .statusFlags =>
    match read8 p cur with
    | .error e => .error e
    | .ok (b, cur') => .ok (setStatusFlags b r, cur')
  | .narrow f => storeRead f r (readNarrow c f p cur)
  | .wide f => if wideFlag r then storeRead f r (readWide p cur) else .ok (r, cur)
  | .move m => .ok (r, moveCursor m starts (wideFlag r) cur)

/-- The slots of a layout, in order, behind those read at `starts`. -/
def readSlots (c : Config) (p : List Byte) : Layout → List Nat → Nat → Record → Read Record
  | [], _, cur, r => .ok (r, cur)
  | t :: ts, starts, cur, r =>
    match readSlot c t starts p cur r with
    | .error e => .error e
    | .ok (r', cur') => readSlots c p ts (starts ++ [cur]) cur' r'

/-- A payload by its layout, from its first character (R192). -/
def readLayout (c : Config) (p : List Byte) (l : Layout) (r : Record) : Read Record :=
  readSlots c p l [] 0 r

/-- require_len(cmd, L) before a fixed-length layout is read (R195). -/
def readFixed (c : Config) (len : Nat) (p : List Byte) (l : Layout) (r : Record) : Read Record :=
  if p.length ≠ len then .error (.wrongLength, 0) else readLayout c p l r

/-! ## One definition for each query -/

/-- R201: the answer is the header's VER byte; the payload is ignored. -/
def decodeProtocol (h : Hdr) (r : Record) : Read Record :=
  .ok (Record.set .protocolVersion (.int h.ver.toNat) r, 0)

/-- R202. -/
def decodeManufactory (c : Config) (p : List Byte) (r : Record) : Read Record :=
  readLayout c p c.layouts.manufactory r

/-- R203, R207. -/
def decodeAnalog (c : Config) (p : List Byte) (r : Record) : Read Record :=
  readLayout c p c.layouts.analog r

/-- R209. -/
def decodeAlarm (c : Config) (p : List Byte) (r : Record) : Read Record :=
  readLayout c p c.layouts.alarm r

/-- R208. -/
def decodeChargingDischarge (c : Config) (p : List Byte) (r : Record) : Read Record :=
  readFixed c lenMgmt p c.layouts.chargingDischarge r

/-- R211. -/
def decodeSerialnumber (c : Config) (p : List Byte) (r : Record) : Read Record :=
  readFixed c lenSerial p c.layouts.serialnumber r

/-- R210. -/
def decodeSystemparameter (c : Config) (p : List Byte) (r : Record) : Read Record :=
  readFixed c lenSysparam p c.layouts.systemparameter r

/-- The per-command rule of the command that was SENT (R190). -/
def decodePayload (c : Config) (w : WireCmd) (h : Hdr) (p : List Byte) (r : Record) : Read Record :=
  match w with
  | .protocol => decodeProtocol h r
  | .manufactory => decodeManufactory c p r
  | .analog => decodeAnalog c p r
  | .alarm => decodeAlarm c p r
  | .chargingDischarge => decodeChargingDischarge c p r
  | .serialnumber => decodeSerialnumber c p r
  | .systemparameter => decodeSystemparameter c p r

/-- decode_response(cmd, body) (R190): the decoder registers it leaves, and the record or the first error. -/
def decodeResponse (c : Config) (w : WireCmd) (body : List Byte) (h : Hdr) : Hdr × Except EngineError Record :=
  match decodeHeader body h with
  | (h', .error e) => (h', .error (.header e))
  | (h', .ok p) =>
    match decodePayload c w h' p (headerRecord h' p) with
    | .error (e, cur) => ({ h' with cursor := cur }, .error (.payloadFormat w p.length e))
    | .ok (r, cur) => ({ h' with cursor := cur }, .ok r)

/-! ## Decoding the collected frame (R245) -/

/-- The frame `receive_frame` returned (R126): FRAMEBUF[0 : FRAME_LEN]. -/
def State.frame (s : State) : List Byte :=
  s.rx.frame.take s.rx.frameLen

/-- The answer to query `w`: decode(r), then decode_response(w, body); codec and decoder registers are written, RECORD
is not. -/
def decodeAnswer (w : WireCmd) (s : State) : State × Except EngineError Record :=
  match decodeFrame s.frame s.chk with
  | (k, .error e) => ({ s with chk := k }, .error e)
  | (k, .ok body) =>
    match decodeResponse s.cfg w body s.hdr with
    | (h, x) => ({ s with chk := k, hdr := h }, x)

/-- RECORD <- v (R32). -/
def setRecord (r : Record) (s : State) : State :=
  { s with out := { s.out with record := r } }

/-- `Decoding` (R245): as decodeAnswer, with the record in RECORD; an error of the decoder leaves RECORD cleared (R190),
one of the codec leaves it as it was, because the decoder was not reached. -/
def decodeIntoRecord (w : WireCmd) (s : State) : State × Except EngineError Record :=
  match decodeAnswer w s with
  | (s', .ok r) => (setRecord r s', .ok r)
  | (s', .error (.header e)) => (setRecord [] s', .error (.header e))
  | (s', .error (.payloadFormat v n e)) => (setRecord [] s', .error (.payloadFormat v n e))
  | (s', .error e) => (s', .error e)

end Sys2Proof.Machine
end

