-- ==== Sys2Proof/Machine/Fold.lean ====
section
/-!
DEFINITION. The aggregation of a status round (spec/44_orchestrator.md R254 to R260): what is read from one module's
records, and the fold of all modules into the Calculated record. All arithmetic is exact (spec/00_scope.md R9).
-/

namespace Sys2Proof.Machine

/-- What the fold reads of one module: numerators over the fixed denominators (capacities and voltages over 1000,
currents and temperatures over 10), and the alarm states. -/
structure ModuleReading where
  moduleCapacity : Int
  remainingCapacity : Int
  current : Int
  moduleVoltage : Int
  cellVoltages : List Int
  temperatures : List Int
  cellAlarms : List AlarmState
  temperatureAlarms : List AlarmState
  chargeCurrentAlarm : AlarmState
  dischargeCurrentAlarm : AlarmState
  moduleVoltageAlarm : AlarmState
deriving DecidableEq, Repr

def Value.num? (v : Value) : Option Int :=
  match v with
  | .dec x => some x.num
  | _ => none

def Value.nums? (v : Value) : Option (List Int) :=
  match v with
  | .decs l => some (l.map Dec.num)
  | _ => none

def Value.alarm? (v : Value) : Option AlarmState :=
  match v with
  | .alarm a => some a
  | _ => none

def Value.alarms? (v : Value) : Option (List AlarmState) :=
  match v with
  | .alarms l => some l
  | _ => none

/-- The fields of R256 to R260 in the analog record. -/
def readAnalogRecord (r : Record) : Option (Int × Int × Int × Int × List Int × List Int) :=
  match (Record.get? .moduleCapacity r).bind Value.num?, (Record.get? .remainingCapacity r).bind Value.num?,
      (Record.get? .current r).bind Value.num?, (Record.get? .moduleVoltage r).bind Value.num?,
      (Record.get? .cellVoltages r).bind Value.nums?, (Record.get? .temperatures r).bind Value.nums? with
  | some cap, some rem, some cur, some v, some cells, some temps => some (cap, rem, cur, v, cells, temps)
  | _, _, _, _, _, _ => none

/-- The fields of R259 in the alarm record. -/
def readAlarmRecord (r : Record) :
    Option (List AlarmState × List AlarmState × AlarmState × AlarmState × AlarmState) :=
  match (Record.get? .cellAlarms r).bind Value.alarms?, (Record.get? .temperatureAlarms r).bind Value.alarms?,
      (Record.get? .chargeCurrentAlarm r).bind Value.alarm?, (Record.get? .dischargeCurrentAlarm r).bind Value.alarm?,
      (Record.get? .moduleVoltageAlarm r).bind Value.alarm? with
  | some cells, some temps, some ch, some dis, some v => some (cells, temps, ch, dis, v)
  | _, _, _, _, _ => none

/-- What the fold reads of one module. -/
def readModule (m : ModuleSnapshot) : Option ModuleReading :=
  match readAnalogRecord m.analog, readAlarmRecord m.alarm with
  | some (cap, rem, cur, v, cells, temps), some (cellAl, tempAl, ch, dis, va) =>
    some { moduleCapacity := cap, remainingCapacity := rem, current := cur, moduleVoltage := v,
           cellVoltages := cells, temperatures := temps, cellAlarms := cellAl, temperatureAlarms := tempAl,
           chargeCurrentAlarm := ch, dischargeCurrentAlarm := dis, moduleVoltageAlarm := va }
  | _, _ => none

/-- What the fold reads of every module, in index order. -/
def readModules : List ModuleSnapshot → Option (List ModuleReading)
  | [] => some []
  | m :: ms =>
    match readModule m, readModules ms with
    | some x, some xs => some (x :: xs)
    | _, _ => none

/-- The sum of one number over the modules. -/
def sumOver (f : ModuleReading → Int) (l : List ModuleReading) : Int :=
  (l.map f).sum

/-- The least element, absent over nothing (R258). -/
def leastOf : List Int → Option Int
  | [] => none
  | x :: xs =>
    match leastOf xs with
    | none => some x
    | some y => some (if x ≤ y then x else y)

/-- The greatest element, absent over nothing (R258). -/
def greatestOf : List Int → Option Int
  | [] => none
  | x :: xs =>
    match greatestOf xs with
    | none => some x
    | some y => some (if y ≤ x then x else y)

def allOk (l : List AlarmState) : Bool :=
  l.all (fun a => decide (a = .ok))

/-- current_ok(m) (R259). -/
def currentOk (m : ModuleReading) : Bool :=
  decide (m.chargeCurrentAlarm = .ok) && decide (m.dischargeCurrentAlarm = .ok)

/-- RemainingPercent (R260): 0 when the total is 0. -/
def percentOf (remaining total : Int) : Rat :=
  if total = 0 then 0 else (remaining : Rat) / (total : Rat) * 100

/-- An extreme as the field it becomes. -/
def extreme (den : Nat) (x : Option Int) : Option Dec :=
  x.map (fun n => ⟨n, den⟩)

/-- fold(S) (R255 to R260) over what was read. The denominators: amperes 10, watts 1000 times 10, kilowatt-hours
1000 times 1000 times 1000. -/
def foldReadings (l : List ModuleReading) : Calculated :=
  let total := sumOver ModuleReading.moduleCapacity l
  let remaining := sumOver ModuleReading.remainingCapacity l
  let cells := l.flatMap ModuleReading.cellVoltages
  let temps := l.flatMap ModuleReading.temperatures
  { totalCapacityAh := ⟨total, scaleCap⟩
    remainingCapacityAh := ⟨remaining, scaleCap⟩
    remainingPercent := percentOf remaining total
    totalCapacityKWh := ⟨sumOver (fun m => m.moduleCapacity * m.moduleVoltage) l, scaleCap * scaleVolt * 1000⟩
    remainingCapacityKWh := ⟨sumOver (fun m => m.remainingCapacity * m.moduleVoltage) l, scaleCap * scaleVolt * 1000⟩
    currentA := ⟨sumOver ModuleReading.current l, scaleCurrent⟩
    powerW := ⟨sumOver (fun m => m.moduleVoltage * m.current) l, scaleVolt * scaleCurrent⟩
    minCellVoltage := extreme scaleCellV (leastOf cells)
    maxCellVoltage := extreme scaleCellV (greatestOf cells)
    minTemperature := extreme scaleTemp (leastOf temps)
    maxTemperature := extreme scaleTemp (greatestOf temps)
    cellAlarmOk := l.all (fun m => allOk m.cellAlarms)
    temperatureAlarmOk := l.all (fun m => allOk m.temperatureAlarms)
    currentAlarmOk := l.all currentOk
    moduleVoltageAlarmOk := l.all (fun m => decide (m.moduleVoltageAlarm = .ok)) }

/-- fold(S) (R255). `none` only when a record lacks a field the fold reads (log 17). -/
def fold (s : List ModuleSnapshot) : Option Calculated :=
  match readModules s with
  | none => none
  | some l => some (foldReadings l)

/-- The slot of a query's record in its module's snapshot (R253). -/
def ModuleSnapshot.put (q : RoundQuery) (r : Record) (m : ModuleSnapshot) : ModuleSnapshot :=
  match q with
  | .analog => { m with analog := r }
  | .chargingDischarge => { m with chargeDischarge := r }
  | .alarm => { m with alarm := r }
  | .systemparameter => { m with systemParameter := r }

end Sys2Proof.Machine
end

