-- ==== Sys2Proof/Machine/Round.lean ====
section
/-!
DEFINITION. The control of a status round (spec/44_orchestrator.md R253) and of discovery (R262, R263), as operations that
start, continue or end them.
-/

namespace Sys2Proof.Machine

/-! ## The round (R253) -/

/-- The module's snapshot in progress, the finished snapshots (R32). -/
def setSnap (m : ModuleSnapshot) (l : List ModuleSnapshot) (s : State) : State :=
  { s with out := { s.out with snapM := m, snap := l } }

/-- SEQ_M <- m, SEQ_Q <- q (R22). -/
def setCursors (m : Nat) (q : RoundQuery) (s : State) : State :=
  { s with seq := { s.seq with seqM := m, seqQ := q } }

/-- A round is cancelled: SNAP is dropped, LAST_SNAPSHOT is kept, finish(NULL) (R253). -/
def cancelRound (s : State) : State :=
  finish .null .absent (setSnap ModuleSnapshot.empty [] s)

/-- The next query of a round: the stop is sampled, then the transaction starts in normal mode (R253). -/
def roundQuery (m : Nat) (q : RoundQuery) (s : State) : State :=
  let s' := sampleStop (setCursors m q s)
  if s.env.stop then cancelRound s' else startTransaction q.toWire m false s'

/-- All modules are polled: the fold, LAST_SNAPSHOT, finish(RECORD) (R253). -/
def completeRound (s : State) : Outcome :=
  match fold s.out.snap with
  | none => .fault .recordLacksField
  | some c =>
    let st : StackSnapshot := { modules := s.out.snap, calculated := c }
    .next (finish .record (.stack st) { s with out := { s.out with lastSnapshot := some st } })

/-- The start of a round, or its end at once when there is no module (R251, R253). -/
def startRound (s : State) : Outcome :=
  let s' := setSnap ModuleSnapshot.empty [] s
  if s.regs.moduleCount = 0 then completeRound s' else .next (roundQuery 0 .analog s')

/-- A query of the round has succeeded: its record goes to its slot, then the next query, the next module, or the end
of the round (R253). -/
def roundOk (r : Record) (s : State) : Outcome :=
  let m := s.out.snapM.put s.seq.seqQ r
  match s.seq.seqQ.next? with
  | some q => .next (roundQuery s.seq.seqM q (setSnap m s.out.snap s))
  | none =>
    let done := s.out.snap ++ [m]
    if s.seq.seqM + 1 < s.regs.moduleCount then
      .next (roundQuery (s.seq.seqM + 1) .analog (setSnap ModuleSnapshot.empty done s))
    else completeRound (setSnap ModuleSnapshot.empty done s)

/-! ## Discovery (R262) -/

/-- DISC_I <- i. -/
def setDisc (i : Nat) (s : State) : State :=
  { s with seq := { s.seq with discI := i } }

/-- The head of discovery's loop: the limit, then the stop, then the next serial-number probe in probe mode. -/
def discoverLoop (s : State) : State :=
  if s.seq.discI < s.cfg.discoveryLimit then
    let s' := sampleStop s
    if s.env.stop then endDiscovery s' else startTransaction .serialnumber s.seq.discI true s'
  else endDiscovery s

/-- The start of discovery, once at reset release. -/
def discoverStart (s : State) : State :=
  discoverLoop (setDisc 0 s)

end Sys2Proof.Machine
end

