-- ==== Sys2Proof/Machine/Transaction.lean ====
section
/-!
DEFINITION. One step of a transaction (spec/44_orchestrator.md R240, R242 to R248): Sending, Awaiting, Decoding and
Retrying, shared by the seven single commands, the status round and discovery, which differ in what follows a success
or a cancellation.
-/

namespace Sys2Proof.Machine

/-- Which caller of `transact` waits for the result. -/
inductive Caller where
  /-- a single command (R252) -/
  | single
  /-- a status round (R253) -/
  | round
  /-- discovery (R262) -/
  | discovery
deriving DecidableEq, Repr

/-- The transaction returned OK(rec): the record is stripped (R247) and goes to the caller. -/
def transactOk (k : Caller) (r : Record) (s : State) : Outcome :=
  match k with
  | .single => .next (finish .record (.record (strip r)) s)
  | .round => roundOk (strip r) s
  | .discovery => .next (discoverLoop (setDisc (s.seq.discI + 1) s))

/-- The transaction returned CANCELLED: finish(NULL) (R252, R253). -/
def transactCancelled (k : Caller) (s : State) : State :=
  match k with
  | .single => finish .null .absent s
  | .round => cancelRound s
  | .discovery => finish .null .absent s

/-- Sending (R242); `receive_frame` is entered "immediately after `send` returns" (R124, R243), in the same step, so that the
deadline runs from the flush. -/
def sendingStep (w : WireCmd) (s : State) : State :=
  match sendQueryStep w s.regs.curIdx s with
  | (true, s') => setOrch .awaiting (receiveEntry (deadlineOf s.cfg w) s')
  | (false, s') => s'

/-- Awaiting (R243). -/
def awaitingStep (w : WireCmd) (s : State) : State :=
  match receiveStep (deadlineOf s.cfg w) s with
  | (.waiting, s') => s'
  | (.noFrame, s') => failTransaction .transportTimeout s'
  | (.frame, s') => setOrch .decoding s'

/-- Decoding (R245). -/
def decodingStep (w : WireCmd) (k : Caller) (s : State) : Outcome :=
  match decodeIntoRecord w s with
  | (s', .ok r) => transactOk k r s'
  | (s', .error e) => .next (failTransaction e s')

/-- The start of Retrying (R248): the stop, then PROBE_CNT <- 0. -/
def retryEntry (k : Caller) (s : State) : State :=
  if s.env.stop then transactCancelled k (sampleStop s)
  else { s with seq := { s.seq with probeCnt := 0, retryPhase := .test } }

/-- After a failed attempt (R248): the stop, then the test of the loop. -/
def retryFailed (k : Caller) (s : State) : State :=
  if s.env.stop then transactCancelled k (sampleStop s) else setRetryPhase .test s

/-- The end of Retrying (R248): the stop, then the return (R299). -/
def retryLeave (k : Caller) (s : State) : State :=
  if s.env.stop then transactCancelled k (sampleStop s) else returnFromRetrying s

/-- The test of the probe loop (R248): PROBE_CNT <- PROBE_CNT + 1 and another attempt, or out. -/
def retryTest (s : State) : State :=
  if s.seq.probeCnt < s.cfg.probeMax then
    { s with seq := { s.seq with probeCnt := s.seq.probeCnt + 1, retryPhase := .probeSend } }
  else setRetryPhase .leave s

/-- The recovery probe's answer is decoded as a `protocol` response (R248): its errors and its record are dropped. -/
def probeDecodeStep (s : State) : State :=
  match decodeAnswer .protocol s with
  | (s', .ok _) => setRetryPhase .leave s'
  | (s', .error _) => setRetryPhase .probeFailed s'

/-- Retrying (R248): the recovery probe, addressed to module index 0, under DEADLINE_FAST from its flush (R124). -/
def retryingStep (k : Caller) (s : State) : State :=
  match s.seq.retryPhase with
  | .exhausted => transactCancelled k s
  | .entry => retryEntry k s
  | .test => retryTest s
  | .probeSend =>
    match sendQueryStep .protocol 0 s with
    | (true, s') => setRetryPhase .probeReceive (receiveEntry s.cfg.deadlineFast s')
    | (false, s') => s'
  | .probeReceive =>
    match receiveStep s.cfg.deadlineFast s with
    | (.waiting, s') => s'
    | (.noFrame, s') => setRetryPhase .probeFailed s'
    | (.frame, s') => setRetryPhase .probeDecode s'
  | .probeDecode => probeDecodeStep s
  | .probeFailed => retryFailed k s
  | .leave => retryLeave k s

/-- One step of the transaction of query `w` for the caller `k`; in the other states there is none. -/
def transactStep (w : WireCmd) (k : Caller) (s : State) : Outcome :=
  match s.seq.orch with
  | .sending => .next (sendingStep w s)
  | .awaiting => .next (awaitingStep w s)
  | .decoding => decodingStep w k s
  | .retrying => .next (retryingStep k s)
  | .discovering => .next s
  | .idle => .next s
  | .done => .next s

end Sys2Proof.Machine
end

