-- ==== Sys2Proof/Machine/Command.lean ====
section
/-!
DEFINITION. Command accept (spec/44_orchestrator.md R241) and one engine step of a command (R252, R253), shared by the eight
meanings.
-/

namespace Sys2Proof.Machine

/-- CMD <- c, MIDX <- clamp(idx) (R241, R265). -/
def latchCommand (c : Cmd) (idx : Option Int) (s : State) : State :=
  { s with regs := { s.regs with cmd := c, midx := clamp idx s.regs.moduleCount } }

/-- The part of command accept before the stop decides (R241): flags cleared, CMD and MIDX latched, the stop sampled. -/
def acceptCommand (c : Cmd) (idx : Option Int) (s : State) : State :=
  sampleStop (latchCommand c idx (clearForCommand s))

/-- Accept of a single command (R241, R252). -/
def acceptSingle (w : WireCmd) (idx : Option Int) (s : State) : State :=
  let s' := acceptCommand (.wire w) idx s
  if s.env.stop then finish .null .absent s' else startTransaction w s'.regs.midx false s'

/-- Accept of `status` (R241, R253). -/
def acceptStatus (idx : Option Int) (s : State) : Outcome :=
  let s' := acceptCommand .status idx s
  if s.env.stop then .next (finish .null .absent s') else startRound s'

/-- An unknown name (R241, R100): RESULT_KIND <- MISUSE, pc <- Done, nothing is sent; CMD and MIDX are not latched. -/
def misuse (name : List Byte) (s : State) : State :=
  finish .misuse (.misused name) (clearForCommand s)

/-- One engine step of the single command `w`: when the engine is Idle, its accept; while it is the command in progress,
the next step of its transaction or the way back to Idle. A command that is neither acceptable nor in progress is a
CMD_START pulse that is ignored (R241, R339). -/
def runSingle (w : WireCmd) (idx : Option Int) (s : State) : Outcome :=
  if s.flags.ready then
    match s.seq.orch with
    | .idle => .next (acceptSingle w idx s)
    | .discovering => .next s
    | .done => if s.regs.cmd = .wire w then .next (toIdle s) else .next s
    | .sending => if s.regs.cmd = .wire w then transactStep w .single s else .next s
    | .awaiting => if s.regs.cmd = .wire w then transactStep w .single s else .next s
    | .decoding => if s.regs.cmd = .wire w then transactStep w .single s else .next s
    | .retrying => if s.regs.cmd = .wire w then transactStep w .single s else .next s
  else .next s

/-- One engine step of `status` (R253): as runSingle, with the query SEQ_Q names. -/
def runStatus (idx : Option Int) (s : State) : Outcome :=
  if s.flags.ready then
    match s.seq.orch with
    | .idle => acceptStatus idx s
    | .discovering => .next s
    | .done => if s.regs.cmd = .status then .next (toIdle s) else .next s
    | .sending => if s.regs.cmd = .status then transactStep s.seq.seqQ.toWire .round s else .next s
    | .awaiting => if s.regs.cmd = .status then transactStep s.seq.seqQ.toWire .round s else .next s
    | .decoding => if s.regs.cmd = .status then transactStep s.seq.seqQ.toWire .round s else .next s
    | .retrying => if s.regs.cmd = .status then transactStep s.seq.seqQ.toWire .round s else .next s
  else .next s

end Sys2Proof.Machine
end

