-- ==== Sys2Proof/Machine/Queries.lean ====
section
/-!
DEFINITION. The meanings of the seven wire commands. Each is one engine step of its command; what is its own stands in its
query (Machine/Encoder.lean) and its decode (Machine/Decoder.lean), selected by its name.
-/

namespace Sys2Proof.Machine

/-- `protocol`: query R174, answer R201. -/
def execProtocol (idx : Option Int) (s : State) : Outcome :=
  runSingle .protocol idx s

/-- `manufactory`: query R175, answer R202. -/
def execManufactory (idx : Option Int) (s : State) : Outcome :=
  runSingle .manufactory idx s

/-- `analog`: query R176, answer R203 and R207. -/
def execAnalog (idx : Option Int) (s : State) : Outcome :=
  runSingle .analog idx s

/-- `alarm`: query R178, answer R209. -/
def execAlarm (idx : Option Int) (s : State) : Outcome :=
  runSingle .alarm idx s

/-- `charging/discharge`: query R177, answer R208. -/
def execChargingDischarge (idx : Option Int) (s : State) : Outcome :=
  runSingle .chargingDischarge idx s

/-- `serialnumber`: query R180, answer R211. -/
def execSerialnumber (idx : Option Int) (s : State) : Outcome :=
  runSingle .serialnumber idx s

/-- `systemparameter`: query R179, answer R210. -/
def execSystemparameter (idx : Option Int) (s : State) : Outcome :=
  runSingle .systemparameter idx s

end Sys2Proof.Machine
end

