-- ==== Sys2Proof/Machine/StatusMacro.lean ====
section
/-!
DEFINITION. The meaning of the macro command `status` (spec/44_orchestrator.md R253).
-/

namespace Sys2Proof.Machine

/-- `status`: for each module the four queries in their order, then the fold (R253, R255). -/
def execStatus (idx : Option Int) (s : State) : Outcome :=
  runStatus idx s

end Sys2Proof.Machine
end

