-- ==== Sys2Proof/Machine/Dispatch.lean ====
section
/-!
DEFINITION. One arm for each host command, each one call of its meaning.
-/

namespace Sys2Proof.Machine

/-- One engine step of a host command: its accept when the engine is Idle, its next step while it is in progress. -/
def exec (i : Instr) (s : State) : Host.Outcome State Fault Refusal :=
  match i with
  | .protocol idx => Sys2Proof.Machine.execProtocol idx s
  | .manufactory idx => Sys2Proof.Machine.execManufactory idx s
  | .analog idx => Sys2Proof.Machine.execAnalog idx s
  | .alarm idx => Sys2Proof.Machine.execAlarm idx s
  | .chargingDischarge idx => Sys2Proof.Machine.execChargingDischarge idx s
  | .serialnumber idx => Sys2Proof.Machine.execSerialnumber idx s
  | .systemparameter idx => Sys2Proof.Machine.execSystemparameter idx s
  | .status idx => Sys2Proof.Machine.execStatus idx s

end Sys2Proof.Machine
end

