-- ==== Sys2Proof/Machine/Engine.lean ====
section
/-!
DEFINITION. One step of the engine (spec/44_orchestrator.md R251) and one move of each agent outside it: the line, the
clock, the host's port, RESET (spec/00_scope.md R11, spec/70_reset_and_hazards.md R320, R321).
-/

namespace Sys2Proof.Machine

/-- The command in progress, as the engine latched it (R241). -/
def latched (s : State) : Instr :=
  Instr.ofCmd s.regs.cmd (some (s.regs.midx : Int))

/-- One step of the engine. While RESET is asserted it holds (R320); Idle without a pulse it "does nothing" (R312);
before READY the transaction in progress is discovery's (R262); after, it is the latched command's. -/
def engineStep (s : State) : Outcome :=
  if s.env.inReset then .next s
  else
    match s.seq.orch with
    | .discovering => .next (discoverStart s)
    | .idle => .next s
    | .done => .next (toIdle s)
    | .sending => if s.flags.ready then exec (latched s) s else transactStep .serialnumber .discovery s
    | .awaiting => if s.flags.ready then exec (latched s) s else transactStep .serialnumber .discovery s
    | .decoding => if s.flags.ready then exec (latched s) s else transactStep .serialnumber .discovery s
    | .retrying => if s.flags.ready then exec (latched s) s else transactStep .serialnumber .discovery s

/-- CMD_START pulses (R241): fetched, decoded and accepted when READY = 1 and the engine is Idle; ignored otherwise, not
queued (R339, U51). -/
def commandPulse (name : List Byte) (idx : Option Int) (s : State) : Outcome :=
  if s.flags.ready = true ∧ s.seq.orch = .idle then
    match decodeCommand name idx with
    | .ok i => exec i s
    | .error _ => .next (misuse name s)
  else .next s

/-- RESET is asserted (R320, R321): every register at its reset value, DE = 0 at once, RXFIFO emptied, no DONE. The
inputs, the clock, the STOP level and what has left on TXD are outside the engine and stay. -/
def assertReset (s : State) : State :=
  { State.reset with
    env := { s.env with inReset := true }
    cfg := s.cfg }

/-- RESET is released (R320): the parameters are sampled and discovery starts. Parameters the spec does not allow are
refused up front (U31; log 13). Without a RESET to release nothing happens. -/
def releaseReset (c : Config) (s : State) : Outcome :=
  if s.env.inReset then
    if c.legal then .next { s with cfg := c, env := { s.env with inReset := false } }
    else .refused .illegalConfiguration
  else .next s

/-- One move, with the input already taken from the list. -/
def applyInput (i : Input) (s : State) : Outcome :=
  match i with
  | .engine => engineStep s
  | .time d => .next (advance d s)
  | .byte b => .next (receiveByte b s)
  | .stop level => .next { s with env := { s.env with stop := level } }
  | .command name idx => commandPulse name idx s
  | .resetAssert => .next (assertReset s)
  | .resetRelease c => releaseReset c s

/-- One step of the machine: the next input's move, or the engine's when no input is waiting. -/
def machineStep (s : State) : Outcome :=
  match s.env.inputs with
  | [] => engineStep s
  | i :: rest => applyInput i (setInputs rest s)

/-- The engine Idle after discovery, with nothing in progress: the one place a command is fetched (R241). -/
def readyForCommand (s : State) : State :=
  { s with
    seq := { s.seq with orch := .idle }
    flags := { s.flags with ready := true, busy := false, done := false }
    env := { s.env with inReset := false } }

/-- GROUP <- g. -/
def setGroup (g : Nat) (s : State) : State :=
  { s with cfg := { s.cfg with group := g } }

/-- A word of the opcode table as a CMD_START pulse at the head of the inputs: its name, its index, and for a wire query
the group of its address; a word that is no row is an unknown name, the empty one (log 6). -/
def presentWord (nbits w : Nat) (s : State) : State :=
  match decodeTable nbits w with
  | .error _ => setInputs (.command [] none :: s.env.inputs) s
  | .ok (i, g) =>
    match i.query? with
    | some _ => setInputs (.command i.cmd.name i.idx :: s.env.inputs) (setGroup g s)
    | none => setInputs (.command i.cmd.name i.idx :: s.env.inputs) s

end Sys2Proof.Machine
end

