-- ==== Sys2Proof/Machine/Step.lean ====
section
/-!
DEFINITION. The step of the machine and the placing of a command where the next step fetches it.
-/

namespace Sys2Proof.Machine

/-- One step. -/
def step (s : State) : Host.Outcome State Fault Refusal :=
  machineStep s

/-- `s` with the opcode-table word presented at the command port of an engine that can accept it, so that the very next
step runs it (log 6). -/
def State.withFetchWord (s : State) (nbits w : Nat) : State :=
  presentWord nbits w (readyForCommand s)

end Sys2Proof.Machine
end

