-- ==== Sys2Proof/Safety.lean ====
section
/-!
DEFINITION. What claims mean by a sound state of the engine: the relations between its registers that reset establishes
and every step keeps (spec/10_state.md R21 to R36, spec/40_transport.md R122, R127, spec/44_orchestrator.md R251, R262 to
R264), the transitions of ORCH_STATE (R251), and what every status round may rely on (R253).
-/

namespace Sys2Proof.Machine

/-- `n` steps, to the first fault or refusal. -/
def runSteps : Nat → State → Outcome
  | 0, s => .next s
  | n + 1, s =>
    match step s with
    | .next t => runSteps n t
    | .fault r => .fault r
    | .refused r => .refused r

/-- `s` without what R36 leaves unspecified after reset: the checksum registers of the last validation, the decoder
registers, TX_DURATION, DEADLINE_AT outside the hunt and LAST_BYTE_AT outside the collect, RESULT while RESULT_KIND is
NONE. -/
def forgetUnspecified (s : State) : State :=
  { s with
    chk := { s.chk with computed := 0, declared := 0, declaredValid := false }
    hdr := State.reset.hdr
    tx := { s.tx with duration := 0 }
    rx := { s.rx with
            deadlineAt := if s.rx.state = .hunt then s.rx.deadlineAt else 0
            lastByteAt := if s.rx.state = .collect then s.rx.lastByteAt else 0 }
    out := { s.out with result := if s.flags.resultKind = .nothing then .absent else s.out.result } }

/-- A transaction is in progress. -/
def inTransaction (o : OrchState) : Bool :=
  match o with
  | .sending => true
  | .awaiting => true
  | .decoding => true
  | .retrying => true
  | .discovering => false
  | .idle => false
  | .done => false

/-- A frame or the start of one as the collect step builds it (R126, R127): START_MARKER first, and no END_MARKER
except as the last byte. -/
def framed (f : List Byte) : Bool :=
  decide (f.head? = some startMarker) && !(f.dropLast.contains endMarker)

/-- The registers of a transaction belong to its caller (R24): discovery's probe of DISC_I, the latched command, or the
cursors of the round. -/
def callerOk (s : State) : Bool :=
  if s.flags.ready then
    match s.regs.cmd with
    | .wire w => decide (s.regs.curCmd = w) && decide (s.regs.curIdx = s.regs.midx)
    | .status =>
      decide (s.regs.curCmd = s.seq.seqQ.toWire) && decide (s.regs.curIdx = s.seq.seqM)
        && decide (s.seq.seqM < s.regs.moduleCount) && decide (s.out.snap.length = s.seq.seqM)
  else
    decide (s.regs.curCmd = .serialnumber) && decide (s.regs.curIdx = s.seq.discI)
      && decide (s.seq.discI < s.cfg.discoveryLimit)

/-- The analog record of the module in progress is in its slot once the round is past it, likewise the alarm record. -/
def slotsReadable (s : State) : Bool :=
  match s.seq.seqQ with
  | .analog => true
  | .chargingDischarge => (readAnalogRecord s.out.snapM.analog).isSome
  | .alarm => (readAnalogRecord s.out.snapM.analog).isSome
  | .systemparameter => (readModule s.out.snapM).isSome

/-- The records of a round in progress hold what its fold will read (R255). -/
def roundReadable (s : State) : Bool :=
  !(s.flags.ready && decide (s.regs.cmd = .status) && inTransaction s.seq.orch)
    || (s.out.snap.all (fun m => (readModule m).isSome) && slotsReadable s)

/-- The relations every reachable state has. -/
structure Inv (s : State) : Prop where
  /-- the buffers keep their form -/
  memory : Memory.wf s = true
  /-- the parameters are ones the spec allows -/
  legal : s.cfg.legal = true
  /-- BUSY: "`ORCH_STATE` is neither `Idle` nor `Done`" (R29) -/
  busy : s.flags.busy = true ↔ s.seq.orch ≠ .idle ∧ s.seq.orch ≠ .done
  /-- DONE is up exactly during the visit to Done (R252) -/
  done : s.flags.done = true ↔ s.seq.orch = .done
  /-- DE is 1 only inside a `send` (R122) -/
  driver : s.tx.de = true → s.seq.orch = .sending ∨ (s.seq.orch = .retrying ∧ s.seq.retryPhase = .probeSend)
  /-- a `receive_frame` is in progress exactly where one is called (R124, R243, R248) -/
  receiver : s.rx.state ≠ .off ↔
    s.seq.orch = .awaiting ∨ (s.seq.orch = .retrying ∧ s.seq.retryPhase = .probeReceive)
  /-- READY rises when discovery ends (R263) -/
  ready : s.flags.ready = false → s.regs.moduleCount = 0 ∧ s.seq.orch ≠ .idle ∧ s.seq.orch ≠ .done ∧
    s.seq.orch ≠ .retrying
  /-- discovery runs once (R262) -/
  discovered : s.flags.ready = true → s.seq.orch ≠ .discovering
  /-- probe mode is discovery's alone (R246) -/
  probe : inTransaction s.seq.orch = true → s.regs.probeMode = !s.flags.ready
  /-- CUR_CMD and CUR_IDX belong to the caller (R24) -/
  caller : inTransaction s.seq.orch = true → callerOk s = true
  /-- the count is within the limit (R262) -/
  count : s.regs.moduleCount ≤ s.cfg.discoveryLimit ∧ s.seq.discI ≤ s.cfg.discoveryLimit
  /-- PROBE_CNT is 0 to PROBE_MAX (R23) -/
  probeCnt : s.seq.probeCnt ≤ s.cfg.probeMax
  /-- `Retrying` finds RECORD cleared (R248, R296) -/
  cleared : s.seq.orch = .retrying → s.out.record = []
  /-- what is collected starts with START_MARKER and holds END_MARKER at most at its end (R127) -/
  collected : s.rx.state = .collect → framed s.rx.frame = true ∧ s.rx.frame.getLast? ≠ some endMarker
  /-- what is decoded is a whole candidate (R127) -/
  candidate : s.seq.orch = .decoding ∨ (s.seq.orch = .retrying ∧ s.seq.retryPhase = .probeDecode) →
    framed s.rx.frame = true
  /-- the fold of a round will find its fields (R255) -/
  readable : roundReadable s = true
  /-- while RESET is asserted every register holds its reset value (R320) -/
  held : s.env.inReset = true → s = { State.reset with env := s.env, cfg := s.cfg }

/-- The transitions of ORCH_STATE (R251), without those RESET makes; a success of the last discovery probe ends
discovery in the same step (log 9). -/
def transitionOk (a b : OrchState) : Bool :=
  match a, b with
  | .discovering, .sending => true
  | .discovering, .idle => true
  | .idle, .done => true
  | .idle, .sending => true
  | .sending, .awaiting => true
  | .awaiting, .decoding => true
  | .awaiting, .retrying => true
  | .awaiting, .idle => true
  | .decoding, .done => true
  | .decoding, .sending => true
  | .decoding, .retrying => true
  | .decoding, .idle => true
  | .retrying, .done => true
  | .retrying, .sending => true
  | .done, .idle => true
  | _, _ => decide (a = b)

end Sys2Proof.Machine
end

