-- ==== Sys2Proof/Certificates/Slice0/Obligations.lean ====
section
/-!
DEFINITION. The statements about the engine, each from a numbered rule of spec/ or from sections of it, with the few names
they share.
-/

namespace Sys2Proof.Machine

/-! ## Names the statements share -/

/-- The token of `k` characters at offset `off` of a payload has the value `v` (R92, R193). -/
def tokenIs (p : List Byte) (off k v : Nat) : Prop :=
  off + k ≤ p.length ∧ unhex ((p.drop off).take k) = some v

/-- The tokens of `k` characters from offset `off` on have the values of `vs`, in order (R196). -/
def tokensAre (p : List Byte) (off k : Nat) (vs : List Nat) : Prop :=
  ∀ (j : Nat) (h : j < vs.length), tokenIs p (off + k * j) k (vs[j]'h)

/-- The text bytes from offset `off` on (R96). -/
def textIs (p : List Byte) (off : Nat) (bs : List Byte) : Prop :=
  tokensAre p off 2 (bs.map BitVec.toNat)

/-- The exact payload lengths (R195). -/
def fixedLength? (w : WireCmd) : Option Nat :=
  match w with
  | .systemparameter => some 50
  | .chargingDischarge => some 20
  | .serialnumber => some 34
  | .protocol | .manufactory | .analog | .alarm => none

/-- LAYOUT(cmd) is the default one (R202 to R211); `protocol` has none. -/
def defaultLayout (c : Config) (w : WireCmd) : Prop :=
  match w with
  | .protocol => True
  | .manufactory => c.layouts.manufactory = layoutManufactory
  | .analog => c.layouts.analog = layoutAnalog
  | .alarm => c.layouts.alarm = layoutAlarm
  | .chargingDischarge => c.layouts.chargingDischarge = layoutChargingDischarge
  | .serialnumber => c.layouts.serialnumber = layoutSerialnumber
  | .systemparameter => c.layouts.systemparameter = layoutSystemparameter

/-- The tokens of a payload of `len` characters in the default layout, in cursor order, each as its offset and its width
(R202 to R211): `n` and `m` tokens in its two lists (R196), the wide capacities only with `wide` (R207). -/
def payloadTokens (w : WireCmd) (n m : Nat) (wide : Bool) (len : Nat) : List (Nat × Nat) :=
  match w with
  | .protocol => []
  | .manufactory =>
    (List.range 12).map (fun j => (2 * j, 2)) ++ (List.range ((len - 24) / 2)).map (fun j => (24 + 2 * j, 2))
  | .analog =>
    [(0, 2), (2, 2), (4, 2)] ++ (List.range n).map (fun j => (6 + 4 * j, 4)) ++ [(6 + 4 * n, 2)]
      ++ (List.range m).map (fun j => (8 + 4 * n + 4 * j, 4))
      ++ [(8 + 4 * n + 4 * m, 4), (12 + 4 * n + 4 * m, 4), (16 + 4 * n + 4 * m, 4), (20 + 4 * n + 4 * m, 2),
          (22 + 4 * n + 4 * m, 4), (26 + 4 * n + 4 * m, 4)]
      ++ (if wide then [(30 + 4 * n + 4 * m, 6), (36 + 4 * n + 4 * m, 6)] else [])
  | .alarm =>
    [(0, 2), (2, 2), (4, 2)] ++ (List.range n).map (fun j => (6 + 2 * j, 2)) ++ [(6 + 2 * n, 2)]
      ++ (List.range m).map (fun j => (8 + 2 * n + 2 * j, 2))
      ++ [(8 + 2 * n + 2 * m, 2), (10 + 2 * n + 2 * m, 2), (12 + 2 * n + 2 * m, 2)]
      ++ (List.range ((len - (14 + 2 * n + 2 * m)) / 2)).map (fun j => (14 + 2 * n + 2 * m + 2 * j, 2))
  | .chargingDischarge => [(0, 2), (2, 4), (6, 4), (10, 4), (14, 4), (18, 2)]
  | .serialnumber => (List.range 17).map (fun j => (2 * j, 2))
  | .systemparameter => (0, 2) :: (List.range 12).map (fun j => (2 + 4 * j, 4))

/-- The first failing check of a payload `p` of query `w` (R294 (5)), with the cursor it leaves: in every layout the exact
length (R195); else, in the default layout, the first token that passes the end or, within it, is not hex (R193), all before
it being read, the counts and the flag among them. -/
def PayloadFails (c : Config) (w : WireCmd) (p : List Byte) (off : Nat) (reason : PayloadReason) : Prop :=
  (∃ len, fixedLength? w = some len ∧ p.length ≠ len ∧ off = 0 ∧ reason = .wrongLength)
  ∨ (defaultLayout c w ∧ (∀ len, fixedLength? w = some len → p.length = len)
    ∧ ∃ (n m k : Nat) (wide : Bool) (pre post : List (Nat × Nat)),
      payloadTokens w n m wide p.length = pre ++ (off, k) :: post
      ∧ (∀ t ∈ pre, ∃ v, tokenIs p t.1 t.2 v)
      ∧ (w = .analog → ((4, 2) ∈ pre → tokenIs p 4 2 n) ∧ ((6 + 4 * n, 2) ∈ pre → tokenIs p (6 + 4 * n) 2 m)
        ∧ ((20 + 4 * n + 4 * m, 2) ∈ pre → (wide = true ↔ tokenIs p (20 + 4 * n + 4 * m) 2 4)))
      ∧ (w = .alarm → ((4, 2) ∈ pre → tokenIs p 4 2 n) ∧ ((6 + 2 * n, 2) ∈ pre → tokenIs p (6 + 2 * n) 2 m))
      ∧ ((reason = .overrun ∧ p.length < off + k)
        ∨ (reason = .notHex ∧ off + k ≤ p.length ∧ unhex ((p.drop off).take k) = none)))

/-- The collected frame, decoded as an answer to `w`, fails with `e`, the first failing check of R294: the codec's error, with
the decoder's registers as they were; the header's; or the payload's, with the command and the length seen (R290). `k` and
`h` are what the codec and decoder registers hold then. -/
def DecodeFails (w : WireCmd) (s : State) (k : Chk) (h : Hdr) (e : EngineError) : Prop :=
  (decodeFrame s.frame s.chk = (k, .error e) ∧ h = s.hdr)
  ∨ (∃ body x, decodeFrame s.frame s.chk = (k, .ok body) ∧ decodeHeader body s.hdr = (h, .error x) ∧ e = .header x)
  ∨ (∃ body h' p off reason, decodeFrame s.frame s.chk = (k, .ok body) ∧ decodeHeader body s.hdr = (h', .ok p)
      ∧ PayloadFails s.cfg w p off reason ∧ h = { h' with cursor := off } ∧ e = .payloadFormat w p.length reason)

/-- Two states that agree in all a host or the sequencer can see of an answer: what differs is the answer's own frame, the
codec and decoder registers and the header fields in RECORD. -/
def sameAnswer (t t' : State) : Prop :=
  t'.seq = t.seq ∧ t'.regs = t.regs ∧ t'.flags = t.flags ∧ t'.env = t.env ∧ t'.cfg = t.cfg ∧ t'.tx = t.tx
    ∧ t'.out = { t.out with record := t'.out.record }

/-- The engine is in Decoding of command `c` and the frame it collected passes the codec and the header decoder, leaving
`k` in the codec registers, `h` in the header registers and `p` as payload (R152, R191). -/
structure Answered (c : Cmd) (s : State) (k : Chk) (h : Hdr) (p : List Byte) : Prop where
  ready : s.flags.ready = true
  orch : s.seq.orch = .decoding
  cmd : s.regs.cmd = c
  accepted : ∃ body, decodeFrame s.frame s.chk = (k, .ok body) ∧ decodeHeader body s.hdr = (h, .ok p)

/-- What a single command leaves when its answer decodes (R245, R247, R252): codec and decoder registers, the raw record
in RECORD, the stripped one in RESULT, RESULT_KIND = RECORD, DONE pulsed, BUSY 0, Done. Every other part of the state
is as before. -/
def singleDone (s : State) (k : Chk) (h : Hdr) (p : List Byte) (cursor : Nat) (r : Record) : State :=
  { s with
    chk := k
    hdr := { h with cursor := cursor }
    seq := { s.seq with orch := .done }
    flags := { s.flags with resultKind := .record, done := true, busy := false }
    out := { s.out with record := headerRecord h p ++ r, result := .record r } }

/-- The query of the transaction in progress (R24): discovery's `serialnumber` before READY, then the command's own, or
the one SEQ_Q names. -/
def queryInProgress (s : State) : WireCmd :=
  if s.flags.ready then
    match s.regs.cmd with
    | .wire w => w
    | .status => s.seq.seqQ.toWire
  else .serialnumber

/-- The transaction in progress takes the engine from `s` to `t`: exec of the command in progress answers `t`, and so does
the step of the machine with no input waiting, in discovery too. -/
def engineMoves (s t : State) : Prop :=
  (∀ i : Instr, s.flags.ready = true → i.cmd = s.regs.cmd → exec i s = .next t)
    ∧ (s.env.inReset = false → s.env.inputs = [] → step s = .next t)

/-- What a whole `send` of the frame of `body` leaves, with `receive_frame(d)` entered at the flush (R121, R122, R124,
R159). Every other part of the state is as before. -/
def sentAndListening (body : List Byte) (d : Nat) (s : State) : State :=
  { s with
    env := { s.env with
             txd := s.env.txd ++ encodeFrame body
             now := s.env.now + (encodeFrame body).length * s.cfg.lineFormat.charTime }
    tx := { de := false, buf := encodeFrame body, len := (encodeFrame body).length, pos := (encodeFrame body).length,
            start := s.env.now, duration := (encodeFrame body).length * s.cfg.lineFormat.charTime }
    chk := { s.chk with acc := BitVec.ofNat 16 (byteSum body) }
    rx := { s.rx with
            deadlineAt := s.env.now + (encodeFrame body).length * s.cfg.lineFormat.charTime + d
            frame := []
            frameLen := 0
            state := .hunt } }

/-- What the end of discovery leaves with `n` modules counted (R262, R263). -/
def discovered (n : Nat) (s : State) : State :=
  { s with
    seq := { s.seq with discI := n, orch := .idle }
    regs := { s.regs with moduleCount := n }
    flags := { s.flags with ready := true, busy := false } }

/-- What the start of discovery's probe of index `n` leaves (R240, R262). -/
def probing (n : Nat) (s : State) : State :=
  { s with
    seq := { s.seq with discI := n, orch := .sending, retryCnt := 0 }
    regs := { s.regs with curCmd := .serialnumber, curIdx := n, probeMode := true } }

/-- The sixteen characters of HEXDIGIT (R8). -/
def hexChars : List Byte :=
  [0x30, 0x31, 0x32, 0x33, 0x34, 0x35, 0x36, 0x37, 0x38, 0x39, 0x41, 0x42, 0x43, 0x44, 0x45, 0x46]

/-- `x` holds the numbers and alarm states that the named fields of the module's records hold (R256 to R260), over the
divisors 1000 and 10 of R9. -/
structure ReadingIs (m : ModuleSnapshot) (x : ModuleReading) : Prop where
  moduleCapacity : Record.get? .moduleCapacity m.analog = some (.dec ⟨x.moduleCapacity, 1000⟩)
  remainingCapacity : Record.get? .remainingCapacity m.analog = some (.dec ⟨x.remainingCapacity, 1000⟩)
  current : Record.get? .current m.analog = some (.dec ⟨x.current, 10⟩)
  moduleVoltage : Record.get? .moduleVoltage m.analog = some (.dec ⟨x.moduleVoltage, 1000⟩)
  cellVoltages : Record.get? .cellVoltages m.analog = some (.decs (x.cellVoltages.map (fun n => ⟨n, 1000⟩)))
  temperatures : Record.get? .temperatures m.analog = some (.decs (x.temperatures.map (fun n => ⟨n, 10⟩)))
  cellAlarms : Record.get? .cellAlarms m.alarm = some (.alarms x.cellAlarms)
  temperatureAlarms : Record.get? .temperatureAlarms m.alarm = some (.alarms x.temperatureAlarms)
  chargeCurrentAlarm : Record.get? .chargeCurrentAlarm m.alarm = some (.alarm x.chargeCurrentAlarm)
  dischargeCurrentAlarm : Record.get? .dischargeCurrentAlarm m.alarm = some (.alarm x.dischargeCurrentAlarm)
  moduleVoltageAlarm : Record.get? .moduleVoltageAlarm m.alarm = some (.alarm x.moduleVoltageAlarm)

/-- What a stop between two queries of a round leaves, the cursors at the query not made (R250, R253): NULL, STOP_SEEN,
DONE, SNAP dropped, LAST_SNAPSHOT kept. -/
def roundCancelled (m : Nat) (q : RoundQuery) (s : State) : State :=
  { s with
    seq := { s.seq with seqM := m, seqQ := q, orch := .done }
    flags := { s.flags with resultKind := .null, done := true, busy := false, stopSeen := true }
    out := { s.out with result := .absent, snapM := ModuleSnapshot.empty, snap := [] } }

/-- What a cancelled command leaves (R248, R252, R253): NULL, STOP_SEEN, DONE pulsed; a round drops SNAP and keeps
LAST_SNAPSHOT. RESULT is absent then by the model's choice (log 11). -/
def cancelledState (s : State) : State :=
  { s with
    seq := { s.seq with orch := .done }
    flags := { s.flags with resultKind := .null, done := true, busy := false, stopSeen := true }
    out :=
      match s.regs.cmd with
      | .wire _ => { s.out with result := .absent }
      | .status => { s.out with result := .absent, snapM := ModuleSnapshot.empty, snap := [] } }

/-- What entering `Retrying` writes (R296), with no bound on retries. -/
def retryEntered (e : EngineError) (s : State) : State :=
  { s with
    seq := { s.seq with orch := .retrying, retryPhase := .entry, retryCnt := s.seq.retryCnt + 1 }
    flags := { s.flags with lastErr := some e }
    out := { s.out with record := [] } }

/-- The parameters of an outbound frame at their defaults (R88, R171 to R173). -/
structure DefaultEncoding (c : Config) : Prop where
  ver : c.verTx = 0x20
  cid1 : c.cid1Tx = 0x46
  cid2 : c.cid2Tx = cid2Default
  info : c.hasInfo = hasInfoDefault
  addr : c.addrTable = []
  infoTx : c.infoTable = []
  lchk : c.lchkTable = []

/-- The StackSnapshot of a round over no module: sums 0, percentage 0, extremes absent, alarm booleans true (R256 to
R260). -/
def emptyStack : StackSnapshot :=
  { modules := []
    calculated :=
      { totalCapacityAh := ⟨0, 1000⟩
        remainingCapacityAh := ⟨0, 1000⟩
        remainingPercent := 0
        totalCapacityKWh := ⟨0, 1000000000⟩
        remainingCapacityKWh := ⟨0, 1000000000⟩
        currentA := ⟨0, 10⟩
        powerW := ⟨0, 10000⟩
        minCellVoltage := none
        maxCellVoltage := none
        minTemperature := none
        maxTemperature := none
        cellAlarmOk := true
        temperatureAlarmOk := true
        currentAlarmOk := true
        moduleVoltageAlarmOk := true } }

/-- The next input is no RESET. -/
def noResetNext (s : State) : Prop :=
  ∀ rest, s.env.inputs ≠ .resetAssert :: rest

/-- `d` is the least element of the numbers `xs` over `den`, absent when there is none (R258). -/
def isLeast (den : Nat) (xs : List Int) (d : Option Dec) : Prop :=
  (d = none ↔ xs = []) ∧ ∀ x, d = some x → x.den = den ∧ x.num ∈ xs ∧ ∀ y ∈ xs, x.num ≤ y

/-- `d` is the greatest element, absent when there is none (R258). -/
def isGreatest (den : Nat) (xs : List Int) (d : Option Dec) : Prop :=
  (d = none ↔ xs = []) ∧ ∀ x, d = some x → x.den = den ∧ x.num ∈ xs ∧ ∀ y ∈ xs, y ≤ x.num

/-- What a list of bytes becomes when one bit of one byte is flipped. -/
def flipBit (p : List Byte) (i bit : Nat) : List Byte :=
  p.modify i (fun b => b ^^^ BitVec.ofNat 8 (2 ^ bit))

end Sys2Proof.Machine

open Sys2Proof Sys2Proof.Machine

/-! ## Encoding -/

/-- The words of the opcode table, written out with an address of their own (address 0x12: index 1, group 1), decode to
their commands (opcode_table.json; the constant bits are default parameter values). -/
def Obligations.TableWordsDecode : Prop :=
  decodeHeaderWord 0x2001464F0000 = .ok (.protocol (some 0), 0)
    ∧ decodeHeaderWord 0x200146510000 = .ok (.manufactory (some 0), 0)
    ∧ decodeHeaderWord 0x20124642E002 = .ok (.analog (some 1), 1)
    ∧ decodeHeaderWord 0x20024644E002 = .ok (.alarm (some 1), 0)
    ∧ decodeHeaderWord 0x20014692E002 = .ok (.chargingDischarge (some 0), 0)
    ∧ decodeHeaderWord 0x20024693E002 = .ok (.serialnumber (some 1), 0)
    ∧ decodeHeaderWord 0x200F46470000 = .ok (.systemparameter (some 14), 0)
    ∧ decodeHeaderWord 0x20014643E002 = .error (.noRow 0x20014643E002)

/-- Decode of encode is the identity for every well-formed wire query, at every index and group the address byte can
carry. -/
def Obligations.QueryDecodeEncodeAgree : Prop :=
  ∀ (i : Instr) (g : Nat), i.wellFormed = true → g < 16 →
    ∃ bytes, encodeQuery i g = some bytes ∧ decodeQuery bytes = .ok (i, g)

/-- The other direction: whatever the wire decoder accepts is well-formed and is the encoding of what it reads, so no
two byte strings stand for one query and none of its bits is dropped. -/
def Obligations.QueryEncodeDecodeAgree : Prop :=
  ∀ (bytes : List Byte) (i : Instr) (g : Nat), decodeQuery bytes = .ok (i, g) →
    i.wellFormed = true ∧ g < 16 ∧ encodeQuery i g = some bytes

/-- The Command Encoder's body (R170), in every configuration: VER_TX, ADDR, CID1_TX, CID2_TX(cmd) as two hex characters
each, LCHK(n) and n as four, then the INFO_TX(cmd, i, g) characters where HAS_INFO(cmd); ADDR, INFO_TX and LCHK are the
first entry for their arguments, else their defaults (R88, R171, R173; that they are such tables is log 8). Under the
default parameters it is the upper-case hex of the opcode table's bytes. -/
def Obligations.QueryBodyIsTheHexOfItsBytes : Prop :=
  (∀ (c : Config) (w : WireCmd) (n : Nat) (cid2 : Byte) (hasInfo : Bool) (info : List Byte),
    (w, cid2, hasInfo) ∈
      [(WireCmd.protocol, c.cid2Tx.protocol, c.hasInfo.protocol),
       (WireCmd.manufactory, c.cid2Tx.manufactory, c.hasInfo.manufactory),
       (WireCmd.analog, c.cid2Tx.analog, c.hasInfo.analog), (WireCmd.alarm, c.cid2Tx.alarm, c.hasInfo.alarm),
       (WireCmd.chargingDischarge, c.cid2Tx.chargingDischarge, c.hasInfo.chargingDischarge),
       (WireCmd.serialnumber, c.cid2Tx.serialnumber, c.hasInfo.serialnumber),
       (WireCmd.systemparameter, c.cid2Tx.systemparameter, c.hasInfo.systemparameter)] →
    info = (if hasInfo then infoTx c w n c.group else []) → info.length ≤ 4095 →
    queryBody c w n =
      hex2 c.verTx.toNat ++ hex2 (addr c n c.group).toNat ++ hex2 c.cid1Tx.toNat ++ hex2 cid2.toNat
        ++ hex4 (lchk c info.length * 4096 + info.length) ++ info)
  ∧ (∀ (c : Config) (i g : Nat),
      ((∀ e ∈ c.addrTable, (e.1, e.2.1) ≠ (i, g)) →
        addr c i g = BitVec.ofNat 8 (g % 16 * 16 + (i + 1) % 16))
      ∧ (∀ (a : Byte) (pre post : List (Nat × Nat × Byte)), c.addrTable = pre ++ (i, g, a) :: post →
        (∀ e ∈ pre, (e.1, e.2.1) ≠ (i, g)) → addr c i g = a))
  ∧ (∀ (c : Config) (w : WireCmd) (i g : Nat),
      ((∀ e ∈ c.infoTable, (e.1, e.2.1, e.2.2.1) ≠ (w, i, g)) →
        (w ∈ [WireCmd.analog, .alarm, .chargingDischarge, .serialnumber] → infoTx c w i g = hex2 (addr c i g).toNat)
        ∧ (w ∈ [WireCmd.protocol, .manufactory, .systemparameter] → infoTx c w i g = []))
      ∧ (∀ (x : List Byte) (pre post : List (WireCmd × Nat × Nat × List Byte)),
        c.infoTable = pre ++ (w, i, g, x) :: post → (∀ e ∈ pre, (e.1, e.2.1, e.2.2.1) ≠ (w, i, g)) →
        infoTx c w i g = x))
  ∧ (∀ (c : Config) (n : Nat), n ≤ 4095 →
      ((∀ e ∈ c.lchkTable, e.1 ≠ n) →
        lchk c n < 16 ∧ (lchk c n + n % 16 + n / 16 % 16 + n / 256) % 16 = 0)
      ∧ (∀ (x : BitVec 4) (pre post : List (Nat × BitVec 4)), c.lchkTable = pre ++ (n, x) :: post →
        (∀ e ∈ pre, e.1 ≠ n) → lchk c n = x.toNat))
  ∧ (∀ (c : Config) (w : WireCmd) (n : Nat) (bytes : List Byte), DefaultEncoding c → c.group < 16 → n < 16 →
    encodeQuery (Instr.ofCmd (.wire w) (some (n : Int))) c.group = some bytes →
    queryBody c w n = bytes.flatMap (fun b => hex2 b.toNat))

/-- A name decodes exactly when it is byte for byte the name of the command read, and the index is passed on as it
is. -/
def Obligations.HostNamesMatchExactly : Prop :=
  ∀ (name : List Byte) (idx : Option Int) (i : Instr),
    decodeCommand name idx = .ok i ↔ i.cmd.name = name ∧ i.idx = idx

/-! ## The step -/

/-- When the next input is a command pulse that READY and Idle let in and its name decodes to `i`, the step is exec of
`i` at that state with the pulse taken from the inputs. -/
def Obligations.StepRunsThePulsedCommand : Prop :=
  ∀ (s : State) (name : List Byte) (idx : Option Int) (rest : List Input) (i : Instr),
    s.env.inputs = .command name idx :: rest → s.flags.ready = true → s.seq.orch = .idle →
    decodeCommand name idx = .ok i →
    step s = exec i (setInputs rest s)

/-- While a command is in progress and the engine moves, the step is exec of the latched command; from Done it ends the
DONE pulse and goes to Idle, as exec of the command does (R252); Idle without a pulse does nothing (R312). -/
def Obligations.StepContinuesTheLatchedCommand : Prop :=
  ∀ (s : State) (rest : List Input), s.env.inReset = false →
    (s.flags.ready = true → inTransaction s.seq.orch = true →
      (s.env.inputs = [] → step s = exec (Instr.ofCmd s.regs.cmd (some (s.regs.midx : Int))) s)
        ∧ (s.env.inputs = .engine :: rest →
            step s = exec (Instr.ofCmd s.regs.cmd (some (s.regs.midx : Int))) (setInputs rest s)))
    ∧ (s.seq.orch = .done →
        engineMoves s { s with seq := { s.seq with orch := .idle }, flags := { s.flags with done := false } }
          ∧ (s.env.inputs = .engine :: rest →
              step s = .next { s with
                env := { s.env with inputs := rest }
                seq := { s.seq with orch := .idle }
                flags := { s.flags with done := false } }))
    ∧ (s.seq.orch = .idle →
        (s.env.inputs = [] → step s = .next s)
          ∧ (s.env.inputs = .engine :: rest → step s = .next (setInputs rest s)))

/-- A pulse before READY or while the engine is not Idle is dropped: it changes nothing and is not queued (R241). -/
def Obligations.PulseIsIgnoredUnlessReadyAndIdle : Prop :=
  ∀ (s : State) (name : List Byte) (idx : Option Int) (rest : List Input),
    s.env.inputs = .command name idx :: rest → (s.flags.ready = false ∨ s.seq.orch ≠ .idle) →
    step s = .next (setInputs rest s)

/-- R100: a name that is none of the eight raises ProtocolMisuseError: RESULT_KIND = MISUSE with the name, DONE pulsed,
no retry, nothing sent, nothing latched. (That RESULT keeps the name is the model's choice, log 11.) -/
def Obligations.UnknownNameIsMisuse : Prop :=
  ∀ (s : State) (name : List Byte) (idx : Option Int) (rest : List Input),
    s.env.inputs = .command name idx :: rest → s.flags.ready = true → s.seq.orch = .idle →
    (∀ c ∈ Cmd.all, c.name ≠ name) →
    step s = .next { s with
      env := { s.env with inputs := rest }
      seq := { s.seq with orch := .done }
      flags := { s.flags with resultKind := .misuse, stopSeen := false, lastErr := none, done := true, busy := false }
      out := { s.out with result := .misused name } }

/-! ## Command accept -/

/-- R265. -/
def Obligations.ClampFollowsTheRule : Prop :=
  ∀ (idx : Option Int) (count : Nat),
    (idx = none → clamp idx count = 0)
      ∧ (count = 0 → clamp idx count = 0)
      ∧ (∀ n : Int, idx = some n → n < 0 → clamp idx count = 0)
      ∧ (∀ n : Int, idx = some n → 0 < count → (count : Int) ≤ n → clamp idx count = count - 1)
      ∧ (∀ n : Int, idx = some n → 0 ≤ n → n < (count : Int) → (clamp idx count : Int) = n)

/-- A single command at an Idle engine without a stop (R241, R252): the flags cleared, CMD and MIDX latched, its
transaction started in normal mode, nothing else changed; for each of the seven. -/
def Obligations.SingleCommandIsAccepted : Prop :=
  ∀ (w : WireCmd) (idx : Option Int) (s : State),
    s.flags.ready = true → s.seq.orch = .idle → s.env.stop = false →
    exec (Instr.ofCmd (.wire w) idx) s = .next { s with
      flags := { s.flags with resultKind := .nothing, stopSeen := false, lastErr := none, busy := true }
      regs := { cmd := .wire w, midx := clamp idx s.regs.moduleCount, curCmd := w,
                curIdx := clamp idx s.regs.moduleCount, probeMode := false, moduleCount := s.regs.moduleCount }
      seq := { s.seq with orch := .sending, retryCnt := 0 } }

/-- A stop at command accept ends each of the eight commands with NULL and nothing sent (R241). (That RESULT is absent then
is the model's, log 11.) -/
def Obligations.StopAtAcceptGivesNull : Prop :=
  ∀ (i : Instr) (s : State),
    s.flags.ready = true → s.seq.orch = .idle → s.env.stop = true →
    exec i s = .next { s with
      flags := { s.flags with resultKind := .null, stopSeen := true, lastErr := none, done := true, busy := false }
      regs := { s.regs with cmd := i.cmd, midx := clamp i.idx s.regs.moduleCount }
      seq := { s.seq with orch := .done }
      out := { s.out with result := .absent } }

/-- `status` over at least one module starts its round with the `analog` query of module 0 and an empty SNAP (R253). -/
def Obligations.StatusStartsItsRound : Prop :=
  ∀ (idx : Option Int) (s : State),
    s.flags.ready = true → s.seq.orch = .idle → s.env.stop = false → 0 < s.regs.moduleCount →
    exec (.status idx) s = .next { s with
      flags := { s.flags with resultKind := .nothing, stopSeen := false, lastErr := none, busy := true }
      regs := { cmd := .status, midx := clamp idx s.regs.moduleCount, curCmd := .analog, curIdx := 0,
                probeMode := false, moduleCount := s.regs.moduleCount }
      seq := { s.seq with orch := .sending, retryCnt := 0, seqM := 0, seqQ := .analog }
      out := { s.out with snapM := ModuleSnapshot.empty, snap := [] } }

/-- `status` over no module is an empty round that ends at once (R251, R253, R255 to R260): RECORD with the empty
StackSnapshot, which is LAST_SNAPSHOT too. -/
def Obligations.StatusOverNoModule : Prop :=
  ∀ (idx : Option Int) (s : State),
    s.flags.ready = true → s.seq.orch = .idle → s.env.stop = false → s.regs.moduleCount = 0 →
    exec (.status idx) s = .next { s with
      flags :=
        { s.flags with resultKind := .record, stopSeen := false, lastErr := none, done := true, busy := false }
      regs := { s.regs with cmd := .status, midx := 0 }
      seq := { s.seq with orch := .done }
      out := { s.out with
               result := .stack emptyStack
               snapM := ModuleSnapshot.empty
               snap := []
               lastSnapshot := some emptyStack } }

/-! ## The Transport -/

/-- From the start of Sending, in discovery and in every command, the engine puts exactly the frame of the query on TXD in
index order, with DE = 1 from the first of its steps until the last, records the duration, leaves TXBUF, TX_LEN and
TX_POS, touches neither RXFIFO nor anything else, and goes on to Awaiting (R121, R122, R242) with `receive_frame` entered
at the flush: DEADLINE_FAST from there for `serialnumber`, DEADLINE_DEFAULT for the six others (R124, R244). (The model's
choices: that NOW advances by one character time a character, log 3; that this takes as many steps as the frame has
characters, one to load and one to flush, log 15; that CHK_ACC holds the query's sum from the load on, log 19.) -/
def Obligations.SendPutsTheFrameOnTheLine : Prop :=
  ∀ (s : State) (body f : List Byte) (d : Nat),
    s.env.inReset = false → s.env.inputs = [] → s.seq.orch = .sending → s.tx.de = false →
    body = queryBody s.cfg (queryInProgress s) s.regs.curIdx → f = encodeFrame body →
    d = (if queryInProgress s = .serialnumber then s.cfg.deadlineFast else s.cfg.deadlineDefault) →
    runSteps (f.length + 2) s = .next { sentAndListening body d s with seq := { s.seq with orch := .awaiting } }
    ∧ ∀ k, k ≤ f.length → ∃ t, runSteps (k + 1) s = .next t ∧ t.tx.de = true ∧ t.env.txd = s.env.txd ++ f.take k

/-- A character is appended while DE = 0 and dropped while DE = 1 (R61), the queue is empty at reset. The model's choices:
a character is dropped while RESET is asserted (log 13), and at a full RXFIFO, where R61 leaves OPEN which bytes are kept,
they are some of the old ones and the new one, in order, none changed, no more than the depth (log 5). -/
def Obligations.ReceiveFifoFollowsTheDriver : Prop :=
  State.reset.rx.fifo = []
    ∧ ∀ (s : State) (b : Byte) (rest : List Input), s.env.inputs = .byte b :: rest →
      (s.tx.de = true ∨ s.env.inReset = true → step s = .next (setInputs rest s))
        ∧ (s.tx.de = false → s.env.inReset = false →
            (∀ d, s.cfg.rxfifoDepth = some d → s.rx.fifo.length < d) →
            step s = .next { s with env := { s.env with inputs := rest }
                                    rx := { s.rx with fifo := s.rx.fifo ++ [b] } })
        ∧ (∀ d, s.tx.de = false → s.env.inReset = false → s.cfg.rxfifoDepth = some d → d ≤ s.rx.fifo.length →
            ∃ t, step s = .next t ∧ t.rx.fifo.Sublist (s.rx.fifo ++ [b]) ∧ t.rx.fifo.length ≤ d
              ∧ t.rx = { s.rx with fifo := t.rx.fifo } ∧ t.tx = s.tx ∧ t.seq = s.seq ∧ t.regs = s.regs
              ∧ t.flags = s.flags ∧ t.out = s.out ∧ t.cfg = s.cfg ∧ t.chk = s.chk ∧ t.hdr = s.hdr)

/-- R125, in discovery and in every command: the deadline is tested before a byte is taken, and with it passed the
transaction fails, into Retrying or, in probe mode, to the end of discovery; a byte that is not START_MARKER is removed and
gone; START_MARKER starts the frame; an empty queue waits POLL_INTERVAL. (That NOW advances then is the model's, log 3.) -/
def Obligations.HuntTestsTheDeadlineFirst : Prop :=
  ∀ s : State, s.seq.orch = .awaiting → s.rx.state = .hunt →
    (s.rx.deadlineAt ≤ s.env.now → s.regs.probeMode = false → s.cfg.retryMax = none →
      engineMoves s (retryEntered .transportTimeout { s with rx := { s.rx with state := .off } }))
    ∧ (s.rx.deadlineAt ≤ s.env.now → s.regs.probeMode = true →
      engineMoves s { s with
        rx := { s.rx with state := .off }
        regs := { s.regs with moduleCount := s.seq.discI }
        flags := { s.flags with ready := true, busy := false, lastErr := some .transportTimeout }
        seq := { s.seq with orch := .idle } })
    ∧ (s.env.now < s.rx.deadlineAt → ∀ b rest, s.rx.fifo = b :: rest → b ≠ 0x7E →
        engineMoves s { s with rx := { s.rx with fifo := rest } })
    ∧ (s.env.now < s.rx.deadlineAt → ∀ rest, s.rx.fifo = 0x7E :: rest →
        engineMoves s { s with rx := { s.rx with
          fifo := rest, frame := [0x7E], frameLen := 1, lastByteAt := s.env.now, state := .collect } })
    ∧ (s.env.now < s.rx.deadlineAt → s.rx.fifo = [] →
        engineMoves s { s with env := { s.env with now := s.env.now + s.cfg.pollInterval } })

/-- R126, in discovery and in every command: a waiting byte is appended whatever the deadline; END_MARKER, a full FRAMEBUF
and idle end the collection and hand the candidate to Decoding; a second START_MARKER is data. (That NOW advances in an
empty poll is the model's, log 3.) -/
def Obligations.CollectEndsAtMarkerFullBufferOrIdle : Prop :=
  ∀ s : State, s.seq.orch = .awaiting → s.rx.state = .collect → s.rx.frameLen = s.rx.frame.length →
    (∀ b rest, s.rx.fifo = b :: rest →
      (b = 0x0D ∨ s.cfg.framebufDepth = some (s.rx.frameLen + 1) →
        engineMoves s { s with
          seq := { s.seq with orch := .decoding }
          rx := { s.rx with fifo := rest, frame := s.rx.frame ++ [b], frameLen := s.rx.frameLen + 1,
                            lastByteAt := s.env.now, state := .off } })
      ∧ (b ≠ 0x0D → s.cfg.framebufDepth ≠ some (s.rx.frameLen + 1) →
        engineMoves s { s with
          rx := { s.rx with fifo := rest, frame := s.rx.frame ++ [b], frameLen := s.rx.frameLen + 1,
                            lastByteAt := s.env.now } }))
    ∧ (s.rx.fifo = [] → s.cfg.idleTimeout ≤ s.env.now - s.rx.lastByteAt →
        engineMoves s { s with seq := { s.seq with orch := .decoding }, rx := { s.rx with state := .off } })
    ∧ (s.rx.fifo = [] → s.env.now - s.rx.lastByteAt < s.cfg.idleTimeout →
        engineMoves s { s with env := { s.env with now := s.env.now + s.cfg.pollInterval } })

/-- With the deadline not passed, the receive of discovery or of a command takes noise up to the first START_MARKER and then
everything up to the first END_MARKER, leaves what is behind it in RXFIFO, and hands that frame to Decoding (R123 to R129).
(The model's choices: that NOW stands still while waiting bytes are taken, so that noise of any length passes before the
deadline, log 3; and one step for each byte, log 15.) -/
def Obligations.ReceiveTakesTheFirstDelimitedFrame : Prop :=
  ∀ (s : State) (noise data tail : List Byte),
    s.env.inReset = false → s.env.inputs = [] → s.seq.orch = .awaiting → s.rx.state = .hunt →
    s.env.now < s.rx.deadlineAt →
    s.rx.fifo = noise ++ 0x7E :: (data ++ 0x0D :: tail) → 0x7E ∉ noise → 0x0D ∉ data →
    (∀ depth, s.cfg.framebufDepth = some depth → data.length + 2 ≤ depth) →
    runSteps (noise.length + data.length + 2) s = .next { s with
      seq := { s.seq with orch := .decoding }
      rx := { fifo := tail, state := .off, frame := 0x7E :: (data ++ [0x0D]), frameLen := data.length + 2,
              deadlineAt := s.rx.deadlineAt, lastByteAt := s.env.now } }

/-! ## The Packet Codec -/

/-- R150: CHK16 is the 16-bit two's-complement negation of the byte sum; where the sum is no multiple of 65536 it is the
source's formula, elsewhere 0; and the generator's accumulator (R159) holds the sum. -/
def Obligations.ChecksumIsTheNegatedSum : Prop :=
  ∀ s : List Byte,
    chk16 s + BitVec.ofNat 16 (byteSum s) = 0
      ∧ (byteSum s % 65536 ≠ 0 → (chk16 s).toNat = (65535 - byteSum s % 65536) + 1)
      ∧ (byteSum s % 65536 = 0 → chk16 s = 0)
      ∧ chkAcc s = BitVec.ofNat 16 (byteSum s)

/-- Decode of encode gives the body back for every body of ten or more bytes, whatever bytes it holds; a shorter one is
a FramingError (R158). -/
def Obligations.CodecRoundTrip : Prop :=
  ∀ (p : List Byte) (k : Chk),
    (10 ≤ p.length → (decodeFrame (encodeFrame p) k).2 = .ok p)
      ∧ (p.length < 10 → decodeFrame (encodeFrame p) k = (k, .error (.framing .tooShort)))

/-- Flipping any single bit of the body of a valid frame makes decode fail with a ChecksumError that carries both
checksums (R158). -/
def Obligations.SingleBitFlipIsDetected : Prop :=
  ∀ (p : List Byte) (k : Chk) (i bit : Nat), 10 ≤ p.length → i < p.length → bit < 8 →
    (decodeFrame (0x7E :: (flipBit p i bit ++ (hex4 (chk16 p).toNat ++ [0x0D]))) k).2
      = .error (.checksum (chk16 (flipBit p i bit)) (some (chk16 p)))

/-- R154: the three framing checks on the trimmed frame, in their order, each leaving the codec registers alone. The trim
drops what stands before the first START_MARKER and leaves a frame without one as it is (R153, the spec's decision D4). -/
def Obligations.FramingChecksInOrder : Prop :=
  (∀ noise rest : List Byte, 0x7E ∉ noise → trim (noise ++ 0x7E :: rest) = 0x7E :: rest)
  ∧ (∀ f : List Byte, 0x7E ∉ f → trim f = f)
  ∧ ∀ (f : List Byte) (k : Chk),
    ((trim f).length < 16 → decodeFrame f k = (k, .error (.framing .tooShort)))
      ∧ (16 ≤ (trim f).length → (trim f).head? ≠ some 0x7E → decodeFrame f k = (k, .error (.framing .noStart)))
      ∧ (16 ≤ (trim f).length → (trim f).head? = some 0x7E → (trim f).getLast? ≠ some 0x0D →
          decodeFrame f k = (k, .error (.framing .noEnd)))
      ∧ (16 ≤ (trim f).length → (trim f).head? = some 0x7E → (trim f).getLast? = some 0x0D →
          ∀ r, (decodeFrame f k).2 ≠ .error (.framing r))

/-- R155: with `t` a trimmed frame that passes the framing checks, the computed checksum covers `t[1 : L - 5]`, the
declared one is the four characters before the last byte; both are recorded, with the sum in CHK_ACC (R159), and a
mismatch or a character that is not hex is a ChecksumError that carries them. -/
def Obligations.ChecksumCheckRecordsBoth : Prop :=
  ∀ (f t body : List Byte) (k : Chk), t = trim f → 16 ≤ t.length → t.head? = some 0x7E → t.getLast? = some 0x0D →
    body = (t.drop 1).take (t.length - 6) →
    (unhex ((t.drop (t.length - 5)).take 4) = none →
      decodeFrame f k =
        ({ acc := BitVec.ofNat 16 (byteSum body), computed := chk16 body, declared := k.declared,
           declaredValid := false },
         .error (.checksum (chk16 body) none)))
    ∧ (∀ d : Nat, unhex ((t.drop (t.length - 5)).take 4) = some d →
      decodeFrame f k =
        ({ acc := BitVec.ofNat 16 (byteSum body), computed := chk16 body, declared := BitVec.ofNat 16 d,
           declaredValid := true },
         if d = (chk16 body).toNat then .ok body
         else .error (.checksum (chk16 body) (some (BitVec.ofNat 16 d)))))

/-! ## The Response Decoder -/

/-- R191: short header before anything is written; a character that is not hex before any register is written; then the
five registers and LENID; then the length as an equality; then the payload and CURSOR = 0. -/
def Obligations.HeaderChecksInOrder : Prop :=
  ∀ (body : List Byte) (h : Hdr),
    (body.length < 12 → decodeHeader body h = (h, .error .shortHeader))
      ∧ (12 ≤ body.length →
          (unhex ((body.drop 0).take 2) = none ∨ unhex ((body.drop 2).take 2) = none
            ∨ unhex ((body.drop 4).take 2) = none ∨ unhex ((body.drop 6).take 2) = none
            ∨ unhex ((body.drop 8).take 4) = none) →
          decodeHeader body h = (h, .error .notHex))
      ∧ (∀ v a c r l : Nat, 12 ≤ body.length →
          tokenIs body 0 2 v → tokenIs body 2 2 a → tokenIs body 4 2 c → tokenIs body 6 2 r → tokenIs body 8 4 l →
          (body.length - 12 ≠ l % 4096 →
            decodeHeader body h =
              ({ ver := BitVec.ofNat 8 v, adr := BitVec.ofNat 8 a, cid := BitVec.ofNat 8 c, rtn := BitVec.ofNat 8 r,
                 length := BitVec.ofNat 16 l, lenid := BitVec.ofNat 12 l, cursor := h.cursor },
               .error .lengthMismatch))
          ∧ (body.length - 12 = l % 4096 →
            decodeHeader body h =
              ({ ver := BitVec.ofNat 8 v, adr := BitVec.ofNat 8 a, cid := BitVec.ofNat 8 c, rtn := BitVec.ofNat 8 r,
                 length := BitVec.ofNat 16 l, lenid := BitVec.ofNat 12 l, cursor := 0 },
               .ok (body.drop 12))))

/-- A token that would pass the end is not read, a token with a character that is not hex is not read as a number, any
other has its value and moves the cursor by its width (R65, R193). The value is the sum of the digits times powers of 16,
the first digit the most significant; both letter cases read alike and every other byte is INVALID; written, a digit is
one of "0123456789ABCDEF" (R8). -/
def Obligations.TokenReadsAreBounded : Prop :=
  (∀ (p : List Byte) (k cur : Nat),
    (p.length < cur + k → takeHex p k cur = .error (.overrun, cur))
      ∧ (cur + k ≤ p.length → (∃ b ∈ (p.drop cur).take k, digitVal b = none) →
          takeHex p k cur = .error (.notHex, cur))
      ∧ (cur + k ≤ p.length → ∀ ds : List Nat, ((p.drop cur).take k).map digitVal = ds.map some →
          takeHex p k cur = .ok (((List.range k).map (fun j => ds.getD j 0 * 16 ^ (k - 1 - j))).sum, cur + k)))
  ∧ (∀ s : List Byte, (∃ b ∈ s, digitVal b = none) → unhex s = none)
  ∧ (∀ (s : List Byte) (ds : List Nat), s.map digitVal = ds.map some →
      unhex s = some ((List.range s.length).map (fun j => ds.getD j 0 * 16 ^ (s.length - 1 - j))).sum)
  ∧ (∀ n, n < 10 → digitVal (BitVec.ofNat 8 (0x30 + n)) = some n)
  ∧ (∀ n, n < 6 → digitVal (BitVec.ofNat 8 (0x41 + n)) = some (10 + n)
      ∧ digitVal (BitVec.ofNat 8 (0x61 + n)) = some (10 + n))
  ∧ (∀ b : Byte, digitVal b = none ↔
      ¬ (0x30 ≤ b.toNat ∧ b.toNat ≤ 0x39) ∧ ¬ (0x41 ≤ b.toNat ∧ b.toNat ≤ 0x46)
        ∧ ¬ (0x61 ≤ b.toNat ∧ b.toNat ≤ 0x66))
  ∧ (∀ v, v < 256 → hex2 v = [hexChars.getD (v / 16) 0, hexChars.getD (v % 16) 0])
  ∧ (∀ v, v < 65536 → hex4 v = hex2 (v / 256) ++ hex2 (v % 256))

/-- R195: a fixed-length command whose payload has another length is a PayloadFormatError that names the command and the
length seen, is retried, and leaves RECORD empty and the result untouched. -/
def Obligations.FixedLengthIsExact : Prop :=
  ∀ (w : WireCmd) (len : Nat) (i : Instr) (s : State) (k : Chk) (h : Hdr) (p : List Byte),
    (w, len) ∈ [(WireCmd.systemparameter, 50), (WireCmd.chargingDischarge, 20), (WireCmd.serialnumber, 34)] →
    Answered (.wire w) s k h p → i.cmd = .wire w → s.regs.probeMode = false → s.cfg.retryMax = none →
    p.length ≠ len →
    ∃ hdr, exec i s = .next (retryEntered (.payloadFormat w p.length .wrongLength) { s with chk := k, hdr := hdr })

/-- R201: the answer to `protocol` is the header's VER byte, whatever the payload. -/
def Obligations.ProtocolAnswer : Prop :=
  ∀ (idx : Option Int) (s : State) (k : Chk) (h : Hdr) (p : List Byte),
    Answered (.wire .protocol) s k h p →
    exec (.protocol idx) s = .next (singleDone s k h p 0 [(.protocolVersion, .int h.ver.toNat)])

/-- R202, in the default layout: two trimmed texts and two version bytes; an odd last character is not examined. -/
def Obligations.ManufactoryAnswer : Prop :=
  ∀ (idx : Option Int) (s : State) (k : Chk) (h : Hdr) (p name maker : List Byte) (major minor : Nat),
    Answered (.wire .manufactory) s k h p → s.cfg.layouts.manufactory = layoutManufactory →
    name.length = 10 → maker.length = (p.length - 24) / 2 →
    textIs p 0 name → tokenIs p 20 2 major → tokenIs p 22 2 minor → textIs p 24 maker →
    exec (.manufactory idx) s = .next (singleDone s k h p (24 + 2 * maker.length)
      [(.batteryName, .text (trimNulls name)), (.softwareVersion, .ints [major, minor]),
       (.manufacturerName, .text (trimNulls maker))])

/-- R203 and R207, in the default layout and with the default SIGNED: counts, cell voltages over 1000, temperatures from
deci-Kelvin, the signed current over 10, and the capacities from the narrow tokens unless the flag is 4, then from the
wide ones; trailing characters are ignored (R197). -/
def Obligations.AnalogAnswer : Prop :=
  ∀ (idx : Option Int) (s : State) (k : Chk) (h : Hdr) (p : List Byte) (info cv : Nat) (cells temps : List Nat)
    (cur volt rem4 flag cap4 cyc c0 : Nat),
    Answered (.wire .analog) s k h p → s.cfg.layouts.analog = layoutAnalog → s.cfg.signedFields = signedDefault →
    tokenIs p 0 2 info → tokenIs p 2 2 cv → tokenIs p 4 2 cells.length → tokensAre p 6 4 cells →
    tokenIs p (6 + 4 * cells.length) 2 temps.length → tokensAre p (8 + 4 * cells.length) 4 temps →
    c0 = 16 + 4 * cells.length + 4 * temps.length →
    tokenIs p (c0 - 8) 4 cur → tokenIs p (c0 - 4) 4 volt →
    tokenIs p c0 4 rem4 → tokenIs p (c0 + 4) 2 flag → tokenIs p (c0 + 6) 4 cap4 → tokenIs p (c0 + 10) 4 cyc →
    (flag ≠ 4 →
      exec (.analog idx) s = .next (singleDone s k h p (c0 + 14)
        [(.infoFlag, .int info), (.commandValue, .int cv), (.cellCount, .int cells.length),
         (.cellVoltages, .decs (cells.map (fun v : Nat => ⟨(v : Int), 1000⟩))), (.temperatureCount, .int temps.length),
         (.temperatures, .decs (temps.map (fun v : Nat => ⟨(v : Int) - 2731, 10⟩))),
         (.current, .dec ⟨if 32768 ≤ cur then (cur : Int) - 65536 else cur, 10⟩), (.moduleVoltage, .dec ⟨volt, 1000⟩),
         (.detectedCapacity, .int flag), (.cycleCount, .int cyc), (.remainingCapacity, .dec ⟨rem4, 1000⟩),
         (.moduleCapacity, .dec ⟨cap4, 1000⟩)]))
    ∧ (flag = 4 → ∀ rem6 cap6 : Nat, tokenIs p (c0 + 14) 6 rem6 → tokenIs p (c0 + 20) 6 cap6 →
      exec (.analog idx) s = .next (singleDone s k h p (c0 + 26)
        [(.infoFlag, .int info), (.commandValue, .int cv), (.cellCount, .int cells.length),
         (.cellVoltages, .decs (cells.map (fun v : Nat => ⟨(v : Int), 1000⟩))), (.temperatureCount, .int temps.length),
         (.temperatures, .decs (temps.map (fun v : Nat => ⟨(v : Int) - 2731, 10⟩))),
         (.current, .dec ⟨if 32768 ≤ cur then (cur : Int) - 65536 else cur, 10⟩), (.moduleVoltage, .dec ⟨volt, 1000⟩),
         (.detectedCapacity, .int 4), (.cycleCount, .int cyc), (.remainingCapacity, .dec ⟨rem6, 1000⟩),
         (.moduleCapacity, .dec ⟨cap6, 1000⟩)]))

/-- R209 and R93, in the default layout: two count-driven lists of alarm states, three scalar alarms, the remaining
whole bytes kept raw. -/
def Obligations.AlarmAnswer : Prop :=
  ∀ (idx : Option Int) (s : State) (k : Chk) (h : Hdr) (p rest : List Byte) (info cv : Nat) (cells temps : List Nat)
    (ch v dis o : Nat),
    Answered (.wire .alarm) s k h p → s.cfg.layouts.alarm = layoutAlarm →
    tokenIs p 0 2 info → tokenIs p 2 2 cv → tokenIs p 4 2 cells.length → tokensAre p 6 2 cells →
    tokenIs p (6 + 2 * cells.length) 2 temps.length → tokensAre p (8 + 2 * cells.length) 2 temps →
    o = 8 + 2 * cells.length + 2 * temps.length →
    tokenIs p o 2 ch → tokenIs p (o + 2) 2 v → tokenIs p (o + 4) 2 dis →
    rest.length = (p.length - (o + 6)) / 2 → textIs p (o + 6) rest →
    exec (.alarm idx) s = .next (singleDone s k h p (o + 6 + 2 * rest.length)
      [(.infoFlag, .int info), (.commandValue, .int cv), (.cellCount, .int cells.length),
       (.temperatureCount, .int temps.length), (.cellAlarms, .alarms (cells.map alarmOf)),
       (.temperatureAlarms, .alarms (temps.map alarmOf)), (.chargeCurrentAlarm, .alarm (alarmOf ch)),
       (.moduleVoltageAlarm, .alarm (alarmOf v)), (.dischargeCurrentAlarm, .alarm (alarmOf dis)),
       (.statusBytes, .ints (rest.map (fun b => (b.toNat : Int))))])

/-- R93: the four alarm states. -/
def Obligations.AlarmTokensHaveFourStates : Prop :=
  ∀ n : Nat, (alarmOf n = .ok ↔ n = 0) ∧ (alarmOf n = .belowLimit ↔ n = 1) ∧ (alarmOf n = .aboveLimit ↔ n = 2)
    ∧ (alarmOf n = .otherError ↔ 3 ≤ n)

/-- R208 and R94, in the default layout and with the default SIGNED: two voltage limits, two signed current limits, and
the five flags of the status byte by their masks. -/
def Obligations.ChargingDischargeAnswer : Prop :=
  ∀ (idx : Option Int) (s : State) (k : Chk) (h : Hdr) (p : List Byte) (cv cvl dvl ccl dcl b : Nat),
    Answered (.wire .chargingDischarge) s k h p → s.cfg.layouts.chargingDischarge = layoutChargingDischarge →
    s.cfg.signedFields = signedDefault → p.length = 20 →
    tokenIs p 0 2 cv → tokenIs p 2 4 cvl → tokenIs p 6 4 dvl → tokenIs p 10 4 ccl → tokenIs p 14 4 dcl →
    tokenIs p 18 2 b →
    exec (.chargingDischarge idx) s = .next (singleDone s k h p 20
      [(.commandValue, .int cv), (.chargeVoltageLimit, .dec ⟨cvl, 1000⟩), (.dischargeVoltageLimit, .dec ⟨dvl, 1000⟩),
       (.chargeCurrentLimit, .dec ⟨if 32768 ≤ ccl then (ccl : Int) - 65536 else ccl, 10⟩),
       (.dischargeCurrentLimit, .dec ⟨if 32768 ≤ dcl then (dcl : Int) - 65536 else dcl, 10⟩),
       (.statusByte, .int b), (.chargeEnable, .bool (b.testBit 7)), (.dischargeEnable, .bool (b.testBit 6)),
       (.chargeImmediately1, .bool (b.testBit 5)), (.chargeImmediately2, .bool (b.testBit 4)),
       (.fullChargeRequired, .bool (b.testBit 3))])

/-- R210, in the default layout and with the default SIGNED: the twelve limits with their scales. -/
def Obligations.SystemparameterAnswer : Prop :=
  ∀ (idx : Option Int) (s : State) (k : Chk) (h : Hdr) (p : List Byte) (info : Nat) (x : List Nat),
    Answered (.wire .systemparameter) s k h p → s.cfg.layouts.systemparameter = layoutSystemparameter →
    s.cfg.signedFields = signedDefault → p.length = 50 → x.length = 12 →
    tokenIs p 0 2 info → tokensAre p 2 4 x →
    exec (.systemparameter idx) s = .next (singleDone s k h p 50
      [(.infoFlag, .int info),
       (.chargeCurrentLimit, .dec ⟨if 32768 ≤ x.getD 5 0 then (x.getD 5 0 : Int) - 65536 else x.getD 5 0, 10⟩),
       (.dischargeCurrentLimit, .dec ⟨if 32768 ≤ x.getD 11 0 then (x.getD 11 0 : Int) - 65536 else x.getD 11 0, 10⟩),
       (.cellHighVoltageLimit, .dec ⟨x.getD 0 0, 1000⟩), (.cellLowVoltageLimit, .dec ⟨x.getD 1 0, 1000⟩),
       (.cellUnderVoltageLimit, .dec ⟨x.getD 2 0, 1000⟩),
       (.chargeHighTemperatureLimit, .dec ⟨(x.getD 3 0 : Int) - 2731, 10⟩),
       (.chargeLowTemperatureLimit, .dec ⟨(x.getD 4 0 : Int) - 2731, 10⟩),
       (.moduleHighVoltageLimit, .dec ⟨x.getD 6 0, 1000⟩), (.moduleLowVoltageLimit, .dec ⟨x.getD 7 0, 1000⟩),
       (.moduleUnderVoltageLimit, .dec ⟨x.getD 8 0, 1000⟩),
       (.dischargeHighTemperatureLimit, .dec ⟨(x.getD 9 0 : Int) - 2731, 10⟩),
       (.dischargeLowTemperatureLimit, .dec ⟨(x.getD 10 0 : Int) - 2731, 10⟩)])

/-- R211 and R96, in the default layout: the command value and the serial number with its trailing nulls removed. -/
def Obligations.SerialnumberAnswer : Prop :=
  ∀ (idx : Option Int) (s : State) (k : Chk) (h : Hdr) (p text : List Byte) (cv : Nat),
    Answered (.wire .serialnumber) s k h p → s.cfg.layouts.serialnumber = layoutSerialnumber →
    p.length = 34 → text.length = 16 → tokenIs p 0 2 cv → textIs p 2 text →
    exec (.serialnumber idx) s = .next (singleDone s k h p 34
      [(.commandValue, .int cv), (.serialNumber, .text (trimNulls text))])

/-- R96: exactly the trailing null bytes of a text are removed. -/
def Obligations.TextIsTrimmedOfTrailingNulls : Prop :=
  ∀ bs : List Byte, ∃ n, bs = trimNulls bs ++ List.replicate n 0 ∧ (trimNulls bs).getLast? ≠ some 0

/-- The header of an answer, but for its length, decides nothing (R99, R331), for a single command, a query of a round and
a probe of discovery alike: two frames with the same payload and any VER, ADR, CID, RTN and upper LENGTH bits have the same
outcome, in every layout, a failure being the same failure, but for the header fields in RECORD; for every query but
`protocol`, which reads VER itself. -/
def Obligations.AnswerIsNotTiedToItsRequest : Prop :=
  ∀ (s s' t : State) (k k' : Chk) (h h' : Hdr) (body body' f' p : List Byte),
    s.seq.orch = .decoding → queryInProgress s ≠ .protocol →
    s' = { s with rx := { s.rx with frame := f', frameLen := f'.length } } →
    decodeFrame s.frame s.chk = (k, .ok body) → decodeHeader body s.hdr = (h, .ok p) →
    decodeFrame s'.frame s.chk = (k', .ok body') → decodeHeader body' s.hdr = (h', .ok p) →
    (∀ i : Instr, s.flags.ready = true → i.cmd = s.regs.cmd → exec i s = .next t →
      ∃ t', exec i s' = .next t' ∧ sameAnswer t t')
    ∧ (s.env.inReset = false → s.env.inputs = [] → step s = .next t → ∃ t', step s' = .next t' ∧ sameAnswer t t')

/-! ## Errors, retry and cancellation -/

/-- R296: a recoverable error of a normal-mode transaction enters Retrying, for each of the eight commands: LAST_ERR and
RETRY_CNT are written, RECORD is cleared, every other register of the command is kept; what a decode error besides leaves is
in the codec and decoder registers. The error is that of the first failing check (R245, R294): the codec's, the header's or
the payload's (R193, R195). (With the reference's unbounded retry.) -/
def Obligations.RecoverableErrorEntersRetrying : Prop :=
  ∀ (i : Instr) (s u : State) (e : EngineError),
    s.flags.ready = true → i.cmd = s.regs.cmd → s.regs.probeMode = false → s.cfg.retryMax = none →
    (s.seq.orch = .decoding → decodeIntoRecord (queryInProgress s) s = (u, .error e) →
      exec i s = .next (retryEntered e u) ∧ e.recoverable = true ∧ e ≠ .transportTimeout
        ∧ u = { s with chk := u.chk, hdr := u.hdr, out := { s.out with record := u.out.record } })
    ∧ (∀ k h, s.seq.orch = .decoding → DecodeFails (queryInProgress s) s k h e →
      exec i s = .next (retryEntered e { s with chk := k, hdr := h }))
    ∧ (s.seq.orch = .awaiting → receiveStep (deadlineOf s.cfg (queryInProgress s)) s = (.noFrame, u) →
      exec i s = .next (retryEntered .transportTimeout u) ∧ u = { s with rx := { s.rx with state := .off } })

/-- In probe mode a failed transaction returns EMPTY without visiting Retrying; discovery ends with the count so far,
LAST_ERR keeps the kind, that of the first failing check (R294), READY rises (R246, R262, R263). (What RECORD holds then is
the model's, log 10.) -/
def Obligations.FailedProbeEndsDiscovery : Prop :=
  ∀ (s u : State) (e : EngineError),
    s.env.inReset = false → s.env.inputs = [] → s.flags.ready = false → s.regs.probeMode = true →
    ((s.seq.orch = .decoding ∧ decodeIntoRecord .serialnumber s = (u, .error e))
        ∨ (s.seq.orch = .awaiting ∧ receiveStep s.cfg.deadlineFast s = (.noFrame, u) ∧ e = .transportTimeout) →
      step s = .next { u with
        regs := { s.regs with moduleCount := s.seq.discI }
        flags := { s.flags with ready := true, busy := false, lastErr := some e }
        seq := { s.seq with orch := .idle } })
    ∧ (∀ k h, s.seq.orch = .decoding → DecodeFails .serialnumber s k h e →
      ∃ r, step s = .next { s with
        chk := k
        hdr := h
        out := { s.out with record := r }
        regs := { s.regs with moduleCount := s.seq.discI }
        flags := { s.flags with ready := true, busy := false, lastErr := some e }
        seq := { s.seq with orch := .idle } })

/-- Discovery's loop (R262, R263): it starts with the probe of index 0 in probe mode; a serial number that decodes is
counted and the next index probed; it ends, READY, with the count so far, at the limit and at a stop, which is sampled
before every probe (R250). (That the next probe starts, or discovery ends in Idle, in the step that counts the answer is
the model's, log 9.) -/
def Obligations.DiscoveryCountsAnswers : Prop :=
  (∀ s : State, s.env.inReset = false → s.env.inputs = [] → s.seq.orch = .discovering →
    (s.cfg.discoveryLimit = 0 → step s = .next (discovered 0 s))
    ∧ (0 < s.cfg.discoveryLimit → s.env.stop = false → step s = .next (probing 0 s))
    ∧ (0 < s.cfg.discoveryLimit → s.env.stop = true →
        step s = .next (discovered 0 { s with flags := { s.flags with stopSeen := true } })))
  ∧ (∀ (s u : State) (r : Record),
    s.env.inReset = false → s.env.inputs = [] → s.flags.ready = false → s.seq.orch = .decoding →
    decodeIntoRecord .serialnumber s = (u, .ok r) →
    (s.seq.discI + 1 < s.cfg.discoveryLimit → s.env.stop = false → step s = .next (probing (s.seq.discI + 1) u))
    ∧ (s.seq.discI + 1 < s.cfg.discoveryLimit → s.env.stop = true →
        step s = .next (discovered (s.seq.discI + 1) { u with flags := { s.flags with stopSeen := true } }))
    ∧ (s.cfg.discoveryLimit ≤ s.seq.discI + 1 → step s = .next (discovered (s.seq.discI + 1) u))
    ∧ u = { s with chk := u.chk, hdr := u.hdr, out := { s.out with record := r } })

/-- R299: the return from Retrying writes ORCH_STATE and nothing else. -/
def Obligations.RetryReturnRestoresNothing : Prop :=
  ∀ (i : Instr) (s : State),
    s.flags.ready = true → i.cmd = s.regs.cmd → s.seq.orch = .retrying → s.seq.retryPhase = .leave →
    s.env.stop = false →
    exec i s = .next { s with seq := { s.seq with orch := .sending } }

/-- The recovery probe (R248): PROBE_CNT counts the attempts up to PROBE_MAX, each sends the `protocol` query of module 0 in
full and listens for DEADLINE_FAST from its flush (R121, R124); a failed attempt goes back to the test of the loop, and
after the last the engine leaves for the original command. (The model's choices in the send are those of O15: log 3, log
15, log 19.) -/
def Obligations.RecoveryProbeIsBounded : Prop :=
  (∀ (i : Instr) (s : State), s.flags.ready = true → i.cmd = s.regs.cmd → s.seq.orch = .retrying →
    (s.seq.retryPhase = .entry → s.env.stop = false →
      exec i s = .next { s with seq := { s.seq with probeCnt := 0, retryPhase := .test } })
    ∧ (s.seq.retryPhase = .test → s.seq.probeCnt < s.cfg.probeMax →
      exec i s = .next { s with seq := { s.seq with probeCnt := s.seq.probeCnt + 1, retryPhase := .probeSend } })
    ∧ (s.seq.retryPhase = .test → s.cfg.probeMax ≤ s.seq.probeCnt →
      exec i s = .next { s with seq := { s.seq with retryPhase := .leave } })
    ∧ (s.seq.retryPhase = .probeFailed → s.env.stop = false →
      exec i s = .next { s with seq := { s.seq with retryPhase := .test } })
    ∧ (s.seq.retryPhase = .probeSend → s.tx.de = false →
      ∃ t, exec i s = .next t ∧ t.tx.buf = encodeFrame (protocolBody s.cfg 0) ∧ t.tx.de = true
        ∧ t.tx.len = t.tx.buf.length ∧ t.tx.pos = 0 ∧ t.seq = s.seq ∧ t.regs = s.regs ∧ t.rx = s.rx))
  ∧ (∀ (s : State) (f : List Byte), s.env.inReset = false → s.env.inputs = [] → s.flags.ready = true →
    s.seq.orch = .retrying → s.seq.retryPhase = .probeSend → s.tx.de = false →
    f = encodeFrame (protocolBody s.cfg 0) →
    runSteps (f.length + 2) s = .next { sentAndListening (protocolBody s.cfg 0) s.cfg.deadlineFast s with
      seq := { s.seq with retryPhase := .probeReceive } }
    ∧ ∀ k, k ≤ f.length → ∃ t, runSteps (k + 1) s = .next t ∧ t.tx.de = true ∧ t.env.txd = s.env.txd ++ f.take k)

/-- The recovery probe's own errors are swallowed (R248, R300): whatever its send, its receive and its decode do, no step of
it changes LAST_ERR, RETRY_CNT, RECORD or the command in progress, or leaves Retrying. A receive that times out or an
answer that does not decode, by any check of R294, is a failed attempt; a candidate goes on to the decode; an answer that
the codec and the header decoder accept decodes, whatever its payload (R201), and ends the probe. -/
def Obligations.ProbeErrorsDoNotNest : Prop :=
  ∀ (i : Instr) (s : State), s.flags.ready = true → i.cmd = s.regs.cmd → s.seq.orch = .retrying →
    (s.seq.retryPhase ∈ [RetryPhase.test, .probeSend, .probeReceive, .probeDecode]
        ∨ (s.seq.retryPhase = .probeFailed ∧ s.env.stop = false) →
      ∃ t, exec i s = .next t ∧ t.flags = s.flags ∧ t.regs = s.regs ∧ t.out = s.out ∧ t.cfg = s.cfg
        ∧ t.seq = { s.seq with probeCnt := t.seq.probeCnt, retryPhase := t.seq.retryPhase })
    ∧ (s.seq.retryPhase = .probeReceive → s.rx.state = .hunt → s.rx.deadlineAt ≤ s.env.now →
      exec i s = .next { s with
        rx := { s.rx with state := .off }
        seq := { s.seq with retryPhase := .probeFailed } })
    ∧ (∀ (x : Received) (u : State), s.seq.retryPhase = .probeReceive →
      receiveStep s.cfg.deadlineFast s = (x, u) →
      (x = .waiting → exec i s = .next u)
      ∧ (x = .noFrame → exec i s = .next { u with seq := { s.seq with retryPhase := .probeFailed } })
      ∧ (x = .frame → exec i s = .next { u with seq := { s.seq with retryPhase := .probeDecode } }))
    ∧ (s.seq.retryPhase = .probeDecode →
      ∃ t, exec i s = .next t ∧ t.tx = s.tx ∧ t.rx = s.rx ∧ t.env = s.env
        ∧ ((∃ r, (decodeAnswer .protocol s).2 = .ok r) → t.seq = { s.seq with retryPhase := .leave })
        ∧ ((∃ e, (decodeAnswer .protocol s).2 = .error e) → t.seq = { s.seq with retryPhase := .probeFailed }))
    ∧ (∀ k h e, s.seq.retryPhase = .probeDecode → DecodeFails .protocol s k h e →
      exec i s = .next { s with chk := k, hdr := h, seq := { s.seq with retryPhase := .probeFailed } })
    ∧ (∀ k body h p, s.seq.retryPhase = .probeDecode → decodeFrame s.frame s.chk = (k, .ok body) →
      decodeHeader body s.hdr = (h, .ok p) →
      exec i s = .next { s with chk := k, hdr := { h with cursor := 0 }, seq := { s.seq with retryPhase := .leave } })

/-- A stop sampled in Retrying, at its entry, after a failed probe attempt and before the return, cancels the command
(R248, R250). (That RESULT is absent then is the model's, log 11.) -/
def Obligations.StopInRetryingCancels : Prop :=
  ∀ (i : Instr) (s : State),
    s.flags.ready = true → i.cmd = s.regs.cmd → s.seq.orch = .retrying → s.env.stop = true →
    (s.seq.retryPhase = .entry ∨ s.seq.retryPhase = .probeFailed ∨ s.seq.retryPhase = .leave) →
    exec i s = .next (cancelledState s)

/-! ## The status macro -/

/-- A query of a round that succeeds puts its stripped record in its slot and goes on to the next query of the same
module, or after `systemparameter` to the `analog` query of the next module, in normal mode (R22, R253). A stop sampled
between two queries cancels the round: NULL, STOP_SEEN, DONE, SNAP dropped, LAST_SNAPSHOT kept (R250, R253). (That RESULT
is absent then is the model's, log 11.) -/
def Obligations.RoundFollowsTheFixedOrder : Prop :=
  ∀ (idx : Option Int) (s u : State) (r : Record),
    s.flags.ready = true → s.regs.cmd = .status → s.seq.orch = .decoding →
    decodeIntoRecord s.seq.seqQ.toWire s = (u, .ok r) →
    (∀ q q', (q, q') ∈ [(RoundQuery.analog, RoundQuery.chargingDischarge),
        (RoundQuery.chargingDischarge, RoundQuery.alarm), (RoundQuery.alarm, RoundQuery.systemparameter)] →
      s.seq.seqQ = q →
      (s.env.stop = false →
        exec (.status idx) s = .next { u with
          seq := { s.seq with seqQ := q', orch := .sending, retryCnt := 0 }
          regs := { s.regs with curCmd := q'.toWire, curIdx := s.seq.seqM, probeMode := false }
          out := { u.out with snapM := s.out.snapM.put q (strip r) } })
      ∧ (s.env.stop = true → exec (.status idx) s = .next (roundCancelled s.seq.seqM q' u)))
    ∧ (s.seq.seqQ = .systemparameter → s.seq.seqM + 1 < s.regs.moduleCount →
      (s.env.stop = false →
        exec (.status idx) s = .next { u with
          seq := { s.seq with seqM := s.seq.seqM + 1, seqQ := .analog, orch := .sending, retryCnt := 0 }
          regs := { s.regs with curCmd := .analog, curIdx := s.seq.seqM + 1, probeMode := false }
          out := { u.out with snapM := ModuleSnapshot.empty
                              snap := s.out.snap ++ [{ s.out.snapM with systemParameter := strip r }] } })
      ∧ (s.env.stop = true → exec (.status idx) s = .next (roundCancelled (s.seq.seqM + 1) .analog u)))
    ∧ u = { s with chk := u.chk, hdr := u.hdr, out := { s.out with record := r } }

/-- The last query of a round ends it: the fold over exactly the records of this round becomes the Calculated record,
and the StackSnapshot is RESULT and LAST_SNAPSHOT (R253 to R255). What is folded of each module are the numbers and alarm
states of the named fields of its Analog and Alarm records (R256 to R259). -/
def Obligations.StatusRoundCompletes : Prop :=
  ∀ (idx : Option Int) (s u : State) (r : Record) (mods : List ModuleSnapshot) (l : List ModuleReading),
    s.flags.ready = true → s.regs.cmd = .status → s.seq.orch = .decoding → s.seq.seqQ = .systemparameter →
    s.regs.moduleCount ≤ s.seq.seqM + 1 →
    decodeIntoRecord .systemparameter s = (u, .ok r) →
    mods = s.out.snap ++ [{ s.out.snapM with systemParameter := strip r }] →
    l.length = mods.length → (∀ (j : Nat) (h : j < mods.length) (h' : j < l.length), ReadingIs mods[j] l[j]) →
    exec (.status idx) s = .next { u with
      seq := { s.seq with orch := .done }
      flags := { s.flags with resultKind := .record, done := true, busy := false }
      out := { u.out with
        snapM := ModuleSnapshot.empty
        snap := mods
        result := .stack { modules := mods, calculated := foldReadings l }
        lastSnapshot := some { modules := mods, calculated := foldReadings l } } }

/-- R256, R257: sums over the modules; the power is the sum of the products, not the product of the sums; the energies
and the percentage of R260, 0 when the total is 0. -/
def Obligations.FoldSumsOverTheModules : Prop :=
  ∀ (l : List ModuleReading),
    (foldReadings l).totalCapacityAh = ⟨(l.map ModuleReading.moduleCapacity).sum, 1000⟩
      ∧ (foldReadings l).remainingCapacityAh = ⟨(l.map ModuleReading.remainingCapacity).sum, 1000⟩
      ∧ (foldReadings l).currentA = ⟨(l.map ModuleReading.current).sum, 10⟩
      ∧ (foldReadings l).powerW = ⟨(l.map (fun m => m.moduleVoltage * m.current)).sum, 10000⟩
      ∧ (foldReadings l).totalCapacityKWh = ⟨(l.map (fun m => m.moduleCapacity * m.moduleVoltage)).sum, 1000000000⟩
      ∧ (foldReadings l).remainingCapacityKWh
          = ⟨(l.map (fun m => m.remainingCapacity * m.moduleVoltage)).sum, 1000000000⟩
      ∧ ((l.map ModuleReading.moduleCapacity).sum = 0 → (foldReadings l).remainingPercent = 0)
      ∧ ((l.map ModuleReading.moduleCapacity).sum ≠ 0 →
          (foldReadings l).remainingPercent * ((l.map ModuleReading.moduleCapacity).sum : Rat)
            = ((l.map ModuleReading.remainingCapacity).sum : Rat) * 100)

/-- R258: minimum and maximum of every cell voltage and every temperature of every module; absent over nothing. -/
def Obligations.ExtremesRangeOverEveryModule : Prop :=
  ∀ (l : List ModuleReading),
    isLeast 1000 (l.flatMap ModuleReading.cellVoltages) (foldReadings l).minCellVoltage
      ∧ isGreatest 1000 (l.flatMap ModuleReading.cellVoltages) (foldReadings l).maxCellVoltage
      ∧ isLeast 10 (l.flatMap ModuleReading.temperatures) (foldReadings l).minTemperature
      ∧ isGreatest 10 (l.flatMap ModuleReading.temperatures) (foldReadings l).maxTemperature

/-- R259: each alarm boolean is true exactly when every module reports every alarm of the class Ok. -/
def Obligations.HealthIsTheConjunction : Prop :=
  ∀ (l : List ModuleReading),
    ((foldReadings l).cellAlarmOk = true ↔ ∀ m ∈ l, ∀ a ∈ m.cellAlarms, a = .ok)
      ∧ ((foldReadings l).temperatureAlarmOk = true ↔ ∀ m ∈ l, ∀ a ∈ m.temperatureAlarms, a = .ok)
      ∧ ((foldReadings l).currentAlarmOk = true ↔
          ∀ m ∈ l, m.chargeCurrentAlarm = .ok ∧ m.dischargeCurrentAlarm = .ok)
      ∧ ((foldReadings l).moduleVoltageAlarmOk = true ↔ ∀ m ∈ l, m.moduleVoltageAlarm = .ok)

/-! ## The whole machine -/

/-- R36, the values it states. -/
def Obligations.ResetValuesAreThoseOfTheSpec : Prop :=
  State.reset.seq.orch = .discovering ∧ State.reset.flags.ready = false ∧ State.reset.flags.busy = true
    ∧ State.reset.regs.moduleCount = 0 ∧ State.reset.seq.discI = 0 ∧ State.reset.seq.seqM = 0
    ∧ State.reset.seq.seqQ = .analog ∧ State.reset.seq.probeCnt = 0 ∧ State.reset.seq.retryCnt = 0
    ∧ State.reset.regs.cmd = .wire .protocol ∧ State.reset.regs.midx = 0 ∧ State.reset.regs.curCmd = .serialnumber
    ∧ State.reset.regs.curIdx = 0 ∧ State.reset.regs.probeMode = true ∧ State.reset.tx.de = false
    ∧ State.reset.tx.buf = [] ∧ State.reset.rx.state = .off ∧ State.reset.rx.frame = [] ∧ State.reset.rx.fifo = []
    ∧ State.reset.chk.acc = 0 ∧ State.reset.flags.resultKind = .nothing ∧ State.reset.flags.stopSeen = false
    ∧ State.reset.flags.lastErr = none ∧ State.reset.out.record = [] ∧ State.reset.out.snap = []
    ∧ State.reset.out.lastSnapshot = none

/-- RESET asserted at any moment abandons what runs, drops DE and empties RXFIFO, puts every register at its value of R36 and
pulses no DONE (R320, R321); it is held until released; the release samples the parameters, which are refused when they are
not ones the spec allows (R33, U31), and discovery starts with the probe of index 0 (R262). (The model's choices: RESET as a
pair of inputs, log 13; that inputs, NOW, STOP, TXD and the parameters stay while it is asserted, log 20.) -/
def Obligations.ResetAbandonsEverything : Prop :=
  ∀ (s : State) (rest : List Input),
    (s.env.inputs = .resetAssert :: rest →
      ∃ t, step s = .next t ∧ t.env = { s.env with inputs := rest, inReset := true } ∧ t.cfg = s.cfg
        ∧ t.seq = State.reset.seq ∧ t.regs = State.reset.regs ∧ t.flags = State.reset.flags
        ∧ t.tx.de = false ∧ t.tx.buf = [] ∧ t.rx.state = .off ∧ t.rx.frame = [] ∧ t.rx.fifo = [] ∧ t.chk.acc = 0
        ∧ t.out.record = [] ∧ t.out.snap = [] ∧ t.out.lastSnapshot = none
        ∧ t.seq.orch = .discovering ∧ t.flags.ready = false ∧ t.flags.done = false ∧ t.flags.resultKind = .nothing
        ∧ t.regs.moduleCount = 0)
    ∧ (s.env.inReset = true → s.env.inputs = [] → step s = .next s)
    ∧ (∀ c : Config, s.env.inReset = true → s.env.inputs = .resetRelease c :: rest →
        (c.legal = true →
          step s = .next { s with cfg := c, env := { s.env with inputs := rest, inReset := false } })
        ∧ (c.legal = false → step s = .refused .illegalConfiguration))
    ∧ (∀ c : Config, s.env.inputs = [.resetAssert, .resetRelease c] → c.legal = true → 0 < c.discoveryLimit →
        s.env.stop = false →
        ∃ t, runSteps 3 s = .next t ∧ t.env = { s.env with inputs := [], inReset := false } ∧ t.cfg = c
          ∧ t.seq = { State.reset.seq with orch := .sending }
          ∧ t.regs = { State.reset.regs with curCmd := .serialnumber, curIdx := 0, probeMode := true }
          ∧ t.flags = State.reset.flags)

/-- The invariant holds right after reset. -/
def Obligations.ResetSatisfiesTheInvariant : Prop :=
  Inv State.reset

/-- Every step from a state with the invariant, whatever the inputs, gives a state with it. -/
def Obligations.StepKeepsTheInvariant : Prop :=
  ∀ s t : State, Inv s → step s = .next t → Inv t

/-- No step from a state with the invariant faults, and the only refusal is of parameters at reset release that the
spec does not allow; in particular a failing bus never stops the engine (R249). -/
def Obligations.StepNeverStops : Prop :=
  ∀ s : State, Inv s →
    (∀ r, step s ≠ .fault r)
      ∧ ∀ r, step s = .refused r → r = .illegalConfiguration
        ∧ ∃ c rest, s.env.inputs = .resetRelease c :: rest ∧ c.legal = false

/-- R251: every change of ORCH_STATE, but for a RESET, is one of the table's. (The table's way out of a last discovery
probe that succeeds is taken within one step, log 9.) -/
def Obligations.TransitionsAreThoseOfTheTable : Prop :=
  ∀ s t : State, noResetNext s → step s = .next t → transitionOk s.seq.orch t.seq.orch = true

/-- R264: after discovery nothing but a RESET changes MODULE_COUNT. -/
def Obligations.ModuleCountIsImmutable : Prop :=
  ∀ s t : State, Inv s → s.flags.ready = true → noResetNext s → step s = .next t →
    t.regs.moduleCount = s.regs.moduleCount ∧ t.flags.ready = true

/-- R297: a step that records a recoverable error changes neither RESULT_KIND nor RESULT. -/
def Obligations.RecoverableErrorsNeverReachTheHost : Prop :=
  ∀ (s t : State) (e : EngineError), step s = .next t → t.flags.lastErr = some e → s.flags.lastErr ≠ some e →
    e.recoverable = true ∧ t.flags.resultKind = s.flags.resultKind ∧ t.out.result = s.out.result
      ∧ t.flags.done = s.flags.done

/-- U20: "every rule writes them before it reads them". Two states that differ in nothing but the registers R36 leaves
unspecified after reset, as long as their values have not been written, step to two such states: what the model holds
there at reset (log 1) decides nothing. -/
def Obligations.UnspecifiedRegistersDecideNothing : Prop :=
  ∀ s t s' : State, forgetUnspecified s = forgetUnspecified t → step s = .next s' →
    ∃ t', step t = .next t' ∧ forgetUnspecified s' = forgetUnspecified t'

/-! ## The parameters -/

/-- In every configuration the spec allows, each character of a query's body is one of "0123456789ABCDEF", so that its frame
holds START_MARKER exactly once, first, and END_MARKER exactly once, last (R90). -/
def Obligations.EncoderEmitsHexOnly : Prop :=
  ∀ (c : Config) (w : WireCmd) (n : Nat) (f : List Byte), c.legal = true → f = encodeFrame (queryBody c w n) →
    (∀ b ∈ queryBody c w n, b ∈ hexChars)
      ∧ f.head? = some 0x7E ∧ f.count 0x7E = 1 ∧ f.getLast? = some 0x0D ∧ f.count 0x0D = 1

/-- In every configuration the spec allows, no two module indexes in use have one address, and the default formula alone
is allowed neither an index above 14 nor a group above 15 (R171, U31). (The model's application of U31, log 13: where a table
of exceptions stands, the same bounds hold for each index in use that has no entry of its own in the group; in use are the
indexes below DISCOVERY_LIMIT, and 0 in any case.) -/
def Obligations.LegalAddressesDoNotAlias : Prop :=
  ∀ c : Config,
    (c.legal = true → ∀ i j, i < max 1 c.discoveryLimit → j < max 1 c.discoveryLimit → i ≠ j →
      addr c i c.group ≠ addr c j c.group)
    ∧ (c.addrTable = [] → 15 < c.discoveryLimit ∨ 15 < c.group → c.legal = false)
    ∧ (∀ i, i < max 1 c.discoveryLimit → 14 < i ∨ 15 < c.group →
        (∀ e ∈ c.addrTable, (e.1, e.2.1) ≠ (i, c.group)) → c.legal = false)
end

