-- ==== Sys2Proof/Laws/Hex.lean ====
section
/-!
SUPPORT. What the ASCII-hex primitives do (spec/00_scope.md R8): reading back what was written, the range of a reading,
and when there is none.
-/

namespace Sys2Proof.Machine

/-- A digit that was written reads as itself. -/
theorem digitVal_hexDigit {n : Nat} (h : n < 16) : digitVal (hexDigit n) = some n := by
  have all : ∀ m : Fin 16, digitVal (hexDigit m) = some m.val := by decide
  exact all ⟨n, h⟩

/-- A written digit is neither marker (R90). -/
theorem hexDigit_ne_marker (n : Nat) (h : n < 16) : hexDigit n ≠ 0x7E ∧ hexDigit n ≠ 0x0D := by
  have all : ∀ m : Fin 16, hexDigit m ≠ 0x7E ∧ hexDigit m ≠ 0x0D := by decide
  exact all ⟨n, h⟩

theorem digitVal_lt {c : Byte} {d : Nat} (h : digitVal c = some d) : d < 16 := by
  unfold digitVal at h
  split at h
  · cases h; omega
  · split at h
    · cases h; omega
    · split at h
      · cases h; omega
      · cases h

theorem unhexFrom_append (acc : Nat) (s t : List Byte) :
    unhexFrom acc (s ++ t) = (unhexFrom acc s).bind (fun a => unhexFrom a t) := by
  induction s generalizing acc with
  | nil => rfl
  | cons c cs ih =>
    simp only [List.cons_append, unhexFrom]
    cases digitVal c with
    | none => rfl
    | some d => exact ih _

/-- A reading that succeeds is below the power of 16 its length allows. -/
theorem unhexFrom_lt {s : List Byte} {acc v : Nat} (h : unhexFrom acc s = some v) :
    v < (acc + 1) * 16 ^ s.length := by
  induction s generalizing acc with
  | nil => simp only [unhexFrom, Option.some.injEq] at h; simp; omega
  | cons c cs ih =>
    simp only [unhexFrom] at h
    cases hd : digitVal c with
    | none => rw [hd] at h; cases h
    | some d =>
      rw [hd] at h
      have hlt := digitVal_lt hd
      have hv := ih h
      have hm : (acc * 16 + d + 1) * 16 ^ cs.length ≤ (acc * 16 + 16) * 16 ^ cs.length :=
        Nat.mul_le_mul_right _ (by omega)
      have he : (acc * 16 + 16) * 16 ^ cs.length = (acc + 1) * 16 ^ (c :: cs).length := by
        rw [List.length_cons, Nat.pow_succ]; ring
      omega

theorem unhex_lt {s : List Byte} {v : Nat} (h : unhex s = some v) : v < 16 ^ s.length := by
  simpa using unhexFrom_lt h

/-- A reading fails exactly when some character is no hex digit. -/
theorem unhexFrom_eq_none {s : List Byte} {acc : Nat} :
    unhexFrom acc s = none ↔ ∃ b ∈ s, digitVal b = none := by
  induction s generalizing acc with
  | nil => simp [unhexFrom]
  | cons c cs ih =>
    simp only [unhexFrom, List.mem_cons, exists_eq_or_imp]
    cases hd : digitVal c with
    | none => simp
    | some d => simp [ih]

theorem unhex_eq_none {s : List Byte} : unhex s = none ↔ ∃ b ∈ s, digitVal b = none :=
  unhexFrom_eq_none

/-- HEX2 reads back. -/
theorem unhexFrom_hex2 (acc v : Nat) (h : v < 256) : unhexFrom acc (hex2 v) = some (acc * 256 + v) := by
  have h1 : v / 16 % 16 < 16 := Nat.mod_lt _ (by decide)
  have h2 : v % 16 < 16 := Nat.mod_lt _ (by decide)
  simp only [hex2, unhexFrom, digitVal_hexDigit h1, digitVal_hexDigit h2]
  congr 1
  omega

theorem unhex_hex2 (v : Nat) (h : v < 256) : unhex (hex2 v) = some v := by
  rw [unhex, unhexFrom_hex2 0 v h]; simp

/-- HEX4 reads back. -/
theorem unhex_hex4 (v : Nat) (h : v < 65536) : unhex (hex4 v) = some v := by
  simp only [unhex, hex4, unhexFrom_append, unhexFrom_hex2 _ _ (Nat.mod_lt _ (by decide : 0 < 256)),
    Option.bind_some]
  congr 1
  omega

@[simp] theorem hex2_length (v : Nat) : (hex2 v).length = 2 := rfl

@[simp] theorem hex4_length (v : Nat) : (hex4 v).length = 4 := rfl

@[simp] theorem unhex_hex4_toNat (v : Word16) : unhex (hex4 v.toNat) = some v.toNat :=
  unhex_hex4 _ v.isLt

/-! ## take -/

/-- A take that fits answers the number its characters spell and moves the cursor by its width. -/
theorem takeHex_ok {p : List Byte} {k cur v : Nat} (h : cur + k ≤ p.length)
    (hv : unhex ((p.drop cur).take k) = some v) : takeHex p k cur = .ok (v, cur + k) := by
  unfold takeHex
  rw [if_neg (by omega), hv]

/-- Everything `take` can do (R193). -/
theorem takeHex_cases (p : List Byte) (k cur : Nat) :
    (p.length < cur + k ∧ takeHex p k cur = .error (.overrun, cur))
      ∨ (cur + k ≤ p.length ∧ unhex ((p.drop cur).take k) = none ∧ takeHex p k cur = .error (.notHex, cur))
      ∨ ∃ v, cur + k ≤ p.length ∧ unhex ((p.drop cur).take k) = some v ∧ takeHex p k cur = .ok (v, cur + k) := by
  unfold takeHex
  by_cases h : p.length < cur + k
  · exact .inl ⟨h, if_pos h⟩
  · rw [if_neg h]
    cases hu : unhex ((p.drop cur).take k) with
    | none => exact .inr (.inl ⟨by omega, rfl, rfl⟩)
    | some v => exact .inr (.inr ⟨v, by omega, rfl, rfl⟩)

end Sys2Proof.Machine
end

