-- ==== Sys2Proof/Laws/Codec.lean ====
section
/-!
SUPPORT. What the Packet Codec does (spec/41_frame_codec.md R150 to R157): the checksum as a negated sum, the accumulator,
the parts of an encoded frame, and everything decode can answer.
-/

namespace Sys2Proof.Machine

/-! ## The byte sum -/

@[simp] theorem byteSum_nil : byteSum [] = 0 := rfl

@[simp] theorem byteSum_cons (b : Byte) (bs : List Byte) : byteSum (b :: bs) = b.toNat + byteSum bs := rfl

theorem byteSum_append (s t : List Byte) : byteSum (s ++ t) = byteSum s + byteSum t := by
  induction s with
  | nil => simp
  | cons b bs ih => simp [ih]; omega

/-- CHK_ACC holds the byte sum modulo 2^16, whatever it started at (R159). -/
theorem foldl_acc (s : List Byte) (a : Word16) :
    s.foldl (fun x b => x + b.setWidth 16) a = a + BitVec.ofNat 16 (byteSum s) := by
  induction s generalizing a with
  | nil => simp
  | cons b bs ih =>
    rw [List.foldl_cons, ih]
    apply BitVec.eq_of_toNat_eq
    simp only [byteSum_cons, BitVec.toNat_add, BitVec.toNat_setWidth, BitVec.toNat_ofNat]
    omega

theorem chkAcc_eq (s : List Byte) : chkAcc s = BitVec.ofNat 16 (byteSum s) := by
  simp [chkAcc, foldl_acc]

theorem chk16_toNat (s : List Byte) : (chk16 s).toNat = (0x10000 - byteSum s % 0x10000) % 0x10000 := by
  simp [chk16]

/-- Two byte strings have one checksum exactly when their sums agree modulo 2^16. -/
theorem chk16_eq_iff (s t : List Byte) : chk16 s = chk16 t ↔ byteSum s % 65536 = byteSum t % 65536 := by
  rw [← BitVec.toNat_inj, chk16_toNat, chk16_toNat]
  omega

/-! ## Trim -/

/-- A frame that starts with START_MARKER is not trimmed (R153). -/
@[simp] theorem trim_start (f : List Byte) : trim (startMarker :: f) = startMarker :: f := by
  simp [trim]

/-! ## decode -/

/-- decode of a frame that fails a framing check. -/
theorem decodeFrame_framing {f : List Byte} {r : FramingReason} (k : Chk) (h : framingError (trim f) = some r) :
    decodeFrame f k = (k, .error (.framing r)) := by
  simp only [decodeFrame, h]

/-- decode of a frame whose declared checksum is not hex (R157). -/
theorem decodeFrame_notHex {f : List Byte} (k : Chk) (h : framingError (trim f) = none)
    (hd : declaredOf (trim f) = none) :
    decodeFrame f k =
      ({ k with acc := chkAcc (bodyOf (trim f)), computed := chk16 (bodyOf (trim f)), declaredValid := false },
       .error (.checksum (chk16 (bodyOf (trim f))) none)) := by
  simp only [decodeFrame, h, hd]

/-- decode of a frame with two checksums (R155, R156). -/
theorem decodeFrame_checked {f : List Byte} (k : Chk) {d : Nat} (h : framingError (trim f) = none)
    (hd : declaredOf (trim f) = some d) :
    decodeFrame f k =
      ({ acc := chkAcc (bodyOf (trim f)), computed := chk16 (bodyOf (trim f)), declared := BitVec.ofNat 16 d,
         declaredValid := true },
       if BitVec.ofNat 16 d = chk16 (bodyOf (trim f)) then .ok (bodyOf (trim f))
       else .error (.checksum (chk16 (bodyOf (trim f))) (some (BitVec.ofNat 16 d)))) := by
  simp only [decodeFrame, h, hd]
  split <;> rfl

/-- The only errors of decode are FramingError and ChecksumError, and decode answers the same whatever the codec
registers held. -/
theorem decodeFrame_errors (f : List Byte) (k : Chk) (e : EngineError) (h : (decodeFrame f k).2 = .error e) :
    (∃ r, e = .framing r) ∨ ∃ c d, e = .checksum c d := by
  cases hf : framingError (trim f) with
  | some r => rw [decodeFrame_framing k hf] at h; cases h; exact .inl ⟨r, rfl⟩
  | none =>
    cases hd : declaredOf (trim f) with
    | none => rw [decodeFrame_notHex k hf hd] at h; cases h; exact .inr ⟨_, _, rfl⟩
    | some d =>
      rw [decodeFrame_checked k hf hd] at h
      simp only at h
      split at h
      · cases h
      · cases h; exact .inr ⟨_, _, rfl⟩

theorem decodeFrame_indep (f : List Byte) (k k' : Chk) : (decodeFrame f k).2 = (decodeFrame f k').2 := by
  cases hf : framingError (trim f) with
  | some r => rw [decodeFrame_framing k hf, decodeFrame_framing k' hf]
  | none =>
    cases hd : declaredOf (trim f) with
    | none => rw [decodeFrame_notHex k hf hd, decodeFrame_notHex k' hf hd]
    | some d => rw [decodeFrame_checked k hf hd, decodeFrame_checked k' hf hd]

/-! ## A body between its markers -/

/-- The frame of a body with a given checksum field. -/
def wrap (p c : List Byte) : List Byte :=
  startMarker :: (p ++ (c ++ [endMarker]))

theorem encodeFrame_eq_wrap (p : List Byte) : encodeFrame p = wrap p (hex4 (chk16 p).toNat) := rfl

theorem wrap_length (p c : List Byte) : (wrap p c).length = p.length + c.length + 2 := by
  simp [wrap]; omega

theorem wrap_bodyOf (p c : List Byte) (hc : c.length = 4) : bodyOf (wrap p c) = p := by
  have hl : (wrap p c).length - 5 - 1 = p.length := by rw [wrap_length]; omega
  simp only [bodyOf, slice, hl]
  simp [wrap]

theorem wrap_declaredOf (p c : List Byte) (hc : c.length = 4) : declaredOf (wrap p c) = unhex c := by
  have h1 : (wrap p c).length - 5 = p.length + 1 := by rw [wrap_length]; omega
  have h2 : (wrap p c).length - 1 - (p.length + 1) = 4 := by rw [wrap_length]; omega
  simp only [declaredOf, slice, h1, h2]
  simp [wrap, ← hc]

theorem wrap_framing (p c : List Byte) (hc : c.length = 4) :
    framingError (wrap p c) = if p.length < 10 then some .tooShort else none := by
  have hlast : (wrap p c).getLast? = some endMarker := by
    have h : wrap p c = (startMarker :: (p ++ c)) ++ [endMarker] := by simp [wrap]
    rw [h, List.getLast?_append]
    rfl
  have hhead : (wrap p c).head? = some startMarker := rfl
  have hlen := wrap_length p c
  simp only [framingError, hlast, hhead, minFrame]
  by_cases h : p.length < 10
  · rw [if_pos (by omega), if_pos h]
  · rw [if_neg (by omega), if_neg h]; simp

end Sys2Proof.Machine
end

