-- ==== Sys2Proof/Laws/State.lean ====
section
/-!
SUPPORT. For every named write of the state, what each part of the state is after it: one lemma for each part, true by
definition, so that no later proof unfolds a record update.
-/

namespace Sys2Proof.Machine

/-! ## setInputs -/

@[simp] theorem setInputs_env (l : List Input) (s : State) : (setInputs l s).env = { s.env with inputs := l } := rfl
@[simp] theorem setInputs_cfg (l : List Input) (s : State) : (setInputs l s).cfg = s.cfg := rfl
@[simp] theorem setInputs_seq (l : List Input) (s : State) : (setInputs l s).seq = s.seq := rfl
@[simp] theorem setInputs_regs (l : List Input) (s : State) : (setInputs l s).regs = s.regs := rfl
@[simp] theorem setInputs_tx (l : List Input) (s : State) : (setInputs l s).tx = s.tx := rfl
@[simp] theorem setInputs_rx (l : List Input) (s : State) : (setInputs l s).rx = s.rx := rfl
@[simp] theorem setInputs_chk (l : List Input) (s : State) : (setInputs l s).chk = s.chk := rfl
@[simp] theorem setInputs_hdr (l : List Input) (s : State) : (setInputs l s).hdr = s.hdr := rfl
@[simp] theorem setInputs_flags (l : List Input) (s : State) : (setInputs l s).flags = s.flags := rfl
@[simp] theorem setInputs_out (l : List Input) (s : State) : (setInputs l s).out = s.out := rfl

/-! ## setOrch -/

@[simp] theorem setOrch_env (o : OrchState) (s : State) : (setOrch o s).env = s.env := rfl
@[simp] theorem setOrch_cfg (o : OrchState) (s : State) : (setOrch o s).cfg = s.cfg := rfl
@[simp] theorem setOrch_seq (o : OrchState) (s : State) : (setOrch o s).seq = { s.seq with orch := o } := rfl
@[simp] theorem setOrch_regs (o : OrchState) (s : State) : (setOrch o s).regs = s.regs := rfl
@[simp] theorem setOrch_tx (o : OrchState) (s : State) : (setOrch o s).tx = s.tx := rfl
@[simp] theorem setOrch_rx (o : OrchState) (s : State) : (setOrch o s).rx = s.rx := rfl
@[simp] theorem setOrch_chk (o : OrchState) (s : State) : (setOrch o s).chk = s.chk := rfl
@[simp] theorem setOrch_hdr (o : OrchState) (s : State) : (setOrch o s).hdr = s.hdr := rfl
@[simp] theorem setOrch_flags (o : OrchState) (s : State) : (setOrch o s).flags = s.flags := rfl
@[simp] theorem setOrch_out (o : OrchState) (s : State) : (setOrch o s).out = s.out := rfl

/-! ## setRetryPhase -/

@[simp] theorem setRetryPhase_env (p : RetryPhase) (s : State) : (setRetryPhase p s).env = s.env := rfl
@[simp] theorem setRetryPhase_cfg (p : RetryPhase) (s : State) : (setRetryPhase p s).cfg = s.cfg := rfl
@[simp] theorem setRetryPhase_seq (p : RetryPhase) (s : State) :
    (setRetryPhase p s).seq = { s.seq with retryPhase := p } := rfl
@[simp] theorem setRetryPhase_regs (p : RetryPhase) (s : State) : (setRetryPhase p s).regs = s.regs := rfl
@[simp] theorem setRetryPhase_tx (p : RetryPhase) (s : State) : (setRetryPhase p s).tx = s.tx := rfl
@[simp] theorem setRetryPhase_rx (p : RetryPhase) (s : State) : (setRetryPhase p s).rx = s.rx := rfl
@[simp] theorem setRetryPhase_chk (p : RetryPhase) (s : State) : (setRetryPhase p s).chk = s.chk := rfl
@[simp] theorem setRetryPhase_hdr (p : RetryPhase) (s : State) : (setRetryPhase p s).hdr = s.hdr := rfl
@[simp] theorem setRetryPhase_flags (p : RetryPhase) (s : State) : (setRetryPhase p s).flags = s.flags := rfl
@[simp] theorem setRetryPhase_out (p : RetryPhase) (s : State) : (setRetryPhase p s).out = s.out := rfl

/-! ## advance -/

@[simp] theorem advance_env (d : Nat) (s : State) : (advance d s).env = { s.env with now := s.env.now + d } := rfl
@[simp] theorem advance_cfg (d : Nat) (s : State) : (advance d s).cfg = s.cfg := rfl
@[simp] theorem advance_seq (d : Nat) (s : State) : (advance d s).seq = s.seq := rfl
@[simp] theorem advance_regs (d : Nat) (s : State) : (advance d s).regs = s.regs := rfl
@[simp] theorem advance_tx (d : Nat) (s : State) : (advance d s).tx = s.tx := rfl
@[simp] theorem advance_rx (d : Nat) (s : State) : (advance d s).rx = s.rx := rfl
@[simp] theorem advance_chk (d : Nat) (s : State) : (advance d s).chk = s.chk := rfl
@[simp] theorem advance_hdr (d : Nat) (s : State) : (advance d s).hdr = s.hdr := rfl
@[simp] theorem advance_flags (d : Nat) (s : State) : (advance d s).flags = s.flags := rfl
@[simp] theorem advance_out (d : Nat) (s : State) : (advance d s).out = s.out := rfl

/-! ## fifoRest -/

@[simp] theorem fifoRest_env (l : List Byte) (s : State) : (fifoRest l s).env = s.env := rfl
@[simp] theorem fifoRest_cfg (l : List Byte) (s : State) : (fifoRest l s).cfg = s.cfg := rfl
@[simp] theorem fifoRest_seq (l : List Byte) (s : State) : (fifoRest l s).seq = s.seq := rfl
@[simp] theorem fifoRest_regs (l : List Byte) (s : State) : (fifoRest l s).regs = s.regs := rfl
@[simp] theorem fifoRest_tx (l : List Byte) (s : State) : (fifoRest l s).tx = s.tx := rfl
@[simp] theorem fifoRest_rx (l : List Byte) (s : State) : (fifoRest l s).rx = { s.rx with fifo := l } := rfl
@[simp] theorem fifoRest_chk (l : List Byte) (s : State) : (fifoRest l s).chk = s.chk := rfl
@[simp] theorem fifoRest_hdr (l : List Byte) (s : State) : (fifoRest l s).hdr = s.hdr := rfl
@[simp] theorem fifoRest_flags (l : List Byte) (s : State) : (fifoRest l s).flags = s.flags := rfl
@[simp] theorem fifoRest_out (l : List Byte) (s : State) : (fifoRest l s).out = s.out := rfl

/-! ## setRx -/

@[simp] theorem setRx_env (v : RxState) (s : State) : (setRx v s).env = s.env := rfl
@[simp] theorem setRx_cfg (v : RxState) (s : State) : (setRx v s).cfg = s.cfg := rfl
@[simp] theorem setRx_seq (v : RxState) (s : State) : (setRx v s).seq = s.seq := rfl
@[simp] theorem setRx_regs (v : RxState) (s : State) : (setRx v s).regs = s.regs := rfl
@[simp] theorem setRx_tx (v : RxState) (s : State) : (setRx v s).tx = s.tx := rfl
@[simp] theorem setRx_rx (v : RxState) (s : State) : (setRx v s).rx = { s.rx with state := v } := rfl
@[simp] theorem setRx_chk (v : RxState) (s : State) : (setRx v s).chk = s.chk := rfl
@[simp] theorem setRx_hdr (v : RxState) (s : State) : (setRx v s).hdr = s.hdr := rfl
@[simp] theorem setRx_flags (v : RxState) (s : State) : (setRx v s).flags = s.flags := rfl
@[simp] theorem setRx_out (v : RxState) (s : State) : (setRx v s).out = s.out := rfl

/-! ## frameStart -/

@[simp] theorem frameStart_env (b : Byte) (s : State) : (frameStart b s).env = s.env := rfl
@[simp] theorem frameStart_cfg (b : Byte) (s : State) : (frameStart b s).cfg = s.cfg := rfl
@[simp] theorem frameStart_seq (b : Byte) (s : State) : (frameStart b s).seq = s.seq := rfl
@[simp] theorem frameStart_regs (b : Byte) (s : State) : (frameStart b s).regs = s.regs := rfl
@[simp] theorem frameStart_tx (b : Byte) (s : State) : (frameStart b s).tx = s.tx := rfl
@[simp] theorem frameStart_rx (b : Byte) (s : State) :
    (frameStart b s).rx = { s.rx with frame := [b], frameLen := 1, lastByteAt := s.env.now } := rfl
@[simp] theorem frameStart_chk (b : Byte) (s : State) : (frameStart b s).chk = s.chk := rfl
@[simp] theorem frameStart_hdr (b : Byte) (s : State) : (frameStart b s).hdr = s.hdr := rfl
@[simp] theorem frameStart_flags (b : Byte) (s : State) : (frameStart b s).flags = s.flags := rfl
@[simp] theorem frameStart_out (b : Byte) (s : State) : (frameStart b s).out = s.out := rfl

/-! ## frameAppend -/

@[simp] theorem frameAppend_env (b : Byte) (s : State) : (frameAppend b s).env = s.env := rfl
@[simp] theorem frameAppend_cfg (b : Byte) (s : State) : (frameAppend b s).cfg = s.cfg := rfl
@[simp] theorem frameAppend_seq (b : Byte) (s : State) : (frameAppend b s).seq = s.seq := rfl
@[simp] theorem frameAppend_regs (b : Byte) (s : State) : (frameAppend b s).regs = s.regs := rfl
@[simp] theorem frameAppend_tx (b : Byte) (s : State) : (frameAppend b s).tx = s.tx := rfl
@[simp] theorem frameAppend_rx (b : Byte) (s : State) :
    (frameAppend b s).rx = { s.rx with frame := s.rx.frame.take s.rx.frameLen ++ [b], frameLen := s.rx.frameLen + 1, lastByteAt := s.env.now } := rfl
@[simp] theorem frameAppend_chk (b : Byte) (s : State) : (frameAppend b s).chk = s.chk := rfl
@[simp] theorem frameAppend_hdr (b : Byte) (s : State) : (frameAppend b s).hdr = s.hdr := rfl
@[simp] theorem frameAppend_flags (b : Byte) (s : State) : (frameAppend b s).flags = s.flags := rfl
@[simp] theorem frameAppend_out (b : Byte) (s : State) : (frameAppend b s).out = s.out := rfl

/-! ## receiveEntry -/

@[simp] theorem receiveEntry_env (d : Nat) (s : State) : (receiveEntry d s).env = s.env := rfl
@[simp] theorem receiveEntry_cfg (d : Nat) (s : State) : (receiveEntry d s).cfg = s.cfg := rfl
@[simp] theorem receiveEntry_seq (d : Nat) (s : State) : (receiveEntry d s).seq = s.seq := rfl
@[simp] theorem receiveEntry_regs (d : Nat) (s : State) : (receiveEntry d s).regs = s.regs := rfl
@[simp] theorem receiveEntry_tx (d : Nat) (s : State) : (receiveEntry d s).tx = s.tx := rfl
@[simp] theorem receiveEntry_rx (d : Nat) (s : State) :
    (receiveEntry d s).rx = { s.rx with deadlineAt := s.env.now + d, frame := [], frameLen := 0, state := .hunt } := rfl
@[simp] theorem receiveEntry_chk (d : Nat) (s : State) : (receiveEntry d s).chk = s.chk := rfl
@[simp] theorem receiveEntry_hdr (d : Nat) (s : State) : (receiveEntry d s).hdr = s.hdr := rfl
@[simp] theorem receiveEntry_flags (d : Nat) (s : State) : (receiveEntry d s).flags = s.flags := rfl
@[simp] theorem receiveEntry_out (d : Nat) (s : State) : (receiveEntry d s).out = s.out := rfl

/-! ## sendStart -/

@[simp] theorem sendStart_env (f : List Byte) (s : State) : (sendStart f s).env = s.env := rfl
@[simp] theorem sendStart_cfg (f : List Byte) (s : State) : (sendStart f s).cfg = s.cfg := rfl
@[simp] theorem sendStart_seq (f : List Byte) (s : State) : (sendStart f s).seq = s.seq := rfl
@[simp] theorem sendStart_regs (f : List Byte) (s : State) : (sendStart f s).regs = s.regs := rfl
@[simp] theorem sendStart_tx (f : List Byte) (s : State) :
    (sendStart f s).tx = { s.tx with de := true, buf := f, len := f.length, pos := 0, start := s.env.now } := rfl
@[simp] theorem sendStart_rx (f : List Byte) (s : State) : (sendStart f s).rx = s.rx := rfl
@[simp] theorem sendStart_chk (f : List Byte) (s : State) : (sendStart f s).chk = s.chk := rfl
@[simp] theorem sendStart_hdr (f : List Byte) (s : State) : (sendStart f s).hdr = s.hdr := rfl
@[simp] theorem sendStart_flags (f : List Byte) (s : State) : (sendStart f s).flags = s.flags := rfl
@[simp] theorem sendStart_out (f : List Byte) (s : State) : (sendStart f s).out = s.out := rfl

/-! ## sendShift -/

@[simp] theorem sendShift_env (s : State) :
    (sendShift s).env = { s.env with txd := s.env.txd ++ slice s.tx.buf s.tx.pos (s.tx.pos + 1), now := s.env.now + s.cfg.lineFormat.charTime } := rfl
@[simp] theorem sendShift_cfg (s : State) : (sendShift s).cfg = s.cfg := rfl
@[simp] theorem sendShift_seq (s : State) : (sendShift s).seq = s.seq := rfl
@[simp] theorem sendShift_regs (s : State) : (sendShift s).regs = s.regs := rfl
@[simp] theorem sendShift_tx (s : State) : (sendShift s).tx = { s.tx with pos := s.tx.pos + 1 } := rfl
@[simp] theorem sendShift_rx (s : State) : (sendShift s).rx = s.rx := rfl
@[simp] theorem sendShift_chk (s : State) : (sendShift s).chk = s.chk := rfl
@[simp] theorem sendShift_hdr (s : State) : (sendShift s).hdr = s.hdr := rfl
@[simp] theorem sendShift_flags (s : State) : (sendShift s).flags = s.flags := rfl
@[simp] theorem sendShift_out (s : State) : (sendShift s).out = s.out := rfl

/-! ## sendFlush -/

@[simp] theorem sendFlush_env (s : State) : (sendFlush s).env = s.env := rfl
@[simp] theorem sendFlush_cfg (s : State) : (sendFlush s).cfg = s.cfg := rfl
@[simp] theorem sendFlush_seq (s : State) : (sendFlush s).seq = s.seq := rfl
@[simp] theorem sendFlush_regs (s : State) : (sendFlush s).regs = s.regs := rfl
@[simp] theorem sendFlush_tx (s : State) :
    (sendFlush s).tx = { s.tx with de := false, duration := s.env.now - s.tx.start } := rfl
@[simp] theorem sendFlush_rx (s : State) : (sendFlush s).rx = s.rx := rfl
@[simp] theorem sendFlush_chk (s : State) : (sendFlush s).chk = s.chk := rfl
@[simp] theorem sendFlush_hdr (s : State) : (sendFlush s).hdr = s.hdr := rfl
@[simp] theorem sendFlush_flags (s : State) : (sendFlush s).flags = s.flags := rfl
@[simp] theorem sendFlush_out (s : State) : (sendFlush s).out = s.out := rfl

/-! ## startTransaction -/

@[simp] theorem startTransaction_env (w : WireCmd) (i : Nat) (p : Bool) (s : State) :
    (startTransaction w i p s).env = s.env := rfl
@[simp] theorem startTransaction_cfg (w : WireCmd) (i : Nat) (p : Bool) (s : State) :
    (startTransaction w i p s).cfg = s.cfg := rfl
@[simp] theorem startTransaction_seq (w : WireCmd) (i : Nat) (p : Bool) (s : State) :
    (startTransaction w i p s).seq = { s.seq with orch := .sending, retryCnt := 0 } := rfl
@[simp] theorem startTransaction_regs (w : WireCmd) (i : Nat) (p : Bool) (s : State) :
    (startTransaction w i p s).regs = { s.regs with curCmd := w, curIdx := i, probeMode := p } := rfl
@[simp] theorem startTransaction_tx (w : WireCmd) (i : Nat) (p : Bool) (s : State) :
    (startTransaction w i p s).tx = s.tx := rfl
@[simp] theorem startTransaction_rx (w : WireCmd) (i : Nat) (p : Bool) (s : State) :
    (startTransaction w i p s).rx = s.rx := rfl
@[simp] theorem startTransaction_chk (w : WireCmd) (i : Nat) (p : Bool) (s : State) :
    (startTransaction w i p s).chk = s.chk := rfl
@[simp] theorem startTransaction_hdr (w : WireCmd) (i : Nat) (p : Bool) (s : State) :
    (startTransaction w i p s).hdr = s.hdr := rfl
@[simp] theorem startTransaction_flags (w : WireCmd) (i : Nat) (p : Bool) (s : State) :
    (startTransaction w i p s).flags = s.flags := rfl
@[simp] theorem startTransaction_out (w : WireCmd) (i : Nat) (p : Bool) (s : State) :
    (startTransaction w i p s).out = s.out := rfl

/-! ## enterRetrying -/

@[simp] theorem enterRetrying_env (e : EngineError) (s : State) : (enterRetrying e s).env = s.env := rfl
@[simp] theorem enterRetrying_cfg (e : EngineError) (s : State) : (enterRetrying e s).cfg = s.cfg := rfl
@[simp] theorem enterRetrying_seq (e : EngineError) (s : State) :
    (enterRetrying e s).seq = { s.seq with orch := .retrying, retryPhase := if retriesExhausted s then .exhausted else .entry, retryCnt := if retriesExhausted s then s.seq.retryCnt else s.seq.retryCnt + 1 } := rfl
@[simp] theorem enterRetrying_regs (e : EngineError) (s : State) : (enterRetrying e s).regs = s.regs := rfl
@[simp] theorem enterRetrying_tx (e : EngineError) (s : State) : (enterRetrying e s).tx = s.tx := rfl
@[simp] theorem enterRetrying_rx (e : EngineError) (s : State) : (enterRetrying e s).rx = s.rx := rfl
@[simp] theorem enterRetrying_chk (e : EngineError) (s : State) : (enterRetrying e s).chk = s.chk := rfl
@[simp] theorem enterRetrying_hdr (e : EngineError) (s : State) : (enterRetrying e s).hdr = s.hdr := rfl
@[simp] theorem enterRetrying_flags (e : EngineError) (s : State) :
    (enterRetrying e s).flags = { s.flags with lastErr := some e } := rfl
@[simp] theorem enterRetrying_out (e : EngineError) (s : State) :
    (enterRetrying e s).out = { s.out with record := [] } := rfl

/-! ## endDiscovery -/

@[simp] theorem endDiscovery_env (s : State) : (endDiscovery s).env = s.env := rfl
@[simp] theorem endDiscovery_cfg (s : State) : (endDiscovery s).cfg = s.cfg := rfl
@[simp] theorem endDiscovery_seq (s : State) : (endDiscovery s).seq = { s.seq with orch := .idle } := rfl
@[simp] theorem endDiscovery_regs (s : State) :
    (endDiscovery s).regs = { s.regs with moduleCount := s.seq.discI } := rfl
@[simp] theorem endDiscovery_tx (s : State) : (endDiscovery s).tx = s.tx := rfl
@[simp] theorem endDiscovery_rx (s : State) : (endDiscovery s).rx = s.rx := rfl
@[simp] theorem endDiscovery_chk (s : State) : (endDiscovery s).chk = s.chk := rfl
@[simp] theorem endDiscovery_hdr (s : State) : (endDiscovery s).hdr = s.hdr := rfl
@[simp] theorem endDiscovery_flags (s : State) :
    (endDiscovery s).flags = { s.flags with ready := true, busy := false } := rfl
@[simp] theorem endDiscovery_out (s : State) : (endDiscovery s).out = s.out := rfl

/-! ## probeEmpty -/

@[simp] theorem probeEmpty_env (e : EngineError) (s : State) : (probeEmpty e s).env = s.env := rfl
@[simp] theorem probeEmpty_cfg (e : EngineError) (s : State) : (probeEmpty e s).cfg = s.cfg := rfl
@[simp] theorem probeEmpty_seq (e : EngineError) (s : State) :
    (probeEmpty e s).seq = { s.seq with orch := .idle } := rfl
@[simp] theorem probeEmpty_regs (e : EngineError) (s : State) :
    (probeEmpty e s).regs = { s.regs with moduleCount := s.seq.discI } := rfl
@[simp] theorem probeEmpty_tx (e : EngineError) (s : State) : (probeEmpty e s).tx = s.tx := rfl
@[simp] theorem probeEmpty_rx (e : EngineError) (s : State) : (probeEmpty e s).rx = s.rx := rfl
@[simp] theorem probeEmpty_chk (e : EngineError) (s : State) : (probeEmpty e s).chk = s.chk := rfl
@[simp] theorem probeEmpty_hdr (e : EngineError) (s : State) : (probeEmpty e s).hdr = s.hdr := rfl
@[simp] theorem probeEmpty_flags (e : EngineError) (s : State) :
    (probeEmpty e s).flags = { s.flags with ready := true, busy := false, lastErr := some e } := rfl
@[simp] theorem probeEmpty_out (e : EngineError) (s : State) : (probeEmpty e s).out = s.out := rfl

/-! ## finish -/

@[simp] theorem finish_env (k : ResultKind) (v : ResultValue) (s : State) : (finish k v s).env = s.env := rfl
@[simp] theorem finish_cfg (k : ResultKind) (v : ResultValue) (s : State) : (finish k v s).cfg = s.cfg := rfl
@[simp] theorem finish_seq (k : ResultKind) (v : ResultValue) (s : State) :
    (finish k v s).seq = { s.seq with orch := .done } := rfl
@[simp] theorem finish_regs (k : ResultKind) (v : ResultValue) (s : State) : (finish k v s).regs = s.regs := rfl
@[simp] theorem finish_tx (k : ResultKind) (v : ResultValue) (s : State) : (finish k v s).tx = s.tx := rfl
@[simp] theorem finish_rx (k : ResultKind) (v : ResultValue) (s : State) : (finish k v s).rx = s.rx := rfl
@[simp] theorem finish_chk (k : ResultKind) (v : ResultValue) (s : State) : (finish k v s).chk = s.chk := rfl
@[simp] theorem finish_hdr (k : ResultKind) (v : ResultValue) (s : State) : (finish k v s).hdr = s.hdr := rfl
@[simp] theorem finish_flags (k : ResultKind) (v : ResultValue) (s : State) :
    (finish k v s).flags = { s.flags with resultKind := k, done := true, busy := false } := rfl
@[simp] theorem finish_out (k : ResultKind) (v : ResultValue) (s : State) :
    (finish k v s).out = { s.out with result := v } := rfl

/-! ## toIdle -/

@[simp] theorem toIdle_env (s : State) : (toIdle s).env = s.env := rfl
@[simp] theorem toIdle_cfg (s : State) : (toIdle s).cfg = s.cfg := rfl
@[simp] theorem toIdle_seq (s : State) : (toIdle s).seq = { s.seq with orch := .idle } := rfl
@[simp] theorem toIdle_regs (s : State) : (toIdle s).regs = s.regs := rfl
@[simp] theorem toIdle_tx (s : State) : (toIdle s).tx = s.tx := rfl
@[simp] theorem toIdle_rx (s : State) : (toIdle s).rx = s.rx := rfl
@[simp] theorem toIdle_chk (s : State) : (toIdle s).chk = s.chk := rfl
@[simp] theorem toIdle_hdr (s : State) : (toIdle s).hdr = s.hdr := rfl
@[simp] theorem toIdle_flags (s : State) : (toIdle s).flags = { s.flags with done := false } := rfl
@[simp] theorem toIdle_out (s : State) : (toIdle s).out = s.out := rfl

/-! ## clearForCommand -/

@[simp] theorem clearForCommand_env (s : State) : (clearForCommand s).env = s.env := rfl
@[simp] theorem clearForCommand_cfg (s : State) : (clearForCommand s).cfg = s.cfg := rfl
@[simp] theorem clearForCommand_seq (s : State) : (clearForCommand s).seq = s.seq := rfl
@[simp] theorem clearForCommand_regs (s : State) : (clearForCommand s).regs = s.regs := rfl
@[simp] theorem clearForCommand_tx (s : State) : (clearForCommand s).tx = s.tx := rfl
@[simp] theorem clearForCommand_rx (s : State) : (clearForCommand s).rx = s.rx := rfl
@[simp] theorem clearForCommand_chk (s : State) : (clearForCommand s).chk = s.chk := rfl
@[simp] theorem clearForCommand_hdr (s : State) : (clearForCommand s).hdr = s.hdr := rfl
@[simp] theorem clearForCommand_flags (s : State) :
    (clearForCommand s).flags = { s.flags with resultKind := .nothing, stopSeen := false, lastErr := none, busy := true } := rfl
@[simp] theorem clearForCommand_out (s : State) : (clearForCommand s).out = s.out := rfl

/-! ## latchCommand -/

@[simp] theorem latchCommand_env (c : Cmd) (i : Option Int) (s : State) : (latchCommand c i s).env = s.env := rfl
@[simp] theorem latchCommand_cfg (c : Cmd) (i : Option Int) (s : State) : (latchCommand c i s).cfg = s.cfg := rfl
@[simp] theorem latchCommand_seq (c : Cmd) (i : Option Int) (s : State) : (latchCommand c i s).seq = s.seq := rfl
@[simp] theorem latchCommand_regs (c : Cmd) (i : Option Int) (s : State) :
    (latchCommand c i s).regs = { s.regs with cmd := c, midx := clamp i s.regs.moduleCount } := rfl
@[simp] theorem latchCommand_tx (c : Cmd) (i : Option Int) (s : State) : (latchCommand c i s).tx = s.tx := rfl
@[simp] theorem latchCommand_rx (c : Cmd) (i : Option Int) (s : State) : (latchCommand c i s).rx = s.rx := rfl
@[simp] theorem latchCommand_chk (c : Cmd) (i : Option Int) (s : State) : (latchCommand c i s).chk = s.chk := rfl
@[simp] theorem latchCommand_hdr (c : Cmd) (i : Option Int) (s : State) : (latchCommand c i s).hdr = s.hdr := rfl
@[simp] theorem latchCommand_flags (c : Cmd) (i : Option Int) (s : State) :
    (latchCommand c i s).flags = s.flags := rfl
@[simp] theorem latchCommand_out (c : Cmd) (i : Option Int) (s : State) : (latchCommand c i s).out = s.out := rfl

/-! ## setSnap -/

@[simp] theorem setSnap_env (m : ModuleSnapshot) (l : List ModuleSnapshot) (s : State) :
    (setSnap m l s).env = s.env := rfl
@[simp] theorem setSnap_cfg (m : ModuleSnapshot) (l : List ModuleSnapshot) (s : State) :
    (setSnap m l s).cfg = s.cfg := rfl
@[simp] theorem setSnap_seq (m : ModuleSnapshot) (l : List ModuleSnapshot) (s : State) :
    (setSnap m l s).seq = s.seq := rfl
@[simp] theorem setSnap_regs (m : ModuleSnapshot) (l : List ModuleSnapshot) (s : State) :
    (setSnap m l s).regs = s.regs := rfl
@[simp] theorem setSnap_tx (m : ModuleSnapshot) (l : List ModuleSnapshot) (s : State) :
    (setSnap m l s).tx = s.tx := rfl
@[simp] theorem setSnap_rx (m : ModuleSnapshot) (l : List ModuleSnapshot) (s : State) :
    (setSnap m l s).rx = s.rx := rfl
@[simp] theorem setSnap_chk (m : ModuleSnapshot) (l : List ModuleSnapshot) (s : State) :
    (setSnap m l s).chk = s.chk := rfl
@[simp] theorem setSnap_hdr (m : ModuleSnapshot) (l : List ModuleSnapshot) (s : State) :
    (setSnap m l s).hdr = s.hdr := rfl
@[simp] theorem setSnap_flags (m : ModuleSnapshot) (l : List ModuleSnapshot) (s : State) :
    (setSnap m l s).flags = s.flags := rfl
@[simp] theorem setSnap_out (m : ModuleSnapshot) (l : List ModuleSnapshot) (s : State) :
    (setSnap m l s).out = { s.out with snapM := m, snap := l } := rfl

/-! ## setCursors -/

@[simp] theorem setCursors_env (m : Nat) (q : RoundQuery) (s : State) : (setCursors m q s).env = s.env := rfl
@[simp] theorem setCursors_cfg (m : Nat) (q : RoundQuery) (s : State) : (setCursors m q s).cfg = s.cfg := rfl
@[simp] theorem setCursors_seq (m : Nat) (q : RoundQuery) (s : State) :
    (setCursors m q s).seq = { s.seq with seqM := m, seqQ := q } := rfl
@[simp] theorem setCursors_regs (m : Nat) (q : RoundQuery) (s : State) : (setCursors m q s).regs = s.regs := rfl
@[simp] theorem setCursors_tx (m : Nat) (q : RoundQuery) (s : State) : (setCursors m q s).tx = s.tx := rfl
@[simp] theorem setCursors_rx (m : Nat) (q : RoundQuery) (s : State) : (setCursors m q s).rx = s.rx := rfl
@[simp] theorem setCursors_chk (m : Nat) (q : RoundQuery) (s : State) : (setCursors m q s).chk = s.chk := rfl
@[simp] theorem setCursors_hdr (m : Nat) (q : RoundQuery) (s : State) : (setCursors m q s).hdr = s.hdr := rfl
@[simp] theorem setCursors_flags (m : Nat) (q : RoundQuery) (s : State) : (setCursors m q s).flags = s.flags := rfl
@[simp] theorem setCursors_out (m : Nat) (q : RoundQuery) (s : State) : (setCursors m q s).out = s.out := rfl

/-! ## setDisc -/

@[simp] theorem setDisc_env (i : Nat) (s : State) : (setDisc i s).env = s.env := rfl
@[simp] theorem setDisc_cfg (i : Nat) (s : State) : (setDisc i s).cfg = s.cfg := rfl
@[simp] theorem setDisc_seq (i : Nat) (s : State) : (setDisc i s).seq = { s.seq with discI := i } := rfl
@[simp] theorem setDisc_regs (i : Nat) (s : State) : (setDisc i s).regs = s.regs := rfl
@[simp] theorem setDisc_tx (i : Nat) (s : State) : (setDisc i s).tx = s.tx := rfl
@[simp] theorem setDisc_rx (i : Nat) (s : State) : (setDisc i s).rx = s.rx := rfl
@[simp] theorem setDisc_chk (i : Nat) (s : State) : (setDisc i s).chk = s.chk := rfl
@[simp] theorem setDisc_hdr (i : Nat) (s : State) : (setDisc i s).hdr = s.hdr := rfl
@[simp] theorem setDisc_flags (i : Nat) (s : State) : (setDisc i s).flags = s.flags := rfl
@[simp] theorem setDisc_out (i : Nat) (s : State) : (setDisc i s).out = s.out := rfl

/-! ## setRecord -/

@[simp] theorem setRecord_env (r : Record) (s : State) : (setRecord r s).env = s.env := rfl
@[simp] theorem setRecord_cfg (r : Record) (s : State) : (setRecord r s).cfg = s.cfg := rfl
@[simp] theorem setRecord_seq (r : Record) (s : State) : (setRecord r s).seq = s.seq := rfl
@[simp] theorem setRecord_regs (r : Record) (s : State) : (setRecord r s).regs = s.regs := rfl
@[simp] theorem setRecord_tx (r : Record) (s : State) : (setRecord r s).tx = s.tx := rfl
@[simp] theorem setRecord_rx (r : Record) (s : State) : (setRecord r s).rx = s.rx := rfl
@[simp] theorem setRecord_chk (r : Record) (s : State) : (setRecord r s).chk = s.chk := rfl
@[simp] theorem setRecord_hdr (r : Record) (s : State) : (setRecord r s).hdr = s.hdr := rfl
@[simp] theorem setRecord_flags (r : Record) (s : State) : (setRecord r s).flags = s.flags := rfl
@[simp] theorem setRecord_out (r : Record) (s : State) : (setRecord r s).out = { s.out with record := r } := rfl

/-! ## setGroup -/

@[simp] theorem setGroup_env (g : Nat) (s : State) : (setGroup g s).env = s.env := rfl
@[simp] theorem setGroup_cfg (g : Nat) (s : State) : (setGroup g s).cfg = { s.cfg with group := g } := rfl
@[simp] theorem setGroup_seq (g : Nat) (s : State) : (setGroup g s).seq = s.seq := rfl
@[simp] theorem setGroup_regs (g : Nat) (s : State) : (setGroup g s).regs = s.regs := rfl
@[simp] theorem setGroup_tx (g : Nat) (s : State) : (setGroup g s).tx = s.tx := rfl
@[simp] theorem setGroup_rx (g : Nat) (s : State) : (setGroup g s).rx = s.rx := rfl
@[simp] theorem setGroup_chk (g : Nat) (s : State) : (setGroup g s).chk = s.chk := rfl
@[simp] theorem setGroup_hdr (g : Nat) (s : State) : (setGroup g s).hdr = s.hdr := rfl
@[simp] theorem setGroup_flags (g : Nat) (s : State) : (setGroup g s).flags = s.flags := rfl
@[simp] theorem setGroup_out (g : Nat) (s : State) : (setGroup g s).out = s.out := rfl

/-! ## sampleStop -/

@[simp] theorem sampleStop_env (s : State) : (sampleStop s).env = s.env := by
  unfold sampleStop; split <;> rfl
@[simp] theorem sampleStop_cfg (s : State) : (sampleStop s).cfg = s.cfg := by
  unfold sampleStop; split <;> rfl
@[simp] theorem sampleStop_seq (s : State) : (sampleStop s).seq = s.seq := by
  unfold sampleStop; split <;> rfl
@[simp] theorem sampleStop_regs (s : State) : (sampleStop s).regs = s.regs := by
  unfold sampleStop; split <;> rfl
@[simp] theorem sampleStop_tx (s : State) : (sampleStop s).tx = s.tx := by
  unfold sampleStop; split <;> rfl
@[simp] theorem sampleStop_rx (s : State) : (sampleStop s).rx = s.rx := by
  unfold sampleStop; split <;> rfl
@[simp] theorem sampleStop_chk (s : State) : (sampleStop s).chk = s.chk := by
  unfold sampleStop; split <;> rfl
@[simp] theorem sampleStop_hdr (s : State) : (sampleStop s).hdr = s.hdr := by
  unfold sampleStop; split <;> rfl
@[simp] theorem sampleStop_flags (s : State) :
    (sampleStop s).flags = { s.flags with stopSeen := s.flags.stopSeen || s.env.stop } := by
  cases h : s.env.stop <;> simp [sampleStop, h]
@[simp] theorem sampleStop_out (s : State) : (sampleStop s).out = s.out := by
  unfold sampleStop; split <;> rfl

end Sys2Proof.Machine
end

