-- ==== Sys2Proof/Laws/Exec.lean ====
section
/-!
SUPPORT. What exec is at a state: the accept of a command when the engine is Idle, a step of the transaction while one is in
progress, the way back to Idle from Done, and nothing otherwise; and what decoding a collected frame leaves.
-/

namespace Sys2Proof.Machine

/-! ## exec -/

/-- The seven single commands share one meaning (R252). -/
theorem exec_wire (w : WireCmd) (idx : Option Int) (s : State) :
    exec (Instr.ofCmd (.wire w) idx) s = runSingle w idx s := by
  cases w <;> rfl

/-- An instruction is the instruction of its command and its index. -/
theorem instr_eta (i : Instr) : i = Instr.ofCmd i.cmd i.idx := by
  cases i <;> rfl

/-- A single command in progress takes a step of its transaction. -/
theorem exec_single_running {i : Instr} {w : WireCmd} {s : State} (hi : i.cmd = .wire w)
    (hr : s.flags.ready = true) (hc : s.regs.cmd = .wire w) (ho : inTransaction s.seq.orch = true) :
    exec i s = transactStep w .single s := by
  rw [instr_eta i, hi, exec_wire]
  revert ho
  simp only [runSingle, hr, if_true, hc]
  cases s.seq.orch <;> simp [inTransaction]

/-- A round in progress takes a step of the transaction SEQ_Q names. -/
theorem exec_status_running {i : Instr} {s : State} (hi : i.cmd = .status)
    (hr : s.flags.ready = true) (hc : s.regs.cmd = .status) (ho : inTransaction s.seq.orch = true) :
    exec i s = transactStep s.seq.seqQ.toWire .round s := by
  rw [instr_eta i, hi]
  revert ho
  simp only [Instr.ofCmd, exec, execStatus, runStatus, hr, if_true, hc]
  cases s.seq.orch <;> simp [inTransaction]

/-- The query and the caller of the command in progress. -/
def inProgress (s : State) : WireCmd × Caller :=
  match s.regs.cmd with
  | .wire w => (w, .single)
  | .status => (s.seq.seqQ.toWire, .round)

/-- The command in progress takes a step of its transaction. -/
theorem exec_running {i : Instr} {s : State} (hi : i.cmd = s.regs.cmd) (hr : s.flags.ready = true)
    (ho : inTransaction s.seq.orch = true) : exec i s = transactStep (inProgress s).1 (inProgress s).2 s := by
  cases hc : s.regs.cmd with
  | wire w => rw [exec_single_running (hi.trans hc) hr hc ho]; simp only [inProgress, hc]
  | status => rw [exec_status_running (hi.trans hc) hr hc ho]; simp only [inProgress, hc]

/-- The query and the caller of the transaction in progress: discovery's before READY, then the command's. -/
def running (s : State) : WireCmd × Caller :=
  if s.flags.ready then inProgress s else (.serialnumber, .discovery)

/-- With no input waiting, the step of a transaction in progress is the transaction's. -/
theorem step_running {s : State} (hr : s.env.inReset = false) (hin : s.env.inputs = [])
    (ho : inTransaction s.seq.orch = true) : step s = transactStep (running s).1 (running s).2 s := by
  have he : step s = if s.flags.ready then exec (latched s) s else transactStep .serialnumber .discovery s := by
    simp only [step, machineStep, hin, engineStep, hr]
    revert ho
    cases s.seq.orch <;> simp [inTransaction]
  have hl : (latched s).cmd = s.regs.cmd := by
    rcases hc : s.regs.cmd with (w | _) <;> (try cases w) <;> simp [latched, hc, Instr.ofCmd, Instr.cmd]
  rw [he, running]
  cases hf : s.flags.ready with
  | true => simp only [if_true]; exact exec_running hl hf ho
  | false => rfl

/-- exec of the command in progress is a step of the transaction in progress. -/
theorem exec_eq_running {i : Instr} {s : State} (hi : i.cmd = s.regs.cmd) (hr : s.flags.ready = true)
    (ho : inTransaction s.seq.orch = true) : exec i s = transactStep (running s).1 (running s).2 s := by
  rw [exec_running hi hr ho, running, if_pos hr]

/-! ## Decoding -/

/-- Decoding an answer writes the codec and the decoder registers and nothing else (R152, R190). -/
theorem decodeAnswer_frame (w : WireCmd) (s : State) :
    ∃ k h, (decodeAnswer w s).1 = { s with chk := k, hdr := h } := by
  unfold decodeAnswer
  rcases decodeFrame s.frame s.chk with ⟨k, _ | b⟩
  · exact ⟨k, s.hdr, rfl⟩
  · exact ⟨k, _, rfl⟩

/-- The errors of decoding are the four decode errors, recoverable all (R245, R290). -/
theorem decodeAnswer_errors {w : WireCmd} {s : State} {e : EngineError} (h : (decodeAnswer w s).2 = .error e) :
    e.recoverable = true ∧ e ≠ .transportTimeout := by
  unfold decodeAnswer at h
  rcases hd : decodeFrame s.frame s.chk with ⟨k, x | b⟩ <;> rw [hd] at h
  · cases h
    rcases decodeFrame_errors _ _ e (by rw [hd]) with ⟨r, rfl⟩ | ⟨c, d, rfl⟩ <;> exact ⟨rfl, nofun⟩
  · simp only [decodeResponse] at h
    rcases hh : decodeHeader b s.hdr with ⟨h', x | p⟩ <;> rw [hh] at h
    · cases h; exact ⟨rfl, nofun⟩
    · rcases hp : decodePayload s.cfg w h' p (headerRecord h' p) with ⟨x, cur⟩ | ⟨r, cur⟩ <;> simp only [hp] at h
      · cases h; exact ⟨rfl, nofun⟩
      · cases h

/-- Decoding into RECORD writes RECORD besides: the record on success, nothing or what was there on an error (R190). -/
theorem decodeIntoRecord_frame (w : WireCmd) (s : State) :
    ∃ k h r, (decodeIntoRecord w s).1 = { s with chk := k, hdr := h, out := { s.out with record := r } }
      ∧ (∀ r', (decodeIntoRecord w s).2 = .ok r' → r = r')
      ∧ ∀ e, (decodeIntoRecord w s).2 = .error e →
        (r = [] ∨ r = s.out.record) ∧ e.recoverable = true ∧ e ≠ .transportTimeout := by
  obtain ⟨k, h, hk⟩ := decodeAnswer_frame w s
  have herr := @decodeAnswer_errors w s
  unfold decodeIntoRecord
  rcases hd : decodeAnswer w s with ⟨s', x | r⟩ <;> rw [hd] at hk herr <;> replace hk : s' = _ := hk <;> subst hk
  · cases x with
    | header e => exact ⟨k, h, [], rfl, nofun, fun e' he => ⟨.inl rfl, herr he⟩⟩
    | payloadFormat v n e => exact ⟨k, h, [], rfl, nofun, fun e' he => ⟨.inl rfl, herr he⟩⟩
    | transportTimeout => exact ⟨k, h, s.out.record, rfl, nofun, fun e' he => ⟨.inr rfl, herr he⟩⟩
    | framing r => exact ⟨k, h, s.out.record, rfl, nofun, fun e' he => ⟨.inr rfl, herr he⟩⟩
    | checksum c d => exact ⟨k, h, s.out.record, rfl, nofun, fun e' he => ⟨.inr rfl, herr he⟩⟩
    | protocolMisuse n => exact ⟨k, h, s.out.record, rfl, nofun, fun e' he => ⟨.inr rfl, herr he⟩⟩
  · exact ⟨k, h, r, rfl, fun r' hr => by cases hr; rfl, nofun⟩

/-- Decoding a frame that the codec and the header decoder accept (R190, R245). -/
theorem decodeIntoRecord_accepted {w : WireCmd} {s : State} {k : Chk} {h : Hdr} {body p : List Byte}
    (hd : decodeFrame s.frame s.chk = (k, .ok body)) (hh : decodeHeader body s.hdr = (h, .ok p)) :
    decodeIntoRecord w s =
      match decodePayload s.cfg w h p (headerRecord h p) with
      | .error (e, cur) =>
        (setRecord [] { s with chk := k, hdr := { h with cursor := cur } }, .error (.payloadFormat w p.length e))
      | .ok (r, cur) => (setRecord r { s with chk := k, hdr := { h with cursor := cur } }, .ok r) := by
  simp only [decodeIntoRecord, decodeAnswer, hd, decodeResponse, hh]
  cases decodePayload s.cfg w h p (headerRecord h p) with
  | error e => rfl
  | ok x => rfl

/-- The answer of a single command that decodes ends it (R247, R252). -/
theorem exec_answered {i : Instr} {w : WireCmd} {s : State} {k : Chk} {h : Hdr} {body p : List Byte} {r : Record}
    {cur : Nat} (hi : i.cmd = .wire w) (hr : s.flags.ready = true) (hc : s.regs.cmd = .wire w)
    (ho : s.seq.orch = .decoding) (hd : decodeFrame s.frame s.chk = (k, .ok body))
    (hh : decodeHeader body s.hdr = (h, .ok p))
    (hp : decodePayload s.cfg w h p (headerRecord h p) = .ok (r, cur)) :
    exec i s =
      .next (finish .record (.record (strip r))
        (setRecord r { s with chk := k, hdr := { h with cursor := cur } })) := by
  rw [exec_single_running hi hr hc (by rw [ho]; rfl)]
  simp only [transactStep, ho, decodingStep, decodeIntoRecord_accepted hd hh, hp, transactOk]

end Sys2Proof.Machine
end

