-- ==== Sys2Proof/Laws/Transport.lean ====
section
/-!
SUPPORT. What each step of the Transport does, case by case (spec/40_transport.md R121 to R126, spec/20_memory.md R61), and
everything a step of `send` and of `receive_frame` can answer.
-/

namespace Sys2Proof.Machine

/-! ## RXFIFO -/

/-- What is kept at an overflow is some of the bytes, in order (R61). -/
theorem keepFrom_sublist (keep : Nat → Bool) (k : Nat) (l : List Byte) : (keepFrom keep k l).Sublist l := by
  induction l generalizing k with
  | nil => exact List.Sublist.refl _
  | cons b bs ih =>
    simp only [keepFrom]
    split
    · exact (ih _).cons_cons b
    · exact (ih _).cons b

/-- Everything a received character can do (R61, R122): nothing while the receiver is off; otherwise a queue of the old
bytes and the new one, whole when it fits, some of them and no more than the depth when it does not. -/
theorem receiveByte_cases (b : Byte) (s : State) :
    ((s.tx.de = true ∨ s.env.inReset = true) ∧ receiveByte b s = s)
      ∨ (s.tx.de = false ∧ s.env.inReset = false
        ∧ ∃ q n, receiveByte b s = { s with rx := { s.rx with fifo := q }, env := { s.env with freeCtr := n } }
          ∧ q.Sublist (s.rx.fifo ++ [b])
          ∧ ∀ d, s.cfg.rxfifoDepth = some d → (s.rx.fifo.length ≤ d → q.length ≤ d)) := by
  unfold receiveByte
  cases hde : s.tx.de <;> cases hr : s.env.inReset <;> simp only [Bool.or_false, Bool.or_true, if_true]
  · right
    refine ⟨trivial, trivial, ?_⟩
    cases hd : s.cfg.rxfifoDepth with
    | none => exact ⟨_, s.env.freeCtr, rfl, List.Sublist.refl _, fun d h => by cases h⟩
    | some d =>
      by_cases hl : s.rx.fifo.length < d
      · refine ⟨s.rx.fifo ++ [b], s.env.freeCtr, by simp [hl], List.Sublist.refl _, fun e he _ => ?_⟩
        cases he
        simp only [List.length_append, List.length_cons, List.length_nil]
        omega
      · refine ⟨_, s.env.freeCtr + 1, by simp only [hl, if_false]; rfl,
          (List.take_sublist _ _).trans (keepFrom_sublist _ _ _), fun e he _ => ?_⟩
        cases he
        exact List.length_take_le _ _
  · left; exact ⟨.inr trivial, trivial⟩
  · left; exact ⟨.inl trivial, trivial⟩
  · left; exact ⟨.inl trivial, trivial⟩

/-! ## send (R121) -/

theorem sendStep_idle {f : List Byte} {s : State} (h : s.tx.de = false) : sendStep f s = (false, sendStart f s) := by
  simp only [sendStep, h, Bool.not_false, if_true]

theorem sendStep_shift {f : List Byte} {s : State} (h : s.tx.de = true) (hp : s.tx.pos < s.tx.len) :
    sendStep f s = (false, sendShift s) := by
  simp only [sendStep, h, Bool.not_true, Bool.false_eq_true, if_false, hp, if_true]

theorem sendStep_flush {f : List Byte} {s : State} (h : s.tx.de = true) (hp : s.tx.len ≤ s.tx.pos) :
    sendStep f s = (true, sendFlush s) := by
  simp only [sendStep, h, Bool.not_true, Bool.false_eq_true, if_false, Nat.not_lt.mpr hp]

/-- A step of a query's send that loads TXBUF (R242). -/
theorem sendQueryStep_idle {w : WireCmd} {i : Nat} {s : State} (h : s.tx.de = false) :
    sendQueryStep w i s =
      (false, sendStart (encodeFrame (queryBody s.cfg w i)) { s with
        chk := { s.chk with acc := chkAcc (queryBody s.cfg w i) } }) := by
  simp only [sendQueryStep, h, Bool.false_eq_true, if_false]
  exact sendStep_idle h

theorem sendQueryStep_shift {w : WireCmd} {i : Nat} {s : State} (h : s.tx.de = true) (hp : s.tx.pos < s.tx.len) :
    sendQueryStep w i s = (false, sendShift s) := by
  simp only [sendQueryStep, h, if_true, sendStep_shift h hp]

theorem sendQueryStep_flush {w : WireCmd} {i : Nat} {s : State} (h : s.tx.de = true) (hp : s.tx.len ≤ s.tx.pos) :
    sendQueryStep w i s = (true, sendFlush s) := by
  simp only [sendQueryStep, h, if_true, sendStep_flush h hp]

/-- Everything a step of a query's send can do. -/
theorem sendQueryStep_cases (w : WireCmd) (i : Nat) (s : State) :
    (s.tx.de = false ∧ sendQueryStep w i s =
        (false, sendStart (encodeFrame (queryBody s.cfg w i)) { s with
          chk := { s.chk with acc := chkAcc (queryBody s.cfg w i) } }))
      ∨ (s.tx.de = true ∧ s.tx.pos < s.tx.len ∧ sendQueryStep w i s = (false, sendShift s))
      ∨ (s.tx.de = true ∧ s.tx.len ≤ s.tx.pos ∧ sendQueryStep w i s = (true, sendFlush s)) := by
  cases h : s.tx.de with
  | false => exact .inl ⟨rfl, sendQueryStep_idle h⟩
  | true =>
    by_cases hp : s.tx.pos < s.tx.len
    · exact .inr (.inl ⟨rfl, hp, sendQueryStep_shift h hp⟩)
    · exact .inr (.inr ⟨rfl, by omega, sendQueryStep_flush h (by omega)⟩)

/-! ## The hunt step (R125) -/

theorem huntStep_expired {s : State} (h : s.rx.deadlineAt ≤ s.env.now) : huntStep s = (.noFrame, setRx .off s) := by
  simp only [huntStep, h, if_true]

theorem huntStep_empty {s : State} (h : s.env.now < s.rx.deadlineAt) (hf : s.rx.fifo = []) :
    huntStep s = (.waiting, advance s.cfg.pollInterval s) := by
  simp only [huntStep, Nat.not_le.mpr h, if_false, hf]

theorem huntStep_noise {s : State} {b : Byte} {rest : List Byte} (h : s.env.now < s.rx.deadlineAt)
    (hf : s.rx.fifo = b :: rest) (hb : b ≠ startMarker) : huntStep s = (.waiting, fifoRest rest s) := by
  simp only [huntStep, Nat.not_le.mpr h, if_false, hf, hb]

theorem huntStep_start {s : State} {rest : List Byte} (h : s.env.now < s.rx.deadlineAt)
    (hf : s.rx.fifo = startMarker :: rest) :
    huntStep s = (.waiting, setRx .collect (frameStart startMarker (fifoRest rest s))) := by
  simp only [huntStep, Nat.not_le.mpr h, if_false, hf, if_true]

/-- Everything the hunt step can do. -/
theorem huntStep_cases (s : State) :
    (s.rx.deadlineAt ≤ s.env.now ∧ huntStep s = (.noFrame, setRx .off s))
      ∨ (s.env.now < s.rx.deadlineAt ∧ s.rx.fifo = [] ∧ huntStep s = (.waiting, advance s.cfg.pollInterval s))
      ∨ (∃ b rest, s.env.now < s.rx.deadlineAt ∧ s.rx.fifo = b :: rest ∧ b ≠ startMarker
        ∧ huntStep s = (.waiting, fifoRest rest s))
      ∨ ∃ rest, s.env.now < s.rx.deadlineAt ∧ s.rx.fifo = startMarker :: rest
        ∧ huntStep s = (.waiting, setRx .collect (frameStart startMarker (fifoRest rest s))) := by
  by_cases h : s.rx.deadlineAt ≤ s.env.now
  · exact .inl ⟨h, huntStep_expired h⟩
  · have h' : s.env.now < s.rx.deadlineAt := by omega
    cases hf : s.rx.fifo with
    | nil => exact .inr (.inl ⟨h', rfl, huntStep_empty h' hf⟩)
    | cons b rest =>
      by_cases hb : b = startMarker
      · subst hb; exact .inr (.inr (.inr ⟨rest, h', rfl, huntStep_start h' hf⟩))
      · exact .inr (.inr (.inl ⟨b, rest, h', rfl, hb, huntStep_noise h' hf hb⟩))

/-! ## The collect step (R126) -/

theorem collectStep_end {s : State} {rest : List Byte} (hf : s.rx.fifo = endMarker :: rest) :
    collectStep s = (.frame, setRx .off (frameAppend endMarker (fifoRest rest s))) := by
  simp only [collectStep, hf, if_true]

theorem collectStep_full {s : State} {b : Byte} {rest : List Byte} (hf : s.rx.fifo = b :: rest)
    (hd : s.cfg.framebufDepth = some (s.rx.frameLen + 1)) :
    collectStep s = (.frame, setRx .off (frameAppend b (fifoRest rest s))) := by
  have hl : some (frameAppend b (fifoRest rest s)).rx.frameLen = s.cfg.framebufDepth := hd.symm
  simp only [collectStep, hf, hl, if_true]
  split <;> rfl

theorem collectStep_more {s : State} {b : Byte} {rest : List Byte} (hf : s.rx.fifo = b :: rest)
    (hb : b ≠ endMarker) (hd : s.cfg.framebufDepth ≠ some (s.rx.frameLen + 1)) :
    collectStep s = (.waiting, frameAppend b (fifoRest rest s)) := by
  have hl : ¬ some (frameAppend b (fifoRest rest s)).rx.frameLen = s.cfg.framebufDepth := fun h => hd h.symm
  simp only [collectStep, hf, hb, if_false, hl]

theorem collectStep_idle {s : State} (hf : s.rx.fifo = []) (h : s.cfg.idleTimeout ≤ s.env.now - s.rx.lastByteAt) :
    collectStep s = (.frame, setRx .off s) := by
  simp only [collectStep, hf, h, if_true]

theorem collectStep_wait {s : State} (hf : s.rx.fifo = []) (h : s.env.now - s.rx.lastByteAt < s.cfg.idleTimeout) :
    collectStep s = (.waiting, advance s.cfg.pollInterval s) := by
  simp only [collectStep, hf, Nat.not_le.mpr h, if_false]

/-- Everything the collect step can do. -/
theorem collectStep_cases (s : State) :
    (∃ b rest, s.rx.fifo = b :: rest ∧ (b = endMarker ∨ s.cfg.framebufDepth = some (s.rx.frameLen + 1))
        ∧ collectStep s = (.frame, setRx .off (frameAppend b (fifoRest rest s))))
      ∨ (∃ b rest, s.rx.fifo = b :: rest ∧ b ≠ endMarker ∧ s.cfg.framebufDepth ≠ some (s.rx.frameLen + 1)
        ∧ collectStep s = (.waiting, frameAppend b (fifoRest rest s)))
      ∨ (s.rx.fifo = [] ∧ s.cfg.idleTimeout ≤ s.env.now - s.rx.lastByteAt ∧ collectStep s = (.frame, setRx .off s))
      ∨ (s.rx.fifo = [] ∧ s.env.now - s.rx.lastByteAt < s.cfg.idleTimeout
        ∧ collectStep s = (.waiting, advance s.cfg.pollInterval s)) := by
  cases hf : s.rx.fifo with
  | cons b rest =>
    by_cases hb : b = endMarker
    · subst hb; exact .inl ⟨_, rest, rfl, .inl rfl, collectStep_end hf⟩
    · by_cases hd : s.cfg.framebufDepth = some (s.rx.frameLen + 1)
      · exact .inl ⟨b, rest, rfl, .inr hd, collectStep_full hf hd⟩
      · exact .inr (.inl ⟨b, rest, rfl, hb, hd, collectStep_more hf hb hd⟩)
  | nil =>
    by_cases h : s.cfg.idleTimeout ≤ s.env.now - s.rx.lastByteAt
    · exact .inr (.inr (.inl ⟨rfl, h, collectStep_idle hf h⟩))
    · exact .inr (.inr (.inr ⟨rfl, by omega, collectStep_wait hf (by omega)⟩))

/-! ## What a step of receive_frame leaves alone (R123) -/

/-- A step of `receive_frame` writes the receive side and the clock; it returns exactly with RX_STATE = RX_OFF, returns
None only from the hunt and a frame only from the collect. -/
theorem receiveStep_frame (d : Nat) (s : State) :
    ∃ rx now, (receiveStep d s).2 = { s with rx := rx, env := { s.env with now := now } } ∧ s.env.now ≤ now
      ∧ ((receiveStep d s).1 ≠ .waiting ↔ rx.state = .off)
      ∧ ((receiveStep d s).1 = .noFrame → s.rx.state = .hunt ∧ rx = { s.rx with state := .off } ∧ now = s.env.now)
      ∧ ((receiveStep d s).1 = .frame → s.rx.state = .collect) := by
  cases hx : s.rx.state with
  | off => exact ⟨_, s.env.now, by simp only [receiveStep, hx]; rfl, Nat.le_refl _, by simp [receiveStep, hx]⟩
  | hunt =>
    simp only [receiveStep, hx]
    rcases huntStep_cases s with ⟨_, e⟩ | ⟨_, _, e⟩ | ⟨b, rest, _, _, _, e⟩ | ⟨rest, _, _, e⟩ <;> rw [e]
    · exact ⟨_, s.env.now, rfl, Nat.le_refl _, iff_of_true nofun rfl, fun _ => ⟨trivial, rfl, rfl⟩, fun h => by cases h⟩
    · exact ⟨s.rx, _, rfl, Nat.le_add_right _ _, iff_of_false (fun h => h rfl) (by simp [hx]), fun h => by (cases h), fun h => by cases h⟩
    · exact ⟨_, s.env.now, rfl, Nat.le_refl _, iff_of_false (fun h => h rfl) (by simp [hx]), fun h => by (cases h), fun h => by cases h⟩
    · exact ⟨_, s.env.now, rfl, Nat.le_refl _, iff_of_false (fun h => h rfl) (by simp [hx]), fun h => by (cases h), fun h => by cases h⟩
  | collect =>
    simp only [receiveStep, hx]
    rcases collectStep_cases s with ⟨b, rest, _, _, e⟩ | ⟨b, rest, _, _, _, e⟩ | ⟨_, _, e⟩ | ⟨_, _, e⟩ <;> rw [e]
    · exact ⟨_, s.env.now, rfl, Nat.le_refl _, iff_of_true nofun rfl, fun h => by (cases h), fun _ => trivial⟩
    · exact ⟨_, s.env.now, rfl, Nat.le_refl _, iff_of_false (fun h => h rfl) (by simp [hx]), fun h => by (cases h), fun h => by cases h⟩
    · exact ⟨_, s.env.now, rfl, Nat.le_refl _, iff_of_true nofun rfl, fun h => by (cases h), fun _ => trivial⟩
    · exact ⟨s.rx, _, rfl, Nat.le_add_right _ _, iff_of_false (fun h => h rfl) (by simp [hx]), fun h => by (cases h), fun h => by cases h⟩

end Sys2Proof.Machine
end

