-- ==== Sys2Proof/Laws/Effect.lean ====
section
/-!
SUPPORT. What exec can do to ORCH_STATE, LAST_ERR and MODULE_COUNT (spec/44_orchestrator.md R251, R264, spec/60_exceptions.md
R296, R297).
-/

namespace Sys2Proof.Machine

/-- What a move does to ORCH_STATE, to LAST_ERR (with RESULT_KIND, RESULT and DONE) and to MODULE_COUNT and READY; `d`
says that it may be a move of discovery. -/
structure Eff (d : Bool) (s t : State) : Prop where
  trans : transitionOk s.seq.orch t.seq.orch = true
  err : t.flags.lastErr = s.flags.lastErr ∨ t.flags.lastErr = none ∨ ∃ e, t.flags.lastErr = some e ∧ e.recoverable = true ∧ t.flags.resultKind = s.flags.resultKind ∧ t.out.result = s.out.result ∧ t.flags.done = s.flags.done
  count : d = true ∨ (s.regs.probeMode = true ∧ inTransaction s.seq.orch = true) ∨ (t.regs.moduleCount = s.regs.moduleCount ∧ t.flags.ready = s.flags.ready)

/-- Staying where it is. -/
theorem trans_refl (a) : transitionOk a a = true := by cases a <;> rfl

/-- A move that writes neither LAST_ERR nor the count. -/
theorem eff_of {d s t} (h : transitionOk s.seq.orch t.seq.orch = true) (e : t.flags.lastErr = s.flags.lastErr)
    (c : t.regs.moduleCount = s.regs.moduleCount) (r : t.flags.ready = s.flags.ready) : Eff d s t :=
  ⟨h, .inl e, .inr (.inr ⟨c, r⟩)⟩

/-- A failed transaction (R246, R296). -/
theorem eff_fail {d s u e} (hs : s.seq.orch = .awaiting ∨ s.seq.orch = .decoding) (he : e.recoverable = true)
    (hf : u.flags = s.flags) (hr : u.regs = s.regs) (ho : u.out.result = s.out.result) : Eff d s
    (failTransaction e u) := by
  unfold failTransaction
  split
  · rename_i hp
    rw [hr] at hp
    refine ⟨?_, .inr (.inr ⟨e, rfl, he, ?_, ho, ?_⟩), .inr (.inl ⟨hp, by rcases hs with h | h <;> rw [h] <;> rfl⟩)⟩
    · rcases hs with h | h <;> rw [h] <;> rfl
    · simp [probeEmpty, endDiscovery, hf]
    · simp [probeEmpty, endDiscovery, hf]
  · refine ⟨?_, .inr (.inr ⟨e, rfl, he, ?_, ho, ?_⟩), .inr (.inr ⟨?_, ?_⟩)⟩
    · rcases hs with h | h <;> rw [h] <;> rfl
    · simp [enterRetrying, hf]
    · simp [enterRetrying, hf]
    · simp [enterRetrying, hr]
    · simp [enterRetrying, hf]

/-- A cancelled one. -/
theorem eff_cancel {d s u k} (h : transitionOk s.seq.orch .done = true) (e : u.flags.lastErr = s.flags.lastErr)
    (c : u.regs.moduleCount = s.regs.moduleCount) (r : u.flags.ready = s.flags.ready) : Eff d s
    (transactCancelled k u) := by
  cases k <;> exact eff_of h e c r

/-- The next query of a round. -/
theorem eff_roundQuery {d s u m q} (h1 : transitionOk s.seq.orch .done = true) (h2 : transitionOk s.seq.orch
    .sending = true) (e : u.flags.lastErr = s.flags.lastErr) (c : u.regs.moduleCount = s.regs.moduleCount) (r :
    u.flags.ready = s.flags.ready) : Eff d s (roundQuery m q u) := by
  unfold roundQuery
  simp only
  split
  · exact eff_of h1 (by simp [cancelRound, e]) (by simp [cancelRound, c]) (by simp [cancelRound, r])
  · exact eff_of h2 (by simp [startTransaction, e]) (by simp [startTransaction, c]) (by simp [startTransaction, r])

/-- The end of a round. -/
theorem eff_complete {d s u t} (h1 : transitionOk s.seq.orch .done = true) (e : u.flags.lastErr =
    s.flags.lastErr) (c : u.regs.moduleCount = s.regs.moduleCount) (r : u.flags.ready = s.flags.ready) (h :
    completeRound u = .next t) : Eff d s t := by
  unfold completeRound at h
  split at h
  · cases h
  · cases h; exact eff_of h1 e c r

/-- The head of the loop of discovery. -/
theorem eff_loop {s u} (h1 : transitionOk s.seq.orch .idle = true) (h2 : transitionOk s.seq.orch .sending =
    true) (e : u.flags.lastErr = s.flags.lastErr) : Eff true s (discoverLoop u) := by
  unfold discoverLoop
  split
  · simp only
    split
    · exact ⟨h1, .inl (by simp [endDiscovery, e]), .inl rfl⟩
    · exact ⟨h2, .inl (by simp [startTransaction, e]), .inl rfl⟩
  · exact ⟨h1, .inl (by simp [endDiscovery, e]), .inl rfl⟩

/-- The caller is discovery. -/
def isD (k : Caller) : Bool := match k with | .discovery => true | _ => false

/-- A step of a transaction. -/
theorem eff_transact {k w s t} (h : transactStep w k s = .next t) : Eff (isD k) s t := by
  unfold transactStep at h
  have hid : Eff (isD k) s s := eff_of (trans_refl _) rfl rfl rfl
  cases ho : s.seq.orch <;> rw [ho] at h <;> simp only at h
  · cases h; exact hid
  · cases h; exact hid
  · cases h
    unfold sendingStep
    rcases sendQueryStep_cases w s.regs.curIdx s with ⟨hd, e⟩ | ⟨hd, hp, e⟩ | ⟨hd, hp, e⟩ <;> rw [e]
    · exact eff_of (trans_refl _) rfl rfl rfl
    · exact eff_of (trans_refl _) rfl rfl rfl
    · exact eff_of (by rw [ho]; rfl) rfl rfl rfl
  · cases h
    unfold awaitingStep
    obtain ⟨rx, now, e, -⟩ := receiveStep_frame (deadlineOf s.cfg w) s
    rcases hx : receiveStep (deadlineOf s.cfg w) s with ⟨a, u⟩
    rw [hx] at e; simp only at e; subst e
    cases a
    · exact eff_of (trans_refl _) rfl rfl rfl
    · exact eff_fail (.inl ho) rfl rfl rfl rfl
    · exact eff_of (by rw [ho]; rfl) rfl rfl rfl
  · unfold decodingStep at h
    obtain ⟨kk, hh, r, e, hok, herr⟩ := decodeIntoRecord_frame w s
    rcases hx : decodeIntoRecord w s with ⟨u, x | x⟩ <;> rw [hx] at e h herr <;> simp only at e h herr <;> subst e
    · cases h
      exact eff_fail (.inr ho) (herr x rfl).2.1 rfl rfl rfl
    · cases k with
      | single => cases h; exact eff_of (by rw [ho]; rfl) rfl rfl rfl
      | discovery => cases h; exact eff_loop (by rw [ho]; rfl) (by rw [ho]; rfl) rfl
      | round =>
        simp only [transactOk, roundOk] at h
        split at h
        · cases h; exact eff_roundQuery (by rw [ho]; rfl) (by rw [ho]; rfl) rfl rfl rfl
        · split at h
          · cases h; exact eff_roundQuery (by rw [ho]; rfl) (by rw [ho]; rfl) rfl rfl rfl
          · exact eff_complete (by rw [ho]; rfl) (by rfl) (by rfl) (by rfl) h
  · cases h
    have hc : Eff (isD k) s (transactCancelled k (sampleStop s)) := eff_cancel (by rw [ho]; rfl) (by simp) (by simp) (by simp)
    have hp : ∀ p, Eff (isD k) s (setRetryPhase p s) := fun p => eff_of (trans_refl _) rfl rfl rfl
    unfold retryingStep
    cases s.seq.retryPhase <;> simp only
    · unfold retryEntry
      split
      · exact hc
      · exact eff_of (trans_refl _) rfl rfl rfl
    · exact eff_cancel (by rw [ho]; rfl) rfl rfl rfl
    · unfold retryTest
      split
      · exact eff_of (trans_refl _) rfl rfl rfl
      · exact hp _
    · rcases sendQueryStep_cases .protocol 0 s with ⟨hd, e⟩ | ⟨hd, hp, e⟩ | ⟨hd, hp, e⟩ <;> rw [e]
      · exact eff_of (trans_refl _) rfl rfl rfl
      · exact eff_of (trans_refl _) rfl rfl rfl
      · exact eff_of (trans_refl _) rfl rfl rfl
    · obtain ⟨rx, now, e, -⟩ := receiveStep_frame s.cfg.deadlineFast s
      rcases hx : receiveStep s.cfg.deadlineFast s with ⟨a, u⟩
      rw [hx] at e; simp only at e; subst e
      cases a
      · exact eff_of (trans_refl _) rfl rfl rfl
      · exact eff_of (trans_refl _) rfl rfl rfl
      · exact eff_of (trans_refl _) rfl rfl rfl
    · obtain ⟨kk, hh, e⟩ := decodeAnswer_frame .protocol s
      unfold probeDecodeStep
      rcases hd : decodeAnswer .protocol s with ⟨u, x | x⟩ <;> rw [hd] at e <;> simp only at e <;> subst e
      · exact eff_of (trans_refl _) rfl rfl rfl
      · exact eff_of (trans_refl _) rfl rfl rfl
    · unfold retryFailed
      split
      · exact hc
      · exact hp _
    · unfold retryLeave
      split
      · exact hc
      · exact eff_of (by rw [ho]; rfl) rfl rfl rfl
  · cases h; exact hid

/-- The end of a command at its accept. -/
theorem eff_finishNone {d s u k v} (h : transitionOk s.seq.orch .done = true) (e : u.flags.lastErr = none) (c :
    u.regs.moduleCount = s.regs.moduleCount) (r : u.flags.ready = s.flags.ready) : Eff d s (finish k v u) :=
  ⟨h, .inr (.inl e), .inr (.inr ⟨c, r⟩)⟩

/-- Everything exec does to ORCH_STATE, LAST_ERR and the count. -/
theorem eff_exec {i s t} (h : exec i s = .next t) : Eff false s t := by
  have hid : Eff false s s := eff_of (trans_refl _) rfl rfl rfl
  rw [instr_eta i] at h
  cases hc : i.cmd with
  | wire w =>
    rw [hc, exec_wire] at h
    unfold runSingle at h
    split at h
    · cases ho : s.seq.orch <;> rw [ho] at h <;> simp only at h
      · cases h; exact hid
      · cases h
        unfold acceptSingle
        simp only
        split
        · exact eff_finishNone (by rw [ho]; rfl) (by simp [acceptCommand, latchCommand, clearForCommand]) (by simp [acceptCommand, latchCommand, clearForCommand]) (by simp [acceptCommand, latchCommand, clearForCommand])
        · exact ⟨by rw [ho]; rfl, .inr (.inl (by simp [startTransaction, acceptCommand, latchCommand, clearForCommand])), .inr (.inr ⟨by simp [startTransaction, acceptCommand, latchCommand, clearForCommand], by simp [startTransaction, acceptCommand, latchCommand, clearForCommand]⟩)⟩
      all_goals (split at h)
      all_goals first
       | exact eff_transact h
       | (cases h; first | exact hid | exact eff_of (by rw [ho]; rfl) rfl rfl rfl)
    · cases h; exact hid
  | status =>
    rw [hc] at h
    simp only [Instr.ofCmd, exec, execStatus] at h
    unfold runStatus at h
    split at h
    · cases ho : s.seq.orch <;> rw [ho] at h <;> simp only at h
      · cases h; exact hid
      · unfold acceptStatus at h
        simp only at h
        split at h
        · cases h
          exact eff_finishNone (by rw [ho]; rfl) (by simp [acceptCommand, latchCommand, clearForCommand]) (by simp [acceptCommand, latchCommand, clearForCommand]) (by simp [acceptCommand, latchCommand, clearForCommand])
        · unfold startRound at h
          simp only at h
          split at h
          · unfold completeRound at h
            split at h
            · cases h
            · cases h
              exact eff_finishNone (by rw [ho]; rfl) (by simp [acceptCommand, latchCommand, clearForCommand]) (by simp [acceptCommand, latchCommand, clearForCommand]) (by simp [acceptCommand, latchCommand, clearForCommand])
          · cases h
            unfold roundQuery
            simp only
            split
            · exact eff_finishNone (by rw [ho]; rfl) (by simp [acceptCommand, latchCommand, clearForCommand]) (by simp [acceptCommand, latchCommand, clearForCommand]) (by simp [acceptCommand, latchCommand, clearForCommand])
            · exact ⟨by rw [ho]; rfl, .inr (.inl (by simp [startTransaction, acceptCommand, latchCommand, clearForCommand])), .inr (.inr ⟨by simp [startTransaction, acceptCommand, latchCommand, clearForCommand], by simp [startTransaction, acceptCommand, latchCommand, clearForCommand]⟩)⟩
      all_goals (split at h)
      all_goals first
       | exact eff_transact h
       | (cases h; first | exact hid | exact eff_of (by rw [ho]; rfl) rfl rfl rfl)
    · cases h; exact hid

end Sys2Proof.Machine
end

