-- ==== Sys2Proof/Laws/Records.lean ====
section
/-!
SUPPORT. Records (spec/10_state.md R31, R32): what a write of a field leaves to be read, that a write keeps a record in its
form, and that stripping a record leaves every other field (spec/44_orchestrator.md R247).
-/

namespace Sys2Proof.Machine

theorem fieldOrder_inj {f g : Field} (h : fieldOrder f = fieldOrder g) : f = g := by
  rw [← Field.ofNat_ctorIdx f, ← Field.ofNat_ctorIdx g]
  exact congrArg Field.ofNat h

theorem fieldOrder_lt_of_not {f g : Field} (h : ¬ fieldOrder f < fieldOrder g) (hne : f ≠ g) :
    fieldOrder g < fieldOrder f := by
  have hn : fieldOrder f ≠ fieldOrder g := fun e => hne (fieldOrder_inj e)
  omega

/-! ## Read after write -/

theorem Record.get?_set_self (f : Field) (v : Value) (r : Record) : Record.get? f (Record.set f v r) = some v := by
  induction r with
  | nil => simp [Record.set, Record.get?]
  | cons e r ih =>
    obtain ⟨g, w⟩ := e
    simp only [Record.set]
    split
    · simp [Record.get?]
    · split
      · simp [Record.get?]
      · rename_i hne
        have hg : g ≠ f := fun e => hne e.symm
        simp only [Record.get?, hg, if_false, ih]

theorem Record.get?_set_ne {f g : Field} (v : Value) (r : Record) (h : f ≠ g) :
    Record.get? f (Record.set g v r) = Record.get? f r := by
  have hg : g ≠ f := h.symm
  induction r with
  | nil => simp [Record.set, Record.get?, hg]
  | cons e r ih =>
    obtain ⟨k, w⟩ := e
    simp only [Record.set]
    split
    · simp only [Record.get?, hg, if_false]
    · split
      · rename_i _ hk
        subst hk
        simp only [Record.get?, hg, if_false]
      · simp only [Record.get?, ih]

/-! ## The form of a record -/

theorem Record.sorted_tail {e : Field × Value} {r : Record} (h : Record.sorted (e :: r) = true) :
    Record.sorted r = true := by
  cases r with
  | nil => rfl
  | cons e' r =>
    obtain ⟨f, v⟩ := e
    obtain ⟨g, w⟩ := e'
    simp only [Record.sorted, Bool.and_eq_true] at h
    exact h.2

/-- A record goes on in its form behind a field that precedes its first. -/
theorem Record.sorted_cons {f : Field} {v : Value} {r : Record} (hr : Record.sorted r = true)
    (h : ∀ g w r', r = (g, w) :: r' → fieldOrder f < fieldOrder g) : Record.sorted ((f, v) :: r) = true := by
  cases r with
  | nil => rfl
  | cons e r' =>
    obtain ⟨g, w⟩ := e
    simp only [Record.sorted, Bool.and_eq_true, decide_eq_true_eq]
    exact ⟨h g w r' rfl, hr⟩

/-- The first field after a write is the one written or the one that was first. -/
theorem Record.set_head {f : Field} {v : Value} {r : Record} {g : Field} {w : Value} {r' : Record}
    (h : Record.set f v r = (g, w) :: r') : g = f ∨ ∃ w' r'', r = (g, w') :: r'' := by
  cases r with
  | nil => simp only [Record.set, List.cons.injEq, Prod.mk.injEq] at h; exact .inl h.1.1.symm
  | cons e r =>
    obtain ⟨k, x⟩ := e
    simp only [Record.set] at h
    split at h
    · simp only [List.cons.injEq, Prod.mk.injEq] at h; exact .inl h.1.1.symm
    · split at h
      · simp only [List.cons.injEq, Prod.mk.injEq] at h; exact .inl h.1.1.symm
      · simp only [List.cons.injEq, Prod.mk.injEq] at h
        obtain ⟨⟨rfl, rfl⟩, _⟩ := h
        exact .inr ⟨x, r, rfl⟩

/-- A write keeps the form. -/
theorem Record.set_sorted (f : Field) (v : Value) {r : Record} (h : Record.sorted r = true) :
    Record.sorted (Record.set f v r) = true := by
  induction r with
  | nil => rfl
  | cons e r ih =>
    obtain ⟨g, w⟩ := e
    simp only [Record.set]
    split
    · rename_i hlt
      exact Record.sorted_cons h (fun g' w' r' e => by cases e; exact hlt)
    · split
      · rename_i _ hfg
        subst hfg
        exact Record.sorted_cons (Record.sorted_tail h) (fun g' w' r' e => by
          subst e
          simp only [Record.sorted, Bool.and_eq_true, decide_eq_true_eq] at h
          exact h.1)
      · rename_i hlt hne
        refine Record.sorted_cons (ih (Record.sorted_tail h)) (fun g' w' r' e => ?_)
        rcases Record.set_head e with rfl | ⟨w'', r'', rfl⟩
        · exact fieldOrder_lt_of_not hlt hne
        · simp only [Record.sorted, Bool.and_eq_true, decide_eq_true_eq] at h
          exact h.1

/-! ## strip (R247) -/

theorem Record.get?_strip {f : Field} (r : Record) (h : f ∉ headerFields) :
    Record.get? f (strip r) = Record.get? f r := by
  induction r with
  | nil => rfl
  | cons e r ih =>
    obtain ⟨g, w⟩ := e
    unfold strip at ih ⊢
    by_cases hg : g ∈ headerFields
    · have hf : g ≠ f := fun e => h (e ▸ hg)
      rw [List.filter_cons_of_neg (by simpa using hg)]
      simp only [Record.get?, hf, if_false, ih]
    · rw [List.filter_cons_of_pos (by simpa using hg)]
      simp only [Record.get?, ih]

/-- No header field is left. -/
theorem strip_mem {r : Record} {e : Field × Value} (h : e ∈ strip r) : e.1 ∉ headerFields := by
  unfold strip at h
  have hp := (List.mem_filter.mp h).2
  simpa using hp

theorem setStatusFlags_sorted (b : Byte) {r : Record} (h : Record.sorted r = true) :
    Record.sorted (setStatusFlags b r) = true := by
  unfold setStatusFlags
  exact Record.set_sorted _ _ (Record.set_sorted _ _ (Record.set_sorted _ _ (Record.set_sorted _ _
    (Record.set_sorted _ _ (Record.set_sorted _ _ h)))))

theorem headerRecord_sorted (h : Hdr) (p : List Byte) : Record.sorted (headerRecord h p) = true := by
  rfl

end Sys2Proof.Machine
end

