-- ==== Sys2Proof/Laws/Layout.lean ====
section
/-!
SUPPORT. What reading a payload by its layout leaves in the record, for every layout the configuration allows
(spec/43_response_decoder.md R190, R196, spec/00_scope.md R5): the form is kept, a slot writes its own fields only, and the
records of `analog` and `alarm` hold what the fold of a round reads (spec/44_orchestrator.md R255); and where the tokens of a
legal layout stand (spec/20_memory.md R63).
-/

namespace Sys2Proof.Machine

/-- The fields a slot writes. -/
def slotFields (t : Slot) : List Field :=
  match t with
  | .token f => [f]
  | .counted n l => [n, l]
  | .text f _ => [f]
  | .bytes f _ => [f]
  | .textRest f => [f]
  | .bytesRest f => [f]
  | .statusFlags =>
    [.statusByte, .chargeEnable, .dischargeEnable, .chargeImmediately1, .chargeImmediately2, .fullChargeRequired]
  | .narrow f => [f]
  | .wide f => [f]
  | .move _ => []

/-- A property of records that a slot's reading has, by the writes it is made of: writes of the slot's fields keep it. -/
theorem readSlot_writes {c : Config} {t : Slot} {st : List Nat} {p : List Byte} {cur cur' : Nat} {r r' : Record}
    (P : Record → Prop) (hw : ∀ f ∈ slotFields t, ∀ v q, P q → P (Record.set f v q)) (hr : P r)
    (h : readSlot c t st p cur r = .ok (r', cur')) : P r' := by
  have store : ∀ (f : Field) (q : Record) (x : Read Value), f ∈ slotFields t → P q →
      storeRead f q x = .ok (r', cur') → P r' := by
    intro f q x hf hq hx
    cases x with
    | error e => cases hx
    | ok a => simp only [storeRead, Except.ok.injEq, Prod.mk.injEq] at hx; rw [← hx.1]; exact hw f hf _ _ hq
  cases t with
  | token f => exact store f r _ (by simp [slotFields]) hr h
  | text f k => exact store f r _ (by simp [slotFields]) hr h
  | bytes f k => exact store f r _ (by simp [slotFields]) hr h
  | textRest f => exact store f r _ (by simp [slotFields]) hr h
  | bytesRest f => exact store f r _ (by simp [slotFields]) hr h
  | counted n l =>
    simp only [readSlot] at h
    cases hk : takeHex p 2 cur with
    | error e => rw [hk] at h; cases h
    | ok a => rw [hk] at h; exact store l _ _ (by simp [slotFields]) (hw n (by simp [slotFields]) _ _ hr) h
  | statusFlags =>
    simp only [readSlot] at h
    cases hk : read8 p cur with
    | error e => rw [hk] at h; cases h
    | ok a =>
      rw [hk] at h
      simp only [Except.ok.injEq, Prod.mk.injEq] at h
      rw [← h.1, setStatusFlags]
      refine hw _ ?_ _ _ (hw _ ?_ _ _ (hw _ ?_ _ _ (hw _ ?_ _ _ (hw _ ?_ _ _ (hw _ ?_ _ _ hr))))) <;>
        simp [slotFields]
  | narrow f => exact store f r _ (by simp [slotFields]) hr h
  | wide f =>
    simp only [readSlot] at h
    split at h
    · exact store f r _ (by simp [slotFields]) hr h
    · simp only [Except.ok.injEq, Prod.mk.injEq] at h
      rw [← h.1]; exact hr
  | move d =>
    simp only [readSlot, Except.ok.injEq, Prod.mk.injEq] at h
    rw [← h.1]; exact hr

/-- A slot leaves every field that is not its own. -/
theorem readSlot_get? {c : Config} {t : Slot} {st : List Nat} {p : List Byte} {cur cur' : Nat} {r r' : Record} {f : Field}
    (hf : f ∉ slotFields t) (h : readSlot c t st p cur r = .ok (r', cur')) : Record.get? f r' = Record.get? f r :=
  readSlot_writes (fun q => Record.get? f q = Record.get? f r)
    (fun g hg v q hq => by
      have hne : f ≠ g := fun e => hf (by rw [e]; exact hg)
      rw [Record.get?_set_ne v q hne, hq]) rfl h

/-- The flag that selects the branch of R207 is the one written. -/
theorem wideFlag_set (n : Nat) (r : Record) :
    wideFlag (Record.set .detectedCapacity (.int n) r) = decide (n = capFlagWide) := by
  simp [wideFlag, Record.get?_set_self]

theorem wideFlag_set_ne {f : Field} (v : Value) (r : Record) (hf : Field.detectedCapacity ≠ f) :
    wideFlag (Record.set f v r) = wideFlag r := by
  unfold wideFlag
  rw [Record.get?_set_ne v r hf]

/-- A slot keeps the form of the record. -/
theorem readSlot_sorted {c : Config} {t : Slot} {st : List Nat} {p : List Byte} {cur cur' : Nat} {r r' : Record}
    (hr : Record.sorted r = true) (h : readSlot c t st p cur r = .ok (r', cur')) : Record.sorted r' = true :=
  readSlot_writes (fun q => Record.sorted q = true) (fun f _ v _ hq => Record.set_sorted f v hq) hr h

theorem readSlots_sorted {c : Config} {p : List Byte} {l : Layout} {st : List Nat} {cur cur' : Nat} {r r' : Record}
    (hr : Record.sorted r = true) (h : readSlots c p l st cur r = .ok (r', cur')) : Record.sorted r' = true := by
  induction l generalizing st cur r with
  | nil => cases h; exact hr
  | cons t ts ih =>
    simp only [readSlots] at h
    cases hs : readSlot c t st p cur r with
    | error e => rw [hs] at h; cases h
    | ok a => rw [hs] at h; exact ih (readSlot_sorted hr hs) h

/-- A record that is decoded is in its form. -/
theorem decodePayload_sorted {c : Config} {w : WireCmd} {h : Hdr} {p : List Byte} {r r' : Record} {cur : Nat}
    (hr : Record.sorted r = true) (hd : decodePayload c w h p r = .ok (r', cur)) : Record.sorted r' = true := by
  have fixed : ∀ len l, readFixed c len p l r = .ok (r', cur) → Record.sorted r' = true := by
    intro len l hx
    unfold readFixed at hx
    split at hx
    · cases hx
    · exact readSlots_sorted hr hx
  cases w with
  | protocol => cases hd; exact Record.set_sorted _ _ hr
  | manufactory => exact readSlots_sorted hr hd
  | analog => exact readSlots_sorted hr hd
  | alarm => exact readSlots_sorted hr hd
  | chargingDischarge => exact fixed _ _ hd
  | serialnumber => exact fixed _ _ hd
  | systemparameter => exact fixed _ _ hd

/-! ## What a legal layout is sure to read -/

/-- The slots of a layout whose shapes are those of `d` are, but for moves of the cursor, shapes of `d`. -/
theorem reorders_mem {l d : Layout} (h : Layout.reorders l d = true) {t : Slot} (ht : t ∈ l) :
    t.shape = .move ⟨none, 0, 0⟩ ∨ t.shape ∈ Layout.shape d := by
  by_cases hg : t.shape = .move ⟨none, 0, 0⟩
  · exact .inl hg
  · refine .inr ((List.isPerm_iff.mp h).mem_iff.mp ?_)
    unfold Layout.shape
    exact List.mem_filter.mpr ⟨List.mem_map.mpr ⟨t, ht, rfl⟩, by simpa using hg⟩

/-- Every shape of `d` is the shape of a slot of a layout that reorders it. -/
theorem reorders_shape {l d : Layout} (h : Layout.reorders l d = true) {x : Slot} (hx : x ∈ Layout.shape d) :
    ∃ t ∈ l, t.shape = x := by
  have hm := (List.isPerm_iff.mp h).mem_iff.mpr hx
  unfold Layout.shape at hm
  obtain ⟨t, ht, e⟩ := List.mem_map.mp (List.mem_filter.mp hm).1
  exact ⟨t, ht, e⟩

theorem shape_fields (t : Slot) : slotFields t.shape = slotFields t := by
  cases t <;> rfl

/-- If a slot of the layout is sure to leave a record of which `H` holds, and no slot takes that away, it holds of the record
read by the layout. -/
theorem readSlots_establishes {c : Config} {p : List Byte} {l : Layout} {st : List Nat} {cur cur' : Nat} {r r' : Record}
    {H : Record → Prop} (hk : ∀ t ∈ l, ∀ st a b q q', readSlot c t st p a q = .ok (q', b) → H q → H q')
    (hex : (∃ t ∈ l, ∀ st a b q q', readSlot c t st p a q = .ok (q', b) → H q') ∨ H r)
    (h : readSlots c p l st cur r = .ok (r', cur')) : H r' := by
  induction l generalizing st cur r with
  | nil =>
    cases h
    rcases hex with ⟨t, ht, _⟩ | hv
    · cases ht
    · exact hv
  | cons t ts ih =>
    simp only [readSlots] at h
    cases hs : readSlot c t st p cur r with
    | error e => rw [hs] at h; cases h
    | ok a =>
      rw [hs] at h
      refine ih (fun t' ht' => hk t' (List.mem_cons_of_mem _ ht')) ?_ h
      rcases hex with ⟨t', ht', hf'⟩ | hv
      · rcases List.mem_cons.mp ht' with rfl | hm
        · exact .inr (hf' _ _ _ _ _ hs)
        · exact .inl ⟨t', hm, hf'⟩
      · exact .inr (hk t (List.mem_cons_self ..) _ _ _ _ _ hs hv)

/-- The same for one field, when every slot that writes it is sure to leave a value with `Q` there. -/
theorem readSlots_field {c : Config} {p : List Byte} {l : Layout} {st : List Nat} {cur cur' : Nat} {r r' : Record}
    {f : Field} {Q : Value → Prop}
    (hq : ∀ t ∈ l, f ∈ slotFields t → ∀ st a b q q', readSlot c t st p a q = .ok (q', b) →
      ∃ v, Record.get? f q' = some v ∧ Q v)
    (hex : ∃ t ∈ l, f ∈ slotFields t)
    (h : readSlots c p l st cur r = .ok (r', cur')) : ∃ v, Record.get? f r' = some v ∧ Q v := by
  obtain ⟨t, ht, hf⟩ := hex
  refine readSlots_establishes (H := fun q => ∃ v, Record.get? f q = some v ∧ Q v)
    (fun t ht st a b q q' hs hv => ?_) (.inl ⟨t, ht, hq t ht hf⟩) h
  by_cases hf : f ∈ slotFields t
  · exact hq t ht hf _ _ _ _ _ hs
  · rw [readSlot_get? hf hs]; exact hv

/-! ## What each slot stores under the fields of the fold -/

theorem readSlot_token_value {c : Config} {f : Field} {st : List Nat} {p : List Byte} {a b : Nat} {q q' : Record}
    (h : readSlot c (.token f) st p a q = .ok (q', b)) :
    ∃ v, Record.get? f q' = some v ∧ readToken c f p a = .ok (v, b) := by
  simp only [readSlot] at h
  cases hr : readToken c f p a with
  | error e => rw [hr] at h; cases h
  | ok x =>
    rw [hr] at h
    simp only [storeRead, Except.ok.injEq, Prod.mk.injEq] at h
    exact ⟨x.1, by rw [← h.1, Record.get?_set_self], by rw [← h.2]⟩

/-- A scaled or temperature token is a number. -/
theorem readToken_num {c : Config} {f : Field} {p : List Byte} {a b : Nat} {v : Value}
    (hf : (∃ d, tokenOf f = .scaled d) ∨ tokenOf f = .temp) (h : readToken c f p a = .ok (v, b)) :
    ∃ n, v.num? = some n := by
  simp only [readToken] at h
  rcases hf with ⟨d, hd⟩ | hd <;> rw [hd] at h <;> simp only at h
  · cases hx : readScaled c f d p a with
    | error e => rw [hx] at h; cases h
    | ok x => rw [hx] at h; cases h; exact ⟨_, rfl⟩
  · cases hx : readTemp c f p a with
    | error e => rw [hx] at h; cases h
    | ok x => rw [hx] at h; cases h; exact ⟨_, rfl⟩

theorem readToken_alarmState {c : Config} {f : Field} {p : List Byte} {a b : Nat} {v : Value}
    (hf : tokenOf f = .alarm) (h : readToken c f p a = .ok (v, b)) : ∃ x, v.alarm? = some x := by
  simp only [readToken, hf] at h
  cases hx : readAlarm p a with
  | error e => rw [hx] at h; cases h
  | ok x => rw [hx] at h; cases h; exact ⟨_, rfl⟩

/-- A counted list of scaled or temperature tokens is a list of numbers. -/
theorem readList_nums {c : Config} {f : Field} {n : Nat} {p : List Byte} {a b : Nat} {v : Value}
    (hf : (∃ d, tokenOf f = .scaled d) ∨ tokenOf f = .temp) (h : readList c f n p a = .ok (v, b)) :
    ∃ l, v.nums? = some l := by
  simp only [readList] at h
  rcases hf with ⟨d, hd⟩ | hd <;> rw [hd] at h <;> simp only at h
  · cases hx : readMany (readScaled c f d p) n a with
    | error e => rw [hx] at h; cases h
    | ok x => rw [hx] at h; cases h; exact ⟨_, rfl⟩
  · cases hx : readMany (readTemp c f p) n a with
    | error e => rw [hx] at h; cases h
    | ok x => rw [hx] at h; cases h; exact ⟨_, rfl⟩

theorem readList_alarmStates {c : Config} {f : Field} {n : Nat} {p : List Byte} {a b : Nat} {v : Value}
    (hf : tokenOf f = .alarm) (h : readList c f n p a = .ok (v, b)) : ∃ l, v.alarms? = some l := by
  simp only [readList, hf] at h
  cases hx : readMany (readAlarm p) n a with
  | error e => rw [hx] at h; cases h
  | ok x => rw [hx] at h; cases h; exact ⟨_, rfl⟩

theorem readSlot_counted_value {c : Config} {n f : Field} {st : List Nat} {p : List Byte} {a b : Nat} {q q' : Record}
    (h : readSlot c (.counted n f) st p a q = .ok (q', b)) :
    ∃ v k cur, Record.get? f q' = some v ∧ readList c f k p cur = .ok (v, b) := by
  simp only [readSlot] at h
  cases hk : takeHex p 2 a with
  | error e => rw [hk] at h; cases h
  | ok x =>
    rw [hk] at h
    simp only at h
    cases hr : readList c f x.1 p x.2 with
    | error e => rw [hr] at h; cases h
    | ok y =>
      rw [hr] at h
      simp only [storeRead, Except.ok.injEq, Prod.mk.injEq] at h
      exact ⟨y.1, x.1, x.2, by rw [← h.1, Record.get?_set_self], by rw [hr, ← h.2]⟩

theorem readSlot_narrow_value {c : Config} {f : Field} {st : List Nat} {p : List Byte} {a b : Nat} {q q' : Record}
    (h : readSlot c (.narrow f) st p a q = .ok (q', b)) : ∃ x, Record.get? f q' = some (.dec x) := by
  simp only [readSlot, readNarrow] at h
  cases hr : readNum c f capNarrowChars p a with
  | error e => rw [hr] at h; cases h
  | ok x =>
    rw [hr] at h
    simp only [storeRead, Except.ok.injEq, Prod.mk.injEq] at h
    exact ⟨_, by rw [← h.1, Record.get?_set_self]⟩

/-- A wide capacity leaves its field as it is or stores a number there. -/
theorem readSlot_wide_value {c : Config} {f : Field} {st : List Nat} {p : List Byte} {a b : Nat} {q q' : Record}
    (h : readSlot c (.wide f) st p a q = .ok (q', b)) : q' = q ∨ ∃ x, Record.get? f q' = some (.dec x) := by
  simp only [readSlot, readWide] at h
  split at h
  · cases hr : takeHex p capWideChars a with
    | error e => rw [hr] at h; cases h
    | ok x =>
      rw [hr] at h
      simp only [storeRead, Except.ok.injEq, Prod.mk.injEq] at h
      exact .inr ⟨_, by rw [← h.1, Record.get?_set_self]⟩
  · simp only [Except.ok.injEq, Prod.mk.injEq] at h
    exact .inl h.1.symm

/-! ## The records of a round -/

/-- A slot of a legal layout is one of the default's slots as far as its shape goes. -/
theorem slot_of_shape_token {t : Slot} {f : Field} (h : t.shape = .token f) : t = .token f := by
  cases t <;> simp_all [Slot.shape]

theorem slot_of_shape_counted {t : Slot} {n f : Field} (h : t.shape = .counted n f) : t = .counted n f := by
  cases t <;> simp_all [Slot.shape]

theorem slot_of_shape_narrow {t : Slot} {f : Field} (h : t.shape = .narrow f) : t = .narrow f := by
  cases t <;> simp_all [Slot.shape]

theorem slot_of_shape_wide {t : Slot} {f : Field} (h : t.shape = .wide f) : t = .wide f := by
  cases t <;> simp_all [Slot.shape]

/-- In a layout that reorders `d`, the slots that write `f` have the one shape of `d` that writes it. -/
theorem reorders_unique {l d : Layout} (h : Layout.reorders l d = true) {f : Field} {x : Slot}
    (hx : ∀ y ∈ Layout.shape d, f ∈ slotFields y → y = x) {t : Slot} (ht : t ∈ l) (hf : f ∈ slotFields t) : t.shape = x := by
  rcases reorders_mem h ht with hg | hm
  · rw [← shape_fields, hg] at hf; cases hf
  · exact hx _ hm (by rw [shape_fields]; exact hf)

theorem reorders_exists {l d : Layout} (h : Layout.reorders l d = true) {f : Field} {x : Slot}
    (hx : x ∈ Layout.shape d) (hf : f ∈ slotFields x) : ∃ t ∈ l, f ∈ slotFields t := by
  obtain ⟨t, ht, e⟩ := reorders_shape h hx
  exact ⟨t, ht, by rw [← shape_fields, e]; exact hf⟩

/-- A field that the default layout reads as a number token is a number in every record of a legal layout. -/
theorem reorders_num {c : Config} {p : List Byte} {l d : Layout} {st : List Nat} {cur cur' : Nat} {r r' : Record} {f : Field}
    (hl : Layout.reorders l d = true) (hm : Slot.token f ∈ Layout.shape d)
    (hu : ∀ y ∈ Layout.shape d, f ∈ slotFields y → y = .token f)
    (ht : (∃ e, tokenOf f = .scaled e) ∨ tokenOf f = .temp)
    (h : readSlots c p l st cur r = .ok (r', cur')) : ∃ n, (Record.get? f r').bind Value.num? = some n := by
  obtain ⟨v, hv, n, hn⟩ := readSlots_field (Q := fun v => ∃ n, v.num? = some n)
    (fun t htl hft st a b q q' hs => by
      rw [slot_of_shape_token (reorders_unique hl hu htl hft)] at hs
      obtain ⟨v, hv, hr⟩ := readSlot_token_value hs
      exact ⟨v, hv, readToken_num ht hr⟩)
    (reorders_exists hl hm (by simp [slotFields])) h
  exact ⟨n, by rw [hv]; exact hn⟩

theorem reorders_alarm {c : Config} {p : List Byte} {l d : Layout} {st : List Nat} {cur cur' : Nat} {r r' : Record} {f : Field}
    (hl : Layout.reorders l d = true) (hm : Slot.token f ∈ Layout.shape d)
    (hu : ∀ y ∈ Layout.shape d, f ∈ slotFields y → y = .token f) (ht : tokenOf f = .alarm)
    (h : readSlots c p l st cur r = .ok (r', cur')) : ∃ n, (Record.get? f r').bind Value.alarm? = some n := by
  obtain ⟨v, hv, n, hn⟩ := readSlots_field (Q := fun v => ∃ n, v.alarm? = some n)
    (fun t htl hft st a b q q' hs => by
      rw [slot_of_shape_token (reorders_unique hl hu htl hft)] at hs
      obtain ⟨v, hv, hr⟩ := readSlot_token_value hs
      exact ⟨v, hv, readToken_alarmState ht hr⟩)
    (reorders_exists hl hm (by simp [slotFields])) h
  exact ⟨n, by rw [hv]; exact hn⟩

theorem reorders_nums {c : Config} {p : List Byte} {l d : Layout} {st : List Nat} {cur cur' : Nat} {r r' : Record} {n f : Field}
    (hl : Layout.reorders l d = true) (hm : Slot.counted n f ∈ Layout.shape d)
    (hu : ∀ y ∈ Layout.shape d, f ∈ slotFields y → y = .counted n f)
    (ht : (∃ e, tokenOf f = .scaled e) ∨ tokenOf f = .temp)
    (h : readSlots c p l st cur r = .ok (r', cur')) : ∃ x, (Record.get? f r').bind Value.nums? = some x := by
  obtain ⟨v, hv, x, hx⟩ := readSlots_field (Q := fun v => ∃ x, v.nums? = some x)
    (fun t htl hft st a b q q' hs => by
      rw [slot_of_shape_counted (reorders_unique hl hu htl hft)] at hs
      obtain ⟨v, k, cu, hv, hr⟩ := readSlot_counted_value hs
      exact ⟨v, hv, readList_nums ht hr⟩)
    (reorders_exists hl hm (by simp [slotFields])) h
  exact ⟨x, by rw [hv]; exact hx⟩

theorem reorders_alarms {c : Config} {p : List Byte} {l d : Layout} {st : List Nat} {cur cur' : Nat} {r r' : Record} {n f : Field}
    (hl : Layout.reorders l d = true) (hm : Slot.counted n f ∈ Layout.shape d)
    (hu : ∀ y ∈ Layout.shape d, f ∈ slotFields y → y = .counted n f) (ht : tokenOf f = .alarm)
    (h : readSlots c p l st cur r = .ok (r', cur')) : ∃ x, (Record.get? f r').bind Value.alarms? = some x := by
  obtain ⟨v, hv, x, hx⟩ := readSlots_field (Q := fun v => ∃ x, v.alarms? = some x)
    (fun t htl hft st a b q q' hs => by
      rw [slot_of_shape_counted (reorders_unique hl hu htl hft)] at hs
      obtain ⟨v, k, cu, hv, hr⟩ := readSlot_counted_value hs
      exact ⟨v, hv, readList_alarmStates ht hr⟩)
    (reorders_exists hl hm (by simp [slotFields])) h
  exact ⟨x, by rw [hv]; exact hx⟩

/-- A capacity of an `analog` record of a legal layout is a number. -/
theorem reorders_capacity {c : Config} {p : List Byte} {l : Layout} {st : List Nat} {cur cur' : Nat} {r r' : Record}
    {f : Field} (hl : Layout.reorders l layoutAnalog = true) (hm : Slot.narrow f ∈ Layout.shape layoutAnalog)
    (hu : ∀ y ∈ Layout.shape layoutAnalog, f ∈ slotFields y → y = .narrow f ∨ y = .wide f)
    (h : readSlots c p l st cur r = .ok (r', cur')) : ∃ n, (Record.get? f r').bind Value.num? = some n := by
  obtain ⟨t, ht, e⟩ := reorders_shape hl hm
  have ht' := slot_of_shape_narrow e
  subst ht'
  obtain ⟨x, hx⟩ := readSlots_establishes (H := fun q => ∃ x, Record.get? f q = some (.dec x))
    (fun t htl st a b q q' hs hv => by
      by_cases hf : f ∈ slotFields t
      · have hsh : t.shape = .narrow f ∨ t.shape = .wide f := by
          rcases reorders_mem hl htl with hg | hm'
          · rw [← shape_fields, hg] at hf; cases hf
          · exact hu _ hm' (by rw [shape_fields]; exact hf)
        rcases hsh with hsh | hsh
        · rw [slot_of_shape_narrow hsh] at hs; exact readSlot_narrow_value hs
        · rw [slot_of_shape_wide hsh] at hs
          rcases readSlot_wide_value hs with rfl | hx
          · exact hv
          · exact hx
      · rw [readSlot_get? hf hs]; exact hv)
    (.inl ⟨_, ht, fun _ _ _ _ _ hs => readSlot_narrow_value hs⟩) h
  exact ⟨_, by rw [hx]; rfl⟩

/-- The stripped record of an `analog` answer holds what the fold reads. -/
theorem analog_readable {c : Config} {p : List Byte} {r r' : Record} {cur : Nat}
    (hl : Layout.reorders c.layouts.analog layoutAnalog = true) (h : decodeAnalog c p r = .ok (r', cur)) :
    (readAnalogRecord (strip r')).isSome = true := by
  obtain ⟨n1, h1⟩ := reorders_capacity (f := .moduleCapacity) hl (by decide) (by decide) h
  obtain ⟨n2, h2⟩ := reorders_capacity (f := .remainingCapacity) hl (by decide) (by decide) h
  obtain ⟨n3, h3⟩ := reorders_num (f := .current) hl (by decide) (by decide) (.inl ⟨_, rfl⟩) h
  obtain ⟨n4, h4⟩ := reorders_num (f := .moduleVoltage) hl (by decide) (by decide) (.inl ⟨_, rfl⟩) h
  obtain ⟨n5, h5⟩ := reorders_nums (n := .cellCount) (f := .cellVoltages) hl (by decide) (by decide) (.inl ⟨_, rfl⟩) h
  obtain ⟨n6, h6⟩ := reorders_nums (n := .temperatureCount) (f := .temperatures) hl (by decide) (by decide) (.inr rfl) h
  unfold readAnalogRecord
  rw [Record.get?_strip r' (by decide), Record.get?_strip r' (by decide), Record.get?_strip r' (by decide),
    Record.get?_strip r' (by decide), Record.get?_strip r' (by decide), Record.get?_strip r' (by decide),
    h1, h2, h3, h4, h5, h6]
  rfl

/-- The stripped record of an `alarm` answer holds what the fold reads. -/
theorem alarm_readable {c : Config} {p : List Byte} {r r' : Record} {cur : Nat}
    (hl : Layout.reorders c.layouts.alarm layoutAlarm = true) (h : decodeAlarm c p r = .ok (r', cur)) :
    (readAlarmRecord (strip r')).isSome = true := by
  obtain ⟨n1, h1⟩ := reorders_alarms (n := .cellCount) (f := .cellAlarms) hl (by decide) (by decide) rfl h
  obtain ⟨n2, h2⟩ := reorders_alarms (n := .temperatureCount) (f := .temperatureAlarms) hl (by decide) (by decide) rfl h
  obtain ⟨n3, h3⟩ := reorders_alarm (f := .chargeCurrentAlarm) hl (by decide) (by decide) rfl h
  obtain ⟨n4, h4⟩ := reorders_alarm (f := .dischargeCurrentAlarm) hl (by decide) (by decide) rfl h
  obtain ⟨n5, h5⟩ := reorders_alarm (f := .moduleVoltageAlarm) hl (by decide) (by decide) rfl h
  unfold readAlarmRecord
  rw [Record.get?_strip r' (by decide), Record.get?_strip r' (by decide), Record.get?_strip r' (by decide),
    Record.get?_strip r' (by decide), Record.get?_strip r' (by decide), h1, h2, h3, h4, h5]
  rfl

end Sys2Proof.Machine

/-! ## Where tokens stand -/

namespace Sys2Proof

/-- Where a place is when the list of slot `k` has `len k` characters. -/
def Place.at (len : Nat → Nat) (a : Place) : Int :=
  a.base + ((a.past.map (fun x => len x.1)).sum : Nat)

/-- A sum over a list is that of two halves. -/
theorem Place.sum_split (f : Nat × Nat → Nat) (p : Nat × Nat → Bool) (l : List (Nat × Nat)) :
    (l.map f).sum = ((l.filter p).map f).sum + ((l.filter (fun x => !p x)).map f).sum := by
  induction l with
  | nil => rfl
  | cons x l ih => cases h : p x <;> simp [h, ih] <;> omega

/-- What `Place.upTo` decides holds for all lengths the lists can have. -/
theorem Place.upTo_at {a b : Place} {len : Nat → Nat} (h : a.upTo b = true) (hn : a.past.Nodup)
    (hl : ∀ x ∈ a.past, len x.1 ≤ x.2) : a.at len ≤ b.at len := by
  have hb : ((a.past.filter (fun x => b.past.contains x)).map (fun x => len x.1)).sum
      ≤ (b.past.map (fun x => len x.1)).sum := by
    obtain ⟨l, hp, hs⟩ := (hn.filter (fun x => b.past.contains x)).subperm
      (l₂ := b.past) (fun x hx => by simpa using (List.mem_filter.mp hx).2)
    rw [← (hp.map _).sum_eq]
    exact (hs.map _).sum_le_sum (fun _ _ => Nat.zero_le _)
  have ha : ∀ l : List (Nat × Nat), (∀ x ∈ l, len x.1 ≤ x.2) →
      ((l.map (fun x => len x.1)).sum : Int) ≤ (l.map (fun x => (x.2 : Int))).sum := by
    intro l
    induction l with
    | nil => simp
    | cons x l ih =>
      intro h
      have := ih (fun y hy => h y (by simp [hy]))
      have := h x (by simp)
      push_cast [List.map_cons, List.sum_cons] at *
      omega
  have hs := Place.sum_split (fun x => len x.1) (fun x => b.past.contains x) a.past
  have hc := ha (a.past.filter (fun x => !b.past.contains x)) (fun x hx => hl x (List.mem_filter.mp hx).1)
  have hu := of_decide_eq_true h
  unfold Place.at
  omega

/-- The place behind a slot is behind no list twice. -/
theorem Slot.behind_past {t : Slot} {n? : Option Nat} {wide : Bool} {starts : List Place} {a : Place}
    (h : ∀ b ∈ a :: starts, b.past.Nodup ∧ ∀ x ∈ b.past, x.1 < starts.length) :
    (t.behind n? wide starts a).past.Nodup ∧ ∀ x ∈ (t.behind n? wide starts a).past, x.1 < starts.length + 1 := by
  have keep : ∀ b ∈ a :: starts, b.past.Nodup ∧ ∀ x ∈ b.past, x.1 < starts.length + 1 := fun b hb =>
    ⟨(h b hb).1, fun x hx => Nat.lt_succ_of_lt ((h b hb).2 x hx)⟩
  have more : ∀ n, (a.past ++ [(starts.length, n)]).Nodup ∧
      ∀ x ∈ a.past ++ [(starts.length, n)], x.1 < starts.length + 1 := by
    intro n
    refine ⟨List.nodup_append'.mpr ⟨(h a (by simp)).1, by simp, ?_⟩, ?_⟩
    · intro x hx hy
      have := (h a (by simp)).2 x hx
      simp only [List.mem_singleton] at hy
      simp [hy] at this
    · intro x hx
      rcases List.mem_append.mp hx with hx | hx
      · exact (keep a (by simp)).2 x hx
      · simp only [List.mem_singleton] at hx; simp [hx]
  cases t with
  | counted n l => exact more _
  | textRest f => cases n? with
    | none => exact more _
    | some n => exact keep a (by simp)
  | bytesRest f => cases n? with
    | none => exact more _
    | some n => exact keep a (by simp)
  | wide f => cases wide <;> exact keep a (by simp)
  | move m =>
    rcases m with ⟨_ | k, d, e⟩
    · exact keep a (by simp)
    · rcases hk : starts[k]? with _ | b
      · simpa [Slot.behind, Place.shift, hk] using keep a (by simp)
      · simpa [Slot.behind, Place.shift, hk] using keep b (by simp [List.mem_of_getElem? hk])
  | token f => exact keep a (by simp)
  | text f k => exact keep a (by simp)
  | bytes f k => exact keep a (by simp)
  | statusFlags => exact keep a (by simp)
  | narrow f => exact keep a (by simp)

/-- No place of a layout is behind a list twice. -/
theorem Layout.placesFrom_nodup (n? : Option Nat) (wide : Bool) (l : Layout) : ∀ (seen : Bool) (starts : List Place) (a : Place),
    (∀ b ∈ a :: starts, b.past.Nodup ∧ ∀ x ∈ b.past, x.1 < starts.length) →
    ∀ b ∈ Layout.placesFrom n? wide l seen starts a, b.past.Nodup := by
  induction l with
  | nil =>
    intro seen starts a h b hb
    exact (h b (by simpa [Layout.placesFrom, or_comm] using hb)).1
  | cons t ts ih =>
    intro seen starts a h
    refine ih _ _ _ ?_
    intro b hb
    rw [List.length_append, List.length_singleton]
    rcases List.mem_cons.mp hb with rfl | hb
    · exact Slot.behind_past h
    · have := h b (by simpa [or_comm] using hb)
      exact ⟨this.1, fun x hx => Nat.lt_succ_of_lt (this.2 x hx)⟩

/-- R63: of a capacity and any other slot of a layout whose capacities are separate, one ends where or before the other
starts, for all lengths the lists can have. -/
theorem Layout.separate_at {l : Layout} (h : l.separate = true) (wide : Bool) {len : Nat → Nat}
    (hl : ∀ a ∈ Layout.places none wide l, ∀ x ∈ a.past, len x.1 ≤ x.2) :
    (Layout.spans none wide l).Pairwise (fun x y => x.1.isCapacity = true ∨ y.1.isCapacity = true →
      x.2.2.at len ≤ y.2.1.at len ∨ y.2.2.at len ≤ x.2.1.at len) := by
  have hp : (Layout.spans none wide l).Pairwise (fun x y => x.1.isCapacity = true ∨ y.1.isCapacity = true →
      x.2.2.upTo y.2.1 = true ∨ y.2.2.upTo x.2.1 = true) := by
    simp only [Layout.separate, List.all_cons, List.all_nil, Bool.and_eq_true, decide_eq_true_eq] at h
    cases wide
    · exact h.1
    · exact h.2.1
  have mem : ∀ x ∈ Layout.spans none wide l, x.2.2 ∈ Layout.places none wide l := by
    intro x hx
    have := (List.of_mem_zip (List.mem_filter.mp hx).1).2
    exact List.mem_of_mem_tail (List.of_mem_zip this).2
  refine hp.imp_of_mem ?_
  intro x y hx hy himp hc
  have up : ∀ x ∈ Layout.spans none wide l, ∀ b : Place, x.2.2.upTo b = true → x.2.2.at len ≤ b.at len := fun x hx b hb =>
    Place.upTo_at hb (Layout.placesFrom_nodup none wide l false [] ⟨0, []⟩ (by simp) _ (mem x hx)) (hl _ (mem x hx))
  exact Or.imp (up x hx _) (up y hy _) (himp hc)

end Sys2Proof
end

