-- ==== Sys2Proof/Laws/Payload.lean ====
section
/-!
SUPPORT. What the reads of a payload answer (spec/43_response_decoder.md R193 to R211): for each kind of token the value
its characters spell and the cursor behind it, for each list the values in order, and for a slot what it stores.
-/

namespace Sys2Proof.Machine

/-- The value of a 16-bit number as SIGNED(field) reads it (R199). -/
def numOf (c : Config) (f : Field) (u : Nat) : Int :=
  if c.signedFields.contains f then signed16 u else u

theorem readNum_ok {c : Config} {f : Field} {k cur u : Nat} {p : List Byte} (h : takeHex p k cur = .ok (u, cur + k)) :
    readNum c f k p cur = .ok (numOf c f u, cur + k) := by
  simp only [readNum, h, numOf]

theorem read16_ok {c : Config} {f : Field} {cur u : Nat} {p : List Byte} (h : takeHex p 4 cur = .ok (u, cur + 4)) :
    read16 c f p cur = .ok (numOf c f u, cur + 4) :=
  readNum_ok h

theorem read8_ok {cur u : Nat} {p : List Byte} (h : takeHex p 2 cur = .ok (u, cur + 2)) :
    read8 p cur = .ok (BitVec.ofNat 8 u, cur + 2) := by
  simp only [read8, h]

theorem readScaled_ok {c : Config} {f : Field} {d cur u : Nat} {p : List Byte}
    (h : takeHex p 4 cur = .ok (u, cur + 4)) : readScaled c f d p cur = .ok (⟨numOf c f u, d⟩, cur + 4) := by
  simp only [readScaled, read16_ok h]

theorem readTemp_ok {c : Config} {f : Field} {cur u : Nat} {p : List Byte} (h : takeHex p 4 cur = .ok (u, cur + 4)) :
    readTemp c f p cur = .ok (⟨numOf c f u - tempOffset, scaleTemp⟩, cur + 4) := by
  simp only [readTemp, read16_ok h]

theorem readAlarm_ok {cur u : Nat} {p : List Byte} (h : takeHex p 2 cur = .ok (u, cur + 2)) :
    readAlarm p cur = .ok (alarmOf u, cur + 2) := by
  simp only [readAlarm, h]

theorem readNarrow_ok {c : Config} {f : Field} {cur u : Nat} {p : List Byte}
    (h : takeHex p 4 cur = .ok (u, cur + 4)) : readNarrow c f p cur = .ok (.dec ⟨numOf c f u, scaleCap⟩, cur + 4) := by
  simp only [readNarrow, capNarrowChars, readNum_ok h]

theorem readWide_ok {cur u : Nat} {p : List Byte} (h : takeHex p 6 cur = .ok (u, cur + 6)) :
    readWide p cur = .ok (.dec ⟨u, scaleCap⟩, cur + 6) := by
  simp only [readWide, capWideChars, h]

/-- Reads of one width that each answer give the list of their answers (R196). -/
theorem readMany_ok {α : Type} {rd : Nat → Read α} (k : Nat) (f : Nat → α) (vs : List Nat) (cur : Nat)
    (h : ∀ (j : Nat) (hj : j < vs.length), rd (cur + k * j) = .ok (f vs[j], cur + k * j + k)) :
    readMany rd vs.length cur = .ok (vs.map f, cur + k * vs.length) := by
  induction vs generalizing cur with
  | nil => simp [readMany]
  | cons v vs ih =>
    have h0 := h 0 (by simp)
    have hr := ih (cur + k) (fun j hj => by
      have hs := h (j + 1) (by simpa using hj)
      have e : cur + k * (j + 1) = cur + k + k * j := by ring
      rw [e] at hs
      simpa using hs)
    simp only [Nat.mul_zero, Nat.add_zero, List.getElem_cons_zero] at h0
    simp only [List.length_cons, readMany, h0, hr, List.map_cons]
    congr 2
    ring

/-! ## Tokens by field -/

theorem readToken_byte {c : Config} {f : Field} {cur u : Nat} {p : List Byte} (ht : tokenOf f = .byte)
    (h : takeHex p 2 cur = .ok (u, cur + 2)) : readToken c f p cur = .ok (.int u, cur + 2) := by
  simp only [readToken, ht, h]

theorem readToken_scaled {c : Config} {f : Field} {d cur u : Nat} {p : List Byte} (ht : tokenOf f = .scaled d)
    (h : takeHex p 4 cur = .ok (u, cur + 4)) : readToken c f p cur = .ok (.dec ⟨numOf c f u, d⟩, cur + 4) := by
  simp only [readToken, ht, readScaled_ok h]

theorem readToken_temp {c : Config} {f : Field} {cur u : Nat} {p : List Byte} (ht : tokenOf f = .temp)
    (h : takeHex p 4 cur = .ok (u, cur + 4)) :
    readToken c f p cur = .ok (.dec ⟨numOf c f u - tempOffset, scaleTemp⟩, cur + 4) := by
  simp only [readToken, ht, readTemp_ok h]

theorem readToken_alarm {c : Config} {f : Field} {cur u : Nat} {p : List Byte} (ht : tokenOf f = .alarm)
    (h : takeHex p 2 cur = .ok (u, cur + 2)) : readToken c f p cur = .ok (.alarm (alarmOf u), cur + 2) := by
  simp only [readToken, ht, readAlarm_ok h]

/-! ## Lists by field -/

theorem readList_scaled {c : Config} {f : Field} {d cur : Nat} {p : List Byte} {vs : List Nat}
    (ht : tokenOf f = .scaled d)
    (h : ∀ (j : Nat) (hj : j < vs.length), takeHex p 4 (cur + 4 * j) = .ok (vs[j], cur + 4 * j + 4)) :
    readList c f vs.length p cur = .ok (.decs (vs.map (fun v => ⟨numOf c f v, d⟩)), cur + 4 * vs.length) := by
  simp only [readList, ht,
    readMany_ok 4 (fun v => (⟨numOf c f v, d⟩ : Dec)) vs cur (fun j hj => readScaled_ok (h j hj))]

theorem readList_temp {c : Config} {f : Field} {cur : Nat} {p : List Byte} {vs : List Nat}
    (ht : tokenOf f = .temp)
    (h : ∀ (j : Nat) (hj : j < vs.length), takeHex p 4 (cur + 4 * j) = .ok (vs[j], cur + 4 * j + 4)) :
    readList c f vs.length p cur
      = .ok (.decs (vs.map (fun v => ⟨numOf c f v - tempOffset, scaleTemp⟩)), cur + 4 * vs.length) := by
  simp only [readList, ht,
    readMany_ok 4 (fun v => (⟨numOf c f v - tempOffset, scaleTemp⟩ : Dec)) vs cur (fun j hj => readTemp_ok (h j hj))]

theorem readList_alarm {c : Config} {f : Field} {cur : Nat} {p : List Byte} {vs : List Nat}
    (ht : tokenOf f = .alarm)
    (h : ∀ (j : Nat) (hj : j < vs.length), takeHex p 2 (cur + 2 * j) = .ok (vs[j], cur + 2 * j + 2)) :
    readList c f vs.length p cur = .ok (.alarms (vs.map alarmOf), cur + 2 * vs.length) := by
  simp only [readList, ht, readMany_ok 2 alarmOf vs cur (fun j hj => readAlarm_ok (h j hj))]

/-- The bytes of `2 * k` characters, from the numbers their pairs spell. -/
theorem readBytes8_ok {cur : Nat} {p : List Byte} {vs : List Nat}
    (h : ∀ (j : Nat) (hj : j < vs.length), takeHex p 2 (cur + 2 * j) = .ok (vs[j], cur + 2 * j + 2)) :
    readMany (read8 p) vs.length cur = .ok (vs.map (BitVec.ofNat 8), cur + 2 * vs.length) :=
  readMany_ok 2 (BitVec.ofNat 8) vs cur (fun j hj => read8_ok (h j hj))

theorem map_ofNat_toNat (bs : List Byte) : (bs.map BitVec.toNat).map (BitVec.ofNat 8) = bs := by
  induction bs with
  | nil => rfl
  | cons b bs ih => simp only [List.map_cons, ih, BitVec.ofNat_toNat, BitVec.setWidth_eq]

theorem readText_ok {cur : Nat} {p bs : List Byte}
    (h : ∀ (j : Nat) (hj : j < (bs.map BitVec.toNat).length),
      takeHex p 2 (cur + 2 * j) = .ok ((bs.map BitVec.toNat)[j], cur + 2 * j + 2)) :
    readText bs.length p cur = .ok (.text (trimNulls bs), cur + 2 * bs.length) := by
  have hr := readBytes8_ok h
  rw [map_ofNat_toNat, List.length_map] at hr
  simp only [readText, hr]

theorem readBytes_ok {cur : Nat} {p bs : List Byte}
    (h : ∀ (j : Nat) (hj : j < (bs.map BitVec.toNat).length),
      takeHex p 2 (cur + 2 * j) = .ok ((bs.map BitVec.toNat)[j], cur + 2 * j + 2)) :
    readBytes bs.length p cur = .ok (.ints (bs.map (fun b => (b.toNat : Int))), cur + 2 * bs.length) := by
  have hr := readBytes8_ok h
  rw [map_ofNat_toNat, List.length_map] at hr
  simp only [readBytes, hr]

/-! ## Layouts, slot by slot -/

/-- A slot that reads, then the rest of the layout. -/
theorem readSlots_cons {c : Config} {p : List Byte} {t : Slot} {ts : Layout} {st : List Nat} {cur cur' : Nat}
    {r r' : Record} (h : readSlot c t st p cur r = .ok (r', cur')) :
    readSlots c p (t :: ts) st cur r = readSlots c p ts (st ++ [cur]) cur' r' := by
  simp only [readSlots, h]

@[simp] theorem readSlots_nil (c : Config) (p : List Byte) (st : List Nat) (cur : Nat) (r : Record) :
    readSlots c p [] st cur r = .ok (r, cur) := rfl

theorem readSlot_token {c : Config} {st : List Nat} {f : Field} {p : List Byte} {cur cur' : Nat} {v : Value} (r : Record)
    (h : readToken c f p cur = .ok (v, cur')) : readSlot c (.token f) st p cur r = .ok (Record.set f v r, cur') := by
  simp only [readSlot, storeRead, h]

theorem readSlot_counted {c : Config} {st : List Nat} {n l : Field} {p : List Byte} {cur cur' k : Nat} {v : Value} (r : Record)
    (hn : takeHex p 2 cur = .ok (k, cur + 2)) (h : readList c l k p (cur + 2) = .ok (v, cur')) :
    readSlot c (.counted n l) st p cur r = .ok (Record.set l v (Record.set n (.int k) r), cur') := by
  simp only [readSlot, storeRead, hn, h]

theorem readSlot_text {c : Config} {st : List Nat} {f : Field} {k : Nat} {p : List Byte} {cur cur' : Nat} {v : Value} (r : Record)
    (h : readText k p cur = .ok (v, cur')) : readSlot c (.text f k) st p cur r = .ok (Record.set f v r, cur') := by
  simp only [readSlot, storeRead, h]

theorem readSlot_bytes {c : Config} {st : List Nat} {f : Field} {k : Nat} {p : List Byte} {cur cur' : Nat} {v : Value} (r : Record)
    (h : readBytes k p cur = .ok (v, cur')) : readSlot c (.bytes f k) st p cur r = .ok (Record.set f v r, cur') := by
  simp only [readSlot, storeRead, h]

theorem readSlot_textRest {c : Config} {st : List Nat} {f : Field} {p : List Byte} {cur cur' : Nat} {v : Value} (r : Record)
    (h : readText (restBytes p cur) p cur = .ok (v, cur')) :
    readSlot c (.textRest f) st p cur r = .ok (Record.set f v r, cur') := by
  simp only [readSlot, storeRead, h]

theorem readSlot_bytesRest {c : Config} {st : List Nat} {f : Field} {p : List Byte} {cur cur' : Nat} {v : Value} (r : Record)
    (h : readBytes (restBytes p cur) p cur = .ok (v, cur')) :
    readSlot c (.bytesRest f) st p cur r = .ok (Record.set f v r, cur') := by
  simp only [readSlot, storeRead, h]

theorem readSlot_statusFlags {c : Config} {st : List Nat} {p : List Byte} {cur u : Nat} (r : Record)
    (h : takeHex p 2 cur = .ok (u, cur + 2)) :
    readSlot c .statusFlags st p cur r = .ok (setStatusFlags (BitVec.ofNat 8 u) r, cur + 2) := by
  simp only [readSlot, read8_ok h]

theorem readSlot_narrow {c : Config} {st : List Nat} {f : Field} {p : List Byte} {cur u : Nat} (r : Record)
    (h : takeHex p 4 cur = .ok (u, cur + 4)) :
    readSlot c (.narrow f) st p cur r = .ok (Record.set f (.dec ⟨numOf c f u, scaleCap⟩) r, cur + 4) := by
  simp only [readSlot, storeRead, readNarrow_ok h]

theorem readSlot_wide_narrow {c : Config} {st : List Nat} {f : Field} {p : List Byte} {cur : Nat} {r : Record}
    (hw : wideFlag r = false) : readSlot c (.wide f) st p cur r = .ok (r, cur) := by
  simp only [readSlot, hw, Bool.false_eq_true, if_false]

theorem readSlot_wide {c : Config} {st : List Nat} {f : Field} {p : List Byte} {cur u : Nat} {r : Record}
    (hw : wideFlag r = true) (h : takeHex p 6 cur = .ok (u, cur + 6)) :
    readSlot c (.wide f) st p cur r = .ok (Record.set f (.dec ⟨u, scaleCap⟩) r, cur + 6) := by
  simp only [readSlot, hw, if_true, storeRead, readWide_ok h]

/-- The fixed-length commands read their layout only at the exact length (R195). -/
theorem readFixed_ok {c : Config} {len : Nat} {p : List Byte} (l : Layout) (r : Record) (h : p.length = len) :
    readFixed c len p l r = readLayout c p l r := by
  simp only [readFixed, h, ne_eq, not_true_eq_false, if_false]

theorem readFixed_error {c : Config} {len : Nat} {p : List Byte} (l : Layout) (r : Record) (h : p.length ≠ len) :
    readFixed c len p l r = .error (.wrongLength, 0) := by
  simp only [readFixed, ne_eq, h, not_false_eq_true, if_true]

end Sys2Proof.Machine
end

