-- ==== Sys2Proof/Laws/Failure.lean ====
section
/-!
SUPPORT. Where reading a payload fails (spec/43_response_decoder.md R193, R196, spec/60_exceptions.md R294 (5)): a slot reads
tokens at known places one after the other, and its reading ends at the first that passes the end or is not hex.
-/

namespace Sys2Proof.Machine

/-- The token `t` (offset, width) of payload `p` fails for this reason: the bound first, then the characters (R193). -/
def tokenFails (p : List Byte) (t : Nat × Nat) (reason : PayloadReason) : Prop :=
  (reason = .overrun ∧ p.length < t.1 + t.2)
    ∨ (reason = .notHex ∧ t.1 + t.2 ≤ p.length ∧ unhex ((p.drop t.1).take t.2) = none)

/-- The token `t` of payload `p` is read. -/
def tokenReads (p : List Byte) (t : Nat × Nat) : Prop :=
  ∃ v, takeHex p t.2 t.1 = .ok (v, t.1 + t.2)

theorem takeHex_fails {p : List Byte} {off k : Nat} {reason : PayloadReason} (h : tokenFails p (off, k) reason) :
    takeHex p k off = .error (reason, off) := by
  rcases h with ⟨rfl, h⟩ | ⟨rfl, h, hx⟩
  · simp only [takeHex]; rw [if_pos h]
  · simp only [takeHex]
    simp only at h hx
    rw [if_neg (by omega), hx]

/-- What a reading that takes the tokens `toks` in order and ends at cursor `cur'` answers: with all of them read it
succeeds there, else it fails at the first that does not read. `G` is what is known of a token that has been read. -/
def Takes {α : Type} (p : List Byte) (G : Nat × Nat → Prop) (toks : List (Nat × Nat)) (cur' : Nat) (x : Read α) : Prop :=
  ((∀ t ∈ toks, G t) → ∃ a, x = .ok (a, cur'))
    ∧ ∀ pre t post reason, toks = pre ++ t :: post → (∀ u ∈ pre, G u) → tokenFails p t reason → x = .error (reason, t.1)

/-- A list that is split behind a part of it is split inside that part or behind it. -/
theorem split_append {α : Type} {a b pre post : List α} {t : α} (h : a ++ b = pre ++ t :: post) :
    (∃ post', a = pre ++ t :: post') ∨ ∃ pre', pre = a ++ pre' ∧ b = pre' ++ t :: post := by
  rcases List.append_eq_append_iff.mp h with ⟨c, rfl, hb⟩ | ⟨c, rfl, hc⟩
  · exact .inr ⟨c, rfl, hb⟩
  · cases c with
    | nil => simp only [List.append_nil] at *; exact .inr ⟨[], by simp, hc.symm⟩
    | cons d c => simp only [List.cons_append, List.cons.injEq] at hc; exact .inl ⟨c, by rw [hc.1]⟩

/-- A reading of one token, from what it is made of. -/
theorem takes_one {α : Type} {p : List Byte} {G : Nat × Nat → Prop} (hG : ∀ t, G t → tokenReads p t) {cur k : Nat}
    {x : Read α} (hok : ∀ v, takeHex p k cur = .ok (v, cur + k) → ∃ a, x = .ok (a, cur + k))
    (herr : ∀ e, takeHex p k cur = .error e → x = .error e) : Takes p G [(cur, k)] (cur + k) x := by
  refine ⟨fun h => ?_, fun pre t post reason hs hp hf => ?_⟩
  · obtain ⟨v, hv⟩ := hG _ (h _ (List.mem_singleton.mpr rfl))
    exact hok v hv
  · cases pre with
    | nil =>
      simp only [List.nil_append, List.cons.injEq] at hs
      rw [← hs.1] at hf ⊢
      exact herr _ (takeHex_fails hf)
    | cons u pre => simp at hs

/-- A reading that follows another takes its tokens behind the other's. -/
theorem takes_append {α β : Type} {p : List Byte} {G : Nat × Nat → Prop} {a b : List (Nat × Nat)} {c₁ c₂ : Nat}
    {x : Read α} {y : Read β} (hx : Takes p G a c₁ x) (herr : ∀ e, x = .error e → y = .error e)
    (hy : ∀ v, x = .ok (v, c₁) → (∀ t ∈ a, G t) → Takes p G b c₂ y) : Takes p G (a ++ b) c₂ y := by
  refine ⟨fun h => ?_, fun pre t post reason hs hp hf => ?_⟩
  · have ha : ∀ t ∈ a, G t := fun t ht => h t (List.mem_append_left _ ht)
    obtain ⟨v, hv⟩ := hx.1 ha
    exact (hy v hv ha).1 (fun t ht => h t (List.mem_append_right _ ht))
  · rcases split_append hs with ⟨post', ha⟩ | ⟨pre', rfl, hb⟩
    · exact herr _ (hx.2 pre t post' reason ha hp hf)
    · have ha : ∀ t ∈ a, G t := fun t ht => hp t (List.mem_append_left _ ht)
      obtain ⟨v, hv⟩ := hx.1 ha
      exact (hy v hv ha).2 pre' t post reason hb (fun u hu => hp u (List.mem_append_right _ hu)) hf

/-- A reading that takes no token. -/
theorem takes_nil {α : Type} {p : List Byte} {G : Nat × Nat → Prop} {cur : Nat} {x : Read α} {a : α}
    (h : x = .ok (a, cur)) : Takes p G [] cur x :=
  ⟨fun _ => ⟨a, h⟩, fun pre t post _ hs => by simp at hs⟩

/-- A reading whose answer is another's under a function takes the other's tokens. -/
theorem takes_map {α β : Type} {p : List Byte} {G : Nat × Nat → Prop} {toks : List (Nat × Nat)} {cur : Nat} {x : Read α}
    {y : Read β} (hx : Takes p G toks cur x) (hok : ∀ a, x = .ok (a, cur) → ∃ b, y = .ok (b, cur))
    (herr : ∀ e, x = .error e → y = .error e) : Takes p G toks cur y :=
  ⟨fun h => (hx.1 h).elim fun a ha => hok a ha,
    fun pre t post reason hs hp hf => herr _ (hx.2 pre t post reason hs hp hf)⟩

/-- Reads of one width in order take one token each. -/
theorem takes_many {α : Type} {p : List Byte} {G : Nat × Nat → Prop} {rd : Nat → Read α} (k : Nat)
    (h : ∀ cur, Takes p G [(cur, k)] (cur + k) (rd cur)) (n cur : Nat) :
    Takes p G ((List.range n).map (fun j => (cur + k * j, k))) (cur + k * n) (readMany rd n cur) := by
  induction n generalizing cur with
  | zero => exact takes_nil rfl
  | succ n ih =>
    have e : (List.range (n + 1)).map (fun j => (cur + k * j, k))
        = [(cur, k)] ++ (List.range n).map (fun j => (cur + k + k * j, k)) := by
      rw [List.range_succ_eq_map]
      simp only [List.map_cons, List.map_map, Nat.mul_zero, Nat.add_zero, List.singleton_append, List.cons.injEq, true_and]
      refine List.map_congr_left fun j _ => ?_
      simp only [Function.comp, Prod.mk.injEq, and_true, Nat.succ_eq_add_one]
      ring
    rw [e, show cur + k * (n + 1) = cur + k + k * n by ring]
    refine takes_append (h cur) (fun e he => by simp only [readMany, he]) fun v hv _ => ?_
    refine takes_map (ih (cur + k)) (fun a ha => ⟨_, by simp only [readMany, hv, ha]; rfl⟩)
      (fun e he => by simp only [readMany, hv, he])

/-! ## Each kind of token -/

section
variable {p : List Byte} {G : Nat × Nat → Prop} (hG : ∀ t, G t → tokenReads p t)
include hG

theorem takes_num (c : Config) (f : Field) (k cur : Nat) : Takes p G [(cur, k)] (cur + k) (readNum c f k p cur) :=
  takes_one hG (fun _ hv => ⟨_, readNum_ok hv⟩) (fun e he => by simp only [readNum, he])

theorem takes_8 (cur : Nat) : Takes p G [(cur, 2)] (cur + 2) (read8 p cur) :=
  takes_one hG (fun _ hv => ⟨_, read8_ok hv⟩) (fun e he => by simp only [read8, he])

theorem takes_scaled (c : Config) (f : Field) (d cur : Nat) :
    Takes p G [(cur, 4)] (cur + 4) (readScaled c f d p cur) :=
  takes_map (takes_num hG c f 4 cur) (fun a ha => ⟨_, by simp only [readScaled, read16, ha]; rfl⟩)
    (fun e he => by simp only [readScaled, read16, he])

theorem takes_temp (c : Config) (f : Field) (cur : Nat) : Takes p G [(cur, 4)] (cur + 4) (readTemp c f p cur) :=
  takes_map (takes_num hG c f 4 cur) (fun a ha => ⟨_, by simp only [readTemp, read16, ha]; rfl⟩)
    (fun e he => by simp only [readTemp, read16, he])

theorem takes_alarm (cur : Nat) : Takes p G [(cur, 2)] (cur + 2) (readAlarm p cur) :=
  takes_one hG (fun _ hv => ⟨_, readAlarm_ok hv⟩) (fun e he => by simp only [readAlarm, he])

/-- A token slot takes one token of its width. -/
theorem takes_token (c : Config) (f : Field) (cur : Nat) :
    Takes p G [(cur, (tokenOf f).chars)] (cur + (tokenOf f).chars) (readToken c f p cur) := by
  unfold readToken Token.chars
  cases tokenOf f with
  | byte => exact takes_one hG (fun _ hv => ⟨_, by simp only [hv]; rfl⟩) (fun e he => by simp only [he])
  | word =>
    exact takes_map (takes_num hG c f 4 cur) (fun a ha => ⟨_, by simp only [read16, ha]; rfl⟩)
      (fun e he => by simp only [read16, he])
  | scaled d => exact takes_map (takes_scaled hG c f d cur) (fun a ha => ⟨_, by simp only [ha]; rfl⟩) (fun e he => by simp only [he])
  | temp => exact takes_map (takes_temp hG c f cur) (fun a ha => ⟨_, by simp only [ha]; rfl⟩) (fun e he => by simp only [he])
  | alarm => exact takes_map (takes_alarm hG cur) (fun a ha => ⟨_, by simp only [ha]; rfl⟩) (fun e he => by simp only [he])

/-- A list of `n` tokens takes them in order. -/
theorem takes_list (c : Config) (f : Field) (n cur : Nat) :
    Takes p G ((List.range n).map (fun j => (cur + (tokenOf f).chars * j, (tokenOf f).chars)))
      (cur + (tokenOf f).chars * n) (readList c f n p cur) := by
  unfold readList Token.chars
  cases tokenOf f with
  | byte => exact takes_map (takes_many 2 (takes_8 hG) n cur) (fun a ha => ⟨_, by simp only [ha]; rfl⟩) (fun e he => by simp only [he])
  | word =>
    exact takes_map (takes_many (rd := read16 c f p) 4 (takes_num hG c f 4) n cur)
      (fun a ha => ⟨_, by simp only [ha]; rfl⟩) (fun e he => by simp only [he])
  | scaled d =>
    exact takes_map (takes_many 4 (takes_scaled hG c f d) n cur) (fun a ha => ⟨_, by simp only [ha]; rfl⟩) (fun e he => by simp only [he])
  | temp =>
    exact takes_map (takes_many 4 (takes_temp hG c f) n cur) (fun a ha => ⟨_, by simp only [ha]; rfl⟩) (fun e he => by simp only [he])
  | alarm =>
    exact takes_map (takes_many 2 (takes_alarm hG) n cur) (fun a ha => ⟨_, by simp only [ha]; rfl⟩) (fun e he => by simp only [he])

theorem takes_text (k cur : Nat) :
    Takes p G ((List.range k).map (fun j => (cur + 2 * j, 2))) (cur + 2 * k) (readText k p cur) :=
  takes_map (takes_many 2 (takes_8 hG) k cur) (fun a ha => ⟨_, by simp only [readText, ha]; rfl⟩)
    (fun e he => by simp only [readText, he])

theorem takes_bytes (k cur : Nat) :
    Takes p G ((List.range k).map (fun j => (cur + 2 * j, 2))) (cur + 2 * k) (readBytes k p cur) :=
  takes_map (takes_many 2 (takes_8 hG) k cur) (fun a ha => ⟨_, by simp only [readBytes, ha]; rfl⟩)
    (fun e he => by simp only [readBytes, he])

/-! ## Slots -/

omit hG in
/-- Storing what was read takes what the reading took. -/
theorem takes_store {f : Field} {r : Record} {toks : List (Nat × Nat)} {cur : Nat} {x : Read Value}
    (h : Takes p G toks cur x) : Takes p G toks cur (storeRead f r x) :=
  takes_map h (fun a ha => ⟨_, by simp only [storeRead, ha]; rfl⟩) (fun e he => by simp only [storeRead, he])

/-- A counted list takes its count and then as many tokens as the count that was read says (R196). -/
theorem takes_counted (c : Config) (f l : Field) (st : List Nat) (r : Record) (n cur : Nat)
    (hn : G (cur, 2) → takeHex p 2 cur = .ok (n, cur + 2)) :
    Takes p G ([(cur, 2)] ++ (List.range n).map (fun j => (cur + 2 + (tokenOf l).chars * j, (tokenOf l).chars)))
      (cur + 2 + (tokenOf l).chars * n) (readSlot c (.counted f l) st p cur r) := by
  refine takes_append (x := takeHex p 2 cur) (takes_one hG (fun v hv => ⟨v, hv⟩) (fun e he => he))
    (fun e he => by simp only [readSlot, he]) fun v hv hg => ?_
  have hv' := hn (hg _ (List.mem_singleton.mpr rfl))
  simp only [readSlot, hv']
  exact takes_store (takes_list hG c l n (cur + 2))

theorem takes_narrow (c : Config) (f : Field) (cur : Nat) : Takes p G [(cur, 4)] (cur + 4) (readNarrow c f p cur) :=
  takes_map (takes_num hG c f 4 cur) (fun a ha => ⟨_, by simp only [readNarrow, capNarrowChars, ha]; rfl⟩)
    (fun e he => by simp only [readNarrow, capNarrowChars, he])

theorem takes_wideToken (cur : Nat) : Takes p G [(cur, 6)] (cur + 6) (readWide p cur) :=
  takes_one hG (fun _ hv => ⟨_, readWide_ok hv⟩) (fun e he => by simp only [readWide, capWideChars, he])

theorem takes_statusFlags (c : Config) (st : List Nat) (r : Record) (cur : Nat) :
    Takes p G [(cur, 2)] (cur + 2) (readSlot c .statusFlags st p cur r) :=
  takes_map (takes_8 hG cur) (fun a ha => ⟨_, by simp only [readSlot, ha]; rfl⟩) (fun e he => by simp only [readSlot, he])

end

/-- A slot, then the rest of the layout, with the record the slot left. -/
theorem takes_slots {p : List Byte} {G : Nat × Nat → Prop} {c : Config} {t : Slot} {ts : Layout} {st : List Nat}
    {cur c₁ c₂ : Nat} {r : Record} {a b : List (Nat × Nat)} (h : Takes p G a c₁ (readSlot c t st p cur r))
    (hs : ∀ r', readSlot c t st p cur r = .ok (r', c₁) → (∀ u ∈ a, G u) →
      Takes p G b c₂ (readSlots c p ts (st ++ [cur]) c₁ r')) :
    Takes p G (a ++ b) c₂ (readSlots c p (t :: ts) st cur r) :=
  takes_append h (fun e he => by simp only [readSlots, he])
    (fun v hv hg => by simpa only [readSlots, hv] using hs v hv hg)

end Sys2Proof.Machine
end

