-- ==== Sys2Proof/Laws/Forget.lean ====
section
/-!
SUPPORT. No operation reads a register that R36 leaves unspecified after reset before it is written (`forgetUnspecified`,
Safety.lean; U20): one lemma for each operation, `blind_` for those that give a state, `pairBlind_` for those that also
answer something, `outcomeBlind_` for the meanings.
-/

namespace Sys2Proof.Machine

/-- An outcome without what the spec leaves unspecified after reset. -/
def forgetOutcome (o : Outcome) : Outcome := match o with | .next s => .next (forgetUnspecified s) | .fault f => .fault f | .refused r => .refused r

@[simp] theorem forget_env (s : State) : (forgetUnspecified s).env = s.env := rfl
@[simp] theorem forget_cfg (s : State) : (forgetUnspecified s).cfg = s.cfg := rfl
@[simp] theorem forget_seq (s : State) : (forgetUnspecified s).seq = s.seq := rfl
@[simp] theorem forget_regs (s : State) : (forgetUnspecified s).regs = s.regs := rfl
@[simp] theorem forget_flags (s : State) : (forgetUnspecified s).flags = s.flags := rfl
@[simp] theorem forget_txde (s : State) : (forgetUnspecified s).tx.de = s.tx.de := rfl
@[simp] theorem forget_snap (s : State) : (forgetUnspecified s).out.snap = s.out.snap := rfl
@[simp] theorem forget_snapM (s : State) : (forgetUnspecified s).out.snapM = s.out.snapM := rfl
@[simp] theorem forget_rec (s : State) : (forgetUnspecified s).out.record = s.out.record := rfl
@[simp] theorem forget_fifo (s : State) : (forgetUnspecified s).rx.fifo = s.rx.fifo := rfl
@[simp] theorem forget_frame (s : State) : (forgetUnspecified s).rx.frame = s.rx.frame := rfl
@[simp] theorem forget_frameLen (s : State) : (forgetUnspecified s).rx.frameLen = s.rx.frameLen := rfl
@[simp] theorem forget_rxs (s : State) : (forgetUnspecified s).rx.state = s.rx.state := rfl

@[simp] theorem ite_idem_left {α} (c : Prop) [Decidable c] (a b : α) : (if c then (if c then a else b) else b) = if c then a else b := by split <;> simp_all
@[simp] theorem ite_idem_right {α} (c : Prop) [Decidable c] (a b : α) : (if c then b else (if c then b else a)) = if c then b else a := by split <;> simp_all

/-- `f` does not read what is forgotten. -/
def Blind (f : State → State) : Prop := ∀ s, forgetUnspecified (f s) = forgetUnspecified (f (forgetUnspecified s))

theorem blind_comp {f g : State → State} (hf : Blind f) (hg : Blind g) : Blind (fun s => g (f s)) := by
  intro s; show forgetUnspecified (g (f s)) = forgetUnspecified (g (f (forgetUnspecified s))); rw [hg (f s), hf s, ← hg]

theorem blind_if {c : State → Prop} [∀ s, Decidable (c s)] {f g : State → State} (hc : ∀ s, c (forgetUnspecified
    s) ↔ c s) (hf : Blind f) (hg : Blind g) : Blind (fun s => if c s then f s else g s) := by
  intro s
  by_cases h : c s
  · simp only [h, (hc s).mpr h, if_true, hf s]
  · have : ¬ c (forgetUnspecified s) := fun x => h ((hc s).mp x)
    simp only [h, this, if_false, hg s]

theorem blind_id : Blind (fun s => s) := by
  intro s; simp only [forgetUnspecified]
  congr 1
  · congr 1 <;> (split <;> simp_all)
  · congr 1; split <;> simp_all

theorem forget_forget (s : State) : forgetUnspecified (forgetUnspecified s) = forgetUnspecified s := (blind_id s).symm


theorem blind_finish (k v) (hk : k ≠ .nothing) : Blind (finish k v) := by
  intro s; cases hx : s.rx.state <;> cases hq : s.flags.resultKind <;> simp [hx, hq, forgetUnspecified, finish, hk]
theorem blind_toIdle : Blind toIdle := by
  intro s; cases hx : s.rx.state <;> cases hq : s.flags.resultKind <;> simp [hx, hq, forgetUnspecified, toIdle]
theorem blind_setOrch (o) : Blind (setOrch o) := by
  intro s; cases hx : s.rx.state <;> cases hq : s.flags.resultKind <;> simp [hx, hq, forgetUnspecified, setOrch]
theorem blind_setRP (o) : Blind (setRetryPhase o) := by
  intro s; cases hx : s.rx.state <;> cases hq : s.flags.resultKind <;> simp [hx, hq, forgetUnspecified, setRetryPhase]
theorem blind_advance (o) : Blind (advance o) := by
  intro s; cases hx : s.rx.state <;> cases hq : s.flags.resultKind <;> simp [hx, hq, forgetUnspecified, advance]
theorem blind_inputs (o) : Blind (setInputs o) := by
  intro s; cases hx : s.rx.state <;> cases hq : s.flags.resultKind <;> simp [hx, hq, forgetUnspecified, setInputs]
theorem blind_startT (a b c) : Blind (startTransaction a b c) := by
  intro s; cases hx : s.rx.state <;> cases hq : s.flags.resultKind <;> simp [hx, hq, forgetUnspecified, startTransaction]
theorem blind_endD : Blind endDiscovery := by
  intro s; cases hx : s.rx.state <;> cases hq : s.flags.resultKind <;> simp [hx, hq, forgetUnspecified, endDiscovery]
theorem blind_sample : Blind sampleStop := by
  intro s; cases hst : s.env.stop <;> cases hx : s.rx.state <;> cases hq : s.flags.resultKind <;> simp [sampleStop, hst, hx, hq, forgetUnspecified]
theorem blind_setSnap (a b) : Blind (setSnap a b) := by
  intro s; cases hx : s.rx.state <;> cases hq : s.flags.resultKind <;> simp [hx, hq, forgetUnspecified, setSnap]
theorem blind_setCursors (a b) : Blind (setCursors a b) := by
  intro s; cases hx : s.rx.state <;> cases hq : s.flags.resultKind <;> simp [hx, hq, forgetUnspecified, setCursors]
theorem blind_setDisc (a) : Blind (setDisc a) := by
  intro s; cases hx : s.rx.state <;> cases hq : s.flags.resultKind <;> simp [hx, hq, forgetUnspecified, setDisc]
theorem blind_clear : Blind clearForCommand := by
  intro s; cases hx : s.rx.state <;> cases hq : s.flags.resultKind <;> simp [hx, hq, forgetUnspecified, clearForCommand]
theorem blind_latch (c i) : Blind (latchCommand c i) := by
  intro s; cases hx : s.rx.state <;> cases hq : s.flags.resultKind <;> simp [hx, hq, forgetUnspecified, latchCommand]
theorem blind_setRx_off : Blind (setRx .off) := by
  intro s; cases hx : s.rx.state <;> cases hq : s.flags.resultKind <;> simp [hx, hq, forgetUnspecified, setRx]
theorem blind_fifoRest (r) : Blind (fifoRest r) := by
  intro s; cases hx : s.rx.state <;> cases hq : s.flags.resultKind <;> simp [hx, hq, forgetUnspecified, fifoRest]
theorem blind_entry (d) : Blind (receiveEntry d) := by
  intro s; cases hx : s.rx.state <;> cases hq : s.flags.resultKind <;> simp [hx, hq, forgetUnspecified, receiveEntry]
theorem blind_start (b) : Blind (fun s => setRx .collect (frameStart b s)) := by
  intro s; cases hx : s.rx.state <;> cases hq : s.flags.resultKind <;> simp [hx, hq, forgetUnspecified, setRx, frameStart]
theorem blind_append (b) : Blind (frameAppend b) := by
  intro s; cases hx : s.rx.state <;> cases hq : s.flags.resultKind <;> simp [hx, hq, forgetUnspecified, frameAppend]
theorem blind_setRecord (b) : Blind (setRecord b) := by
  intro s; cases hx : s.rx.state <;> cases hq : s.flags.resultKind <;> simp [hx, hq, forgetUnspecified, setRecord]
@[simp] theorem forget_ret (s : State) : retriesExhausted (forgetUnspecified s) = retriesExhausted s := rfl
theorem blind_enterR (b) : Blind (enterRetrying b) := by
  intro s; cases hre : retriesExhausted s <;> cases hx : s.rx.state <;> cases hq : s.flags.resultKind <;> simp [enterRetrying, hre] <;> simp [hx, hq, forgetUnspecified]
theorem blind_err (e) : Blind (fun s => { s with flags := { s.flags with lastErr := some e } }) := by
  intro s; cases hx : s.rx.state <;> cases hq : s.flags.resultKind <;> simp [hx, hq, forgetUnspecified]

theorem blind_chkhdr (k : Chk) (h : Hdr) (k2 : Chk) (h2 : Hdr) (s : State) (hk : k.acc = k2.acc) :
    forgetUnspecified { s with chk := k, hdr := h }
      = forgetUnspecified { forgetUnspecified s with chk := k2, hdr := h2 } := by
  cases hx : s.rx.state <;> cases hq : s.flags.resultKind <;> simp [hx, hq, forgetUnspecified, hk]

/-- A step that also answers something reads nothing of what is forgotten. -/
def PairBlind {α} (f : State → α × State) : Prop := ∀ s, (f s).1 = (f (forgetUnspecified s)).1 ∧ forgetUnspecified (f s).2 = forgetUnspecified (f (forgetUnspecified s)).2

theorem pairBlind_hunt : ∀ s : State, s.rx.state = .hunt → (huntStep s).1 = (huntStep (forgetUnspecified s)).1 ∧
    forgetUnspecified (huntStep s).2 = forgetUnspecified (huntStep (forgetUnspecified s)).2 := by
  intro s hx
  have hdl : (forgetUnspecified s).rx.deadlineAt = s.rx.deadlineAt := by simp [forgetUnspecified, hx]
  unfold huntStep
  simp only [hdl, forget_env, forget_fifo, forget_cfg]
  split
  · exact ⟨rfl, blind_setRx_off s⟩
  · split
    · exact ⟨rfl, blind_advance _ s⟩
    · rename_i b rest _
      split
      · exact ⟨rfl, (blind_comp (blind_fifoRest rest) (blind_start b)) s⟩
      · exact ⟨rfl, blind_fifoRest _ s⟩

theorem pairBlind_collect : ∀ s : State, s.rx.state = .collect → (collectStep s).1 = (collectStep
    (forgetUnspecified s)).1 ∧ forgetUnspecified (collectStep s).2 = forgetUnspecified (collectStep
    (forgetUnspecified s)).2 := by
  intro s hx
  have hdl : (forgetUnspecified s).rx.lastByteAt = s.rx.lastByteAt := by simp [forgetUnspecified, hx]
  unfold collectStep
  simp only [hdl, forget_env, forget_fifo, forget_cfg]
  split
  · rename_i b rest _
    have ha := blind_comp (blind_fifoRest rest) (blind_append b)
    have hb := blind_comp ha blind_setRx_off
    show (if b = endMarker then _ else if some (s.rx.frameLen + 1) = _ then _ else _ : Received × State).1 = (if b = endMarker then _ else if some (s.rx.frameLen + 1) = _ then _ else _ : Received × State).1 ∧ forgetUnspecified (if b = endMarker then _ else if some (s.rx.frameLen + 1) = _ then _ else _ : Received × State).2 = forgetUnspecified (if b = endMarker then _ else if some (s.rx.frameLen + 1) = _ then _ else _ : Received × State).2
    by_cases h1 : b = endMarker
    · simp only [h1, if_true]; subst h1; exact ⟨trivial, hb s⟩
    · by_cases h2 : some (s.rx.frameLen + 1) = s.cfg.framebufDepth
      · simp only [h1, if_false, h2, if_true]; exact ⟨trivial, hb s⟩
      · simp only [h1, if_false, h2]; exact ⟨trivial, ha s⟩
  · split
    · exact ⟨rfl, blind_setRx_off s⟩
    · exact ⟨rfl, blind_advance _ s⟩

theorem pairBlind_receive (d) : PairBlind (receiveStep d) := by
  intro s
  unfold receiveStep
  simp only [forget_rxs]
  cases hx : s.rx.state
  · exact ⟨rfl, blind_entry d s⟩
  · exact pairBlind_hunt s hx
  · exact pairBlind_collect s hx

theorem blind_sendStart (f k) : Blind (fun s => sendStart f { s with chk := { s.chk with acc := k } }) := by
  intro s; cases hx : s.rx.state <;> cases hq : s.flags.resultKind <;> simp [hx, hq, forgetUnspecified, sendStart]
theorem blind_sendShift : Blind sendShift := by
  intro s; cases hx : s.rx.state <;> cases hq : s.flags.resultKind <;> simp [hx, hq, forgetUnspecified, sendShift]
theorem blind_sendFlush : Blind sendFlush := by
  intro s; cases hx : s.rx.state <;> cases hq : s.flags.resultKind <;> simp [hx, hq, forgetUnspecified, sendFlush]

theorem pairBlind_send (w i) : PairBlind (sendQueryStep w i) := by
  intro s
  rcases sendQueryStep_cases w i s with ⟨hd, e⟩ | ⟨hd, hp, e⟩ | ⟨hd, hp, e⟩
  · rw [e, sendQueryStep_idle (s := forgetUnspecified s) hd]; exact ⟨rfl, blind_sendStart _ _ s⟩
  · rw [e, sendQueryStep_shift (s := forgetUnspecified s) hd hp]; exact ⟨rfl, blind_sendShift s⟩
  · rw [e, sendQueryStep_flush (s := forgetUnspecified s) hd hp]; exact ⟨rfl, blind_sendFlush s⟩

theorem decodeFrame_blind (f : List Byte) (k k' : Chk) : (decodeFrame f k).2 = (decodeFrame f k').2 ∧ (k.acc =
    k'.acc → (decodeFrame f k).1.acc = (decodeFrame f k').1.acc) := by
  unfold decodeFrame
  simp only
  split
  · exact ⟨rfl, fun h => h⟩
  · split
    · exact ⟨rfl, fun _ => rfl⟩
    · split <;> exact ⟨rfl, fun _ => rfl⟩

theorem decodeHeader_blind (b : List Byte) (h h' : Hdr) : (decodeHeader b h).2 = (decodeHeader b h').2 ∧ (∀ p,
    (decodeHeader b h).2 = .ok p → (decodeHeader b h).1 = (decodeHeader b h').1) := by
  unfold decodeHeader
  split
  · exact ⟨rfl, nofun⟩
  · split
    · exact ⟨rfl, nofun⟩
    · simp only
      split
      · exact ⟨rfl, nofun⟩
      · exact ⟨rfl, fun _ _ => rfl⟩

theorem pairBlind_decodeAnswer (w) : PairBlind (fun s => ((decodeAnswer w s).2, (decodeAnswer w s).1)) := by
  intro s
  simp only
  have hf : (forgetUnspecified s).frame = s.frame := rfl
  obtain ⟨d1, d2⟩ := decodeFrame_blind s.frame s.chk (forgetUnspecified s).chk
  have d2 := d2 rfl
  unfold decodeAnswer
  rw [hf]
  rcases h1 : decodeFrame s.frame s.chk with ⟨k, x⟩
  rcases h2 : decodeFrame s.frame (forgetUnspecified s).chk with ⟨k', x'⟩
  rw [h1, h2] at d1 d2
  simp only at d1 d2
  subst d1
  cases x with
  | error e => exact ⟨rfl, blind_chkhdr k s.hdr k' (forgetUnspecified s).hdr s d2⟩
  | ok b =>
    simp only [forget_cfg]
    have : (decodeResponse s.cfg w b s.hdr).2 = (decodeResponse s.cfg w b (forgetUnspecified s).hdr).2 := by
      obtain ⟨g1, g2⟩ := decodeHeader_blind b s.hdr (forgetUnspecified s).hdr
      unfold decodeResponse
      rcases h3 : decodeHeader b s.hdr with ⟨h, y⟩
      rcases h4 : decodeHeader b (forgetUnspecified s).hdr with ⟨h', y'⟩
      rw [h3, h4] at g1 g2
      simp only at g1 g2
      subst g1
      cases y with
      | error e => rfl
      | ok p => 
        have := g2 p rfl
        subst this
        rfl
    exact ⟨this, blind_chkhdr k _ k' _ s d2⟩

theorem pairBlind_decodeInto (w) : PairBlind (fun s => ((decodeIntoRecord w s).2, (decodeIntoRecord w s).1)) := by
  intro s
  obtain ⟨a, b⟩ := pairBlind_decodeAnswer w s
  simp only at a b ⊢
  unfold decodeIntoRecord
  rcases h1 : decodeAnswer w s with ⟨u, x⟩
  rcases h2 : decodeAnswer w (forgetUnspecified s) with ⟨u', x'⟩
  rw [h1, h2] at a b
  simp only at a b
  subst a
  have hs : ∀ r, forgetUnspecified (setRecord r u) = forgetUnspecified (setRecord r u') := fun r => by
    rw [blind_setRecord r u, show forgetUnspecified u = forgetUnspecified u' from b, ← blind_setRecord r u']
  cases x with
  | ok r => exact ⟨rfl, hs r⟩
  | error e => cases e <;> first | exact ⟨rfl, hs []⟩ | exact ⟨rfl, b⟩

/-- A meaning reads nothing of what is forgotten. -/
def OutcomeBlind (f : State → Outcome) : Prop := ∀ s, forgetOutcome (f s) = forgetOutcome (f (forgetUnspecified s))
theorem outcomeBlind_next {f} (h : Blind f) : OutcomeBlind (fun s => .next (f s)) := fun s => congrArg
    Host.Outcome.next (h s)
theorem blind_of {f : State → State} (h : Blind f) {u u' : State} (e : forgetUnspecified u = forgetUnspecified
    u') : forgetUnspecified (f u) = forgetUnspecified (f u') := by rw [h u, e, ← h u']
theorem outcomeBlind_of {f : State → Outcome} (h : OutcomeBlind f) {u u' : State} (e : forgetUnspecified u =
    forgetUnspecified u') : forgetOutcome (f u) = forgetOutcome (f u') := by rw [h u, e, ← h u']
theorem outcomeBlind_comp {f g} (hf : Blind f) (hg : OutcomeBlind g) : OutcomeBlind (fun s => g (f s)) := fun s
    => outcomeBlind_of hg (hf s)

theorem forget_if {c : Prop} {i1 i2 : Decidable c} {a b a' b' : State} (h1 : c → forgetUnspecified a =
    forgetUnspecified a') (h2 : ¬ c → forgetUnspecified b = forgetUnspecified b') : forgetUnspecified (@ite _ c
    i1 a b) = forgetUnspecified (@ite _ c i2 a' b') := by
  by_cases h : c
  · rw [if_pos h, if_pos h]; exact h1 h
  · rw [if_neg h, if_neg h]; exact h2 h
theorem outcome_if {c : Prop} {i1 i2 : Decidable c} {a b a' b' : Outcome} (h1 : c → forgetOutcome a =
    forgetOutcome a') (h2 : ¬ c → forgetOutcome b = forgetOutcome b') : forgetOutcome (@ite _ c i1 a b) =
    forgetOutcome (@ite _ c i2 a' b') := by
  by_cases h : c
  · rw [if_pos h, if_pos h]; exact h1 h
  · rw [if_neg h, if_neg h]; exact h2 h

theorem blind_cancelRound : Blind cancelRound := blind_comp (f := setSnap ModuleSnapshot.empty []) (g := finish
    .null .absent) (blind_setSnap _ _) (blind_finish _ _ (by decide))
theorem blind_roundQuery (m q) : Blind (roundQuery m q) := by
  intro s
  unfold roundQuery
  simp only [forget_env]
  have h := blind_comp (blind_setCursors m q) blind_sample
  refine forget_if (fun _ => ?_) (fun _ => ?_)
  · exact blind_comp h blind_cancelRound s
  · exact blind_comp h (blind_startT q.toWire m false) s

theorem blind_lastSnap (st) : Blind (fun s => { s with out := { s.out with lastSnapshot := st } }) := by
  intro s; cases hx : s.rx.state <;> cases hq : s.flags.resultKind <;> simp [hx, hq, forgetUnspecified]

theorem outcomeBlind_completeRound : OutcomeBlind completeRound := by
  intro s
  unfold completeRound
  simp only [forget_snap]
  split
  · rfl
  · exact outcomeBlind_next (blind_comp (blind_lastSnap _) (blind_finish _ _ (by decide))) s

theorem outcomeBlind_startRound : OutcomeBlind startRound := by
  intro s
  unfold startRound
  simp only [forget_regs]
  refine outcome_if (fun _ => ?_) (fun _ => ?_)
  · exact outcomeBlind_comp (blind_setSnap _ _) outcomeBlind_completeRound s
  · exact outcomeBlind_next (blind_comp (blind_setSnap _ _) (blind_roundQuery _ _)) s

theorem outcomeBlind_roundOk (r) : OutcomeBlind (roundOk r) := by
  intro s
  unfold roundOk
  simp only [forget_regs, forget_seq, forget_snap, forget_snapM]
  split
  · exact outcomeBlind_next (blind_comp (blind_setSnap _ _) (blind_roundQuery _ _)) s
  · refine outcome_if (fun _ => ?_) (fun _ => ?_)
    · exact outcomeBlind_next (blind_comp (blind_setSnap _ _) (blind_roundQuery _ _)) s
    · exact outcomeBlind_comp (blind_setSnap _ _) outcomeBlind_completeRound s

theorem blind_discoverLoop : Blind discoverLoop := by
  intro s
  unfold discoverLoop
  simp only [forget_seq, forget_cfg, forget_env]
  refine forget_if (fun _ => ?_) (fun _ => ?_)
  · refine forget_if (fun _ => ?_) (fun _ => ?_)
    · exact blind_comp blind_sample blind_endD s
    · exact blind_comp blind_sample (blind_startT _ _ _) s
  · exact blind_endD s

theorem blind_fail (e) : Blind (failTransaction e) := by
  intro s
  unfold failTransaction
  simp only [forget_regs]
  refine forget_if (fun _ => ?_) (fun _ => ?_)
  · exact blind_comp (blind_err e) blind_endD s
  · exact blind_enterR e s

theorem blind_cancelled (k) : Blind (transactCancelled k) := by
  cases k
  · exact blind_finish _ _ (by decide)
  · exact blind_cancelRound
  · exact blind_finish _ _ (by decide)

theorem outcomeBlind_ok (k r) : OutcomeBlind (transactOk k r) := by
  cases k
  · exact outcomeBlind_next (blind_finish _ _ (by decide))
  · exact outcomeBlind_roundOk _
  · intro s
    exact outcomeBlind_next (blind_comp (blind_setDisc _) blind_discoverLoop) s

theorem blind_sending (w) : Blind (sendingStep w) := by
  intro s
  unfold sendingStep
  obtain ⟨a, b⟩ := pairBlind_send w s.regs.curIdx s
  simp only [forget_regs]
  rcases h1 : sendQueryStep w s.regs.curIdx s with ⟨x, u⟩
  rcases h2 : sendQueryStep w s.regs.curIdx (forgetUnspecified s) with ⟨x', u'⟩
  rw [h1, h2] at a b
  simp only at a b
  subst a
  cases x
  · exact b
  · exact blind_of (blind_setOrch _) (blind_of (blind_entry _) b)

theorem blind_awaiting (w) : Blind (awaitingStep w) := by
  intro s
  unfold awaitingStep
  obtain ⟨a, b⟩ := pairBlind_receive (deadlineOf s.cfg w) s
  simp only [forget_cfg]
  rcases h1 : receiveStep (deadlineOf s.cfg w) s with ⟨x, u⟩
  rcases h2 : receiveStep (deadlineOf s.cfg w) (forgetUnspecified s) with ⟨x', u'⟩
  rw [h1, h2] at a b
  simp only at a b
  subst a
  cases x
  · exact b
  · exact blind_of (blind_fail _) b
  · exact blind_of (blind_setOrch _) b

theorem outcomeBlind_decoding (w k) : OutcomeBlind (decodingStep w k) := by
  intro s
  unfold decodingStep
  obtain ⟨a, b⟩ := pairBlind_decodeInto w s
  simp only at a b
  rcases h1 : decodeIntoRecord w s with ⟨u, x⟩
  rcases h2 : decodeIntoRecord w (forgetUnspecified s) with ⟨u', x'⟩
  rw [h1, h2] at a b
  simp only at a b
  subst a
  cases x
  · exact outcomeBlind_of (outcomeBlind_next (blind_fail _)) b
  · exact outcomeBlind_of (outcomeBlind_ok _ _) b

theorem blind_probeCnt (n p) : Blind (fun s => { s with seq := { s.seq with probeCnt := n, retryPhase := p } }) := by
  intro s; cases hx : s.rx.state <;> cases hq : s.flags.resultKind <;> simp [hx, hq, forgetUnspecified]

theorem blind_retrying (k) : Blind (retryingStep k) := by
  intro s
  unfold retryingStep
  simp only [forget_seq, forget_cfg]
  have hc := blind_comp blind_sample (blind_cancelled k)
  cases s.seq.retryPhase
  · simp only [retryEntry, forget_env]
    refine forget_if (fun _ => ?_) (fun _ => ?_)
    · exact hc s
    · exact blind_probeCnt 0 .test s
  · exact blind_cancelled k s
  · simp only [retryTest, forget_seq, forget_cfg]
    refine forget_if (fun _ => ?_) (fun _ => ?_)
    · exact blind_probeCnt _ _ s
    · exact blind_setRP _ s
  · obtain ⟨a, b⟩ := pairBlind_send .protocol 0 s
    simp only
    rcases h1 : sendQueryStep .protocol 0 s with ⟨x, u⟩
    rcases h2 : sendQueryStep .protocol 0 (forgetUnspecified s) with ⟨x', u'⟩
    rw [h1, h2] at a b
    simp only at a b
    subst a
    cases x
    · exact b
    · exact blind_of (blind_setRP _) (blind_of (blind_entry _) b)
  · obtain ⟨a, b⟩ := pairBlind_receive s.cfg.deadlineFast s
    simp only
    rcases h1 : receiveStep s.cfg.deadlineFast s with ⟨x, u⟩
    rcases h2 : receiveStep s.cfg.deadlineFast (forgetUnspecified s) with ⟨x', u'⟩
    rw [h1, h2] at a b
    simp only at a b
    subst a
    cases x
    · exact b
    · exact blind_of (blind_setRP _) b
    · exact blind_of (blind_setRP _) b
  · simp only [probeDecodeStep]
    obtain ⟨a, b⟩ := pairBlind_decodeAnswer .protocol s
    simp only at a b
    rcases h1 : decodeAnswer .protocol s with ⟨u, x⟩
    rcases h2 : decodeAnswer .protocol (forgetUnspecified s) with ⟨u', x'⟩
    rw [h1, h2] at a b
    simp only at a b
    subst a
    cases x
    · exact blind_of (blind_setRP _) b
    · exact blind_of (blind_setRP _) b
  · simp only [retryFailed, forget_env]
    refine forget_if (fun _ => ?_) (fun _ => ?_)
    · exact hc s
    · exact blind_setRP _ s
  · simp only [retryLeave, forget_env]
    refine forget_if (fun _ => ?_) (fun _ => ?_)
    · exact hc s
    · exact blind_setOrch _ s

theorem outcomeBlind_id : OutcomeBlind (fun s => .next s) := outcomeBlind_next blind_id

theorem outcomeBlind_transact (w k) : OutcomeBlind (transactStep w k) := by
  intro s
  unfold transactStep
  simp only [forget_seq]
  cases s.seq.orch
  · exact outcomeBlind_id s
  · exact outcomeBlind_id s
  · exact outcomeBlind_next (blind_sending w) s
  · exact outcomeBlind_next (blind_awaiting w) s
  · exact outcomeBlind_decoding w k s
  · exact outcomeBlind_next (blind_retrying k) s
  · exact outcomeBlind_id s

theorem blind_accept (c i) : Blind (acceptCommand c i) :=
  blind_comp (f := fun s => latchCommand c i (clearForCommand s)) (g := sampleStop) (blind_comp blind_clear (blind_latch c i)) blind_sample

theorem outcomeBlind_single (w i) : OutcomeBlind (runSingle w i) := by
  intro s
  have hr : ∀ o : OrchState, forgetOutcome (if s.regs.cmd = .wire w then transactStep w .single s else .next s) = forgetOutcome (if s.regs.cmd = .wire w then transactStep w .single (forgetUnspecified s) else .next (forgetUnspecified s)) := by
    intro o
    refine outcome_if (fun _ => ?_) (fun _ => ?_)
    · exact outcomeBlind_transact _ _ s
    · exact outcomeBlind_id s
  unfold runSingle
  simp only [forget_seq, forget_flags, forget_regs]
  refine outcome_if (fun _ => ?_) (fun _ => ?_)
  · cases ho : s.seq.orch
    · exact outcomeBlind_id s
    · refine outcomeBlind_next (f := acceptSingle w i) ?_ s
      intro s
      unfold acceptSingle
      simp only [forget_env]
      refine forget_if (fun _ => ?_) (fun _ => ?_)
      · exact blind_comp (blind_accept _ _) (blind_finish _ _ (by decide)) s
      · have h2 : ∀ u : State, (acceptCommand (.wire w) i u).regs.midx = clamp i u.regs.moduleCount := by
          intro u; unfold acceptCommand sampleStop; split <;> rfl
        rw [h2, h2]
        exact blind_comp (blind_accept _ _) (blind_startT w (clamp i s.regs.moduleCount) false) s
    · exact hr .sending
    · exact hr .sending
    · exact hr .sending
    · exact hr .sending
    · simp only
      refine outcome_if (fun _ => ?_) (fun _ => ?_)
      · exact outcomeBlind_next blind_toIdle s
      · exact outcomeBlind_id s
  · exact outcomeBlind_id s

theorem outcomeBlind_status (i) : OutcomeBlind (runStatus i) := by
  intro s
  have hr : ∀ o : OrchState, forgetOutcome (if s.regs.cmd = .status then transactStep s.seq.seqQ.toWire .round s else .next s) = forgetOutcome (if s.regs.cmd = .status then transactStep s.seq.seqQ.toWire .round (forgetUnspecified s) else .next (forgetUnspecified s)) := by
    intro o
    refine outcome_if (fun _ => ?_) (fun _ => ?_)
    · exact outcomeBlind_transact _ _ s
    · exact outcomeBlind_id s
  unfold runStatus
  simp only [forget_seq, forget_flags, forget_regs]
  refine outcome_if (fun _ => ?_) (fun _ => ?_)
  · cases ho : s.seq.orch
    · exact outcomeBlind_id s
    · show forgetOutcome (acceptStatus i s) = forgetOutcome (acceptStatus i (forgetUnspecified s))
      unfold acceptStatus
      simp only [forget_env]
      refine outcome_if (fun _ => ?_) (fun _ => ?_)
      · exact outcomeBlind_next (blind_comp (blind_accept _ _) (blind_finish _ _ (by decide))) s
      · exact outcomeBlind_comp (blind_accept _ _) outcomeBlind_startRound s
    · exact hr .sending
    · exact hr .sending
    · exact hr .sending
    · exact hr .sending
    · simp only
      refine outcome_if (fun _ => ?_) (fun _ => ?_)
      · exact outcomeBlind_next blind_toIdle s
      · exact outcomeBlind_id s
  · exact outcomeBlind_id s

theorem outcomeBlind_exec (i) : OutcomeBlind (exec i) := by
  cases i <;> first | exact outcomeBlind_single _ _ | exact outcomeBlind_status _

theorem blind_byte (b) : Blind (receiveByte b) := by
  intro s
  unfold receiveByte
  simp only [forget_txde, forget_env, forget_cfg, forget_fifo]
  have hf : ∀ q n, forgetUnspecified { s with rx := { s.rx with fifo := q }, env := { s.env with freeCtr := n } } = forgetUnspecified { forgetUnspecified s with rx := { (forgetUnspecified s).rx with fifo := q }, env := { s.env with freeCtr := n } } := by
    intro q n; cases hx : s.rx.state <;> cases hq : s.flags.resultKind <;> simp [hx, hq, forgetUnspecified]
  refine forget_if (fun _ => ?_) (fun _ => ?_)
  · exact blind_id s
  · split
    · exact hf _ s.env.freeCtr
    · refine forget_if (fun _ => ?_) (fun _ => ?_)
      · exact hf _ s.env.freeCtr
      · exact hf _ _

end Sys2Proof.Machine
end

