-- ==== Sys2Proof/Laws/Header.lean ====
section
/-!
SUPPORT. What the header decoder does (spec/43_response_decoder.md R191), check by check, and LENID as the low twelve bits of
LENGTH (spec/30_encoding.md R87).
-/

namespace Sys2Proof.Machine

/-- LENID is LENGTH modulo 4096. -/
theorem lenid_eq (l : Nat) : (BitVec.ofNat 16 l &&& lenidMask).setWidth 12 = BitVec.ofNat 12 l := by
  have hm : lenidMask.toNat = 2 ^ 12 - 1 := rfl
  apply BitVec.eq_of_toNat_eq
  rw [BitVec.toNat_setWidth, BitVec.toNat_and, hm, Nat.and_two_pow_sub_one_eq_mod, BitVec.toNat_ofNat,
    BitVec.toNat_ofNat]
  omega

/-- The registers a header leaves, before the length is compared. -/
def headerRegs (h : Hdr) (v a c r l : Nat) : Hdr :=
  { ver := BitVec.ofNat 8 v
    adr := BitVec.ofNat 8 a
    cid := BitVec.ofNat 8 c
    rtn := BitVec.ofNat 8 r
    length := BitVec.ofNat 16 l
    lenid := BitVec.ofNat 12 l
    cursor := h.cursor }

theorem decodeHeader_short {body : List Byte} (h : Hdr) (hl : body.length < 12) :
    decodeHeader body h = (h, .error .shortHeader) := by
  simp only [decodeHeader]
  exact if_pos hl

theorem decodeHeader_notHex {body : List Byte} (h : Hdr) (hl : 12 ≤ body.length) (ht : headerTokens body = none) :
    decodeHeader body h = (h, .error .notHex) := by
  simp only [decodeHeader, ht]
  exact if_neg (show ¬ body.length < hdrChars from Nat.not_lt.mpr hl)

theorem decodeHeader_mismatch {body : List Byte} (h : Hdr) {v a c r l : Nat} (hl : 12 ≤ body.length)
    (ht : headerTokens body = some (v, a, c, r, l)) (hn : body.length - 12 ≠ l % 4096) :
    decodeHeader body h = (headerRegs h v a c r l, .error .lengthMismatch) := by
  have hn' : body.length - hdrChars ≠ (BitVec.ofNat 12 l).toNat := by
    rw [BitVec.toNat_ofNat]; exact hn
  simp only [decodeHeader, ht, lenid_eq]
  rw [if_neg (show ¬ body.length < hdrChars from Nat.not_lt.mpr hl), if_pos hn']
  rfl

theorem decodeHeader_ok {body : List Byte} (h : Hdr) {v a c r l : Nat} (hl : 12 ≤ body.length)
    (ht : headerTokens body = some (v, a, c, r, l)) (he : body.length - 12 = l % 4096) :
    decodeHeader body h = ({ headerRegs h v a c r l with cursor := 0 }, .ok (body.drop 12)) := by
  have he' : body.length - hdrChars = (BitVec.ofNat 12 l).toNat := by
    rw [BitVec.toNat_ofNat]; exact he
  simp only [decodeHeader, ht, lenid_eq]
  rw [if_neg (show ¬ body.length < hdrChars from Nat.not_lt.mpr hl), if_neg (not_not_intro he'), ← he']
  have hs : slice body hdrChars (hdrChars + (body.length - hdrChars)) = body.drop 12 := by
    simp only [slice, hdrChars]
    apply List.take_of_length_le
    rw [List.length_drop]
    omega
  rw [hs]
  rfl

/-- Everything decode_header can do. -/
theorem decodeHeader_cases (body : List Byte) (h : Hdr) :
    (body.length < 12 ∧ decodeHeader body h = (h, .error .shortHeader))
      ∨ (12 ≤ body.length ∧ headerTokens body = none ∧ decodeHeader body h = (h, .error .notHex))
      ∨ ∃ v a c r l, 12 ≤ body.length ∧ headerTokens body = some (v, a, c, r, l)
        ∧ ((body.length - 12 ≠ l % 4096 ∧ decodeHeader body h = (headerRegs h v a c r l, .error .lengthMismatch))
          ∨ (body.length - 12 = l % 4096
            ∧ decodeHeader body h = ({ headerRegs h v a c r l with cursor := 0 }, .ok (body.drop 12)))) := by
  by_cases hl : body.length < 12
  · exact .inl ⟨hl, decodeHeader_short h hl⟩
  · have hl' : 12 ≤ body.length := by omega
    cases ht : headerTokens body with
    | none => exact .inr (.inl ⟨hl', rfl, decodeHeader_notHex h hl' ht⟩)
    | some x =>
      obtain ⟨v, a, c, r, l⟩ := x
      refine .inr (.inr ⟨v, a, c, r, l, hl', rfl, ?_⟩)
      by_cases he : body.length - 12 = l % 4096
      · exact .inr ⟨he, decodeHeader_ok h hl' ht he⟩
      · exact .inl ⟨he, decodeHeader_mismatch h hl' ht he⟩

end Sys2Proof.Machine
end

