-- ==== Sys2Proof/Laws/Memory.lean ====
section
/-!
SUPPORT. Every operation over the buffers and the record keeps their form `Memory.wf` (spec/20_memory.md R60 to R62), and the
machine after reset has it.
-/

namespace Sys2Proof.Machine

/-- What the form says, part by part. -/
theorem memory_wf_iff (s : State) :
    Memory.wf s = true ↔
      s.tx.len = s.tx.buf.length ∧ s.tx.pos ≤ s.tx.len ∧ s.rx.frameLen = s.rx.frame.length
        ∧ (∀ d, s.cfg.rxfifoDepth = some d → s.rx.fifo.length ≤ d)
        ∧ (∀ d, s.cfg.framebufDepth = some d → s.rx.frameLen ≤ d ∧ (s.rx.state = .collect → s.rx.frameLen < d))
        ∧ Record.sorted s.out.record = true := by
  unfold Memory.wf Memory.lengths Memory.bounded
  simp only [Bool.and_eq_true, decide_eq_true_eq, and_assoc]
  refine and_congr_right fun _ => and_congr_right fun _ => and_congr_right fun _ => and_congr ?_ (and_congr ?_ Iff.rfl)
  · cases s.cfg.rxfifoDepth <;> simp
  · cases s.cfg.framebufDepth with
    | none => simp
    | some v =>
      simp only [Bool.and_eq_true, Bool.or_eq_true, decide_eq_true_eq, Option.some.injEq, forall_eq']
      exact and_congr_right fun _ => (Decidable.imp_iff_not_or).symm

/-- The form looks at the buffers and their bounds only. -/
theorem memory_wf_congr {s t : State} (htx : t.tx = s.tx) (hrx : t.rx = s.rx) (hc : t.cfg = s.cfg)
    (hr : t.out.record = s.out.record) : Memory.wf t = Memory.wf s := by
  unfold Memory.wf Memory.lengths Memory.bounded
  rw [htx, hrx, hc, hr]

theorem reset_wf : Memory.wf State.reset = true := by decide

/-- The bound of FRAMEBUF in a configuration the spec allows (R5). -/
theorem legal_framebuf {c : Config} (h : c.legal = true) {d : Nat} (hd : c.framebufDepth = some d) : 4113 ≤ d := by
  unfold Config.legal at h
  simp only [Bool.and_eq_true, hd, decide_eq_true_eq] at h
  exact h.1.1.2

theorem receiveByte_wf (b : Byte) {s : State} (h : Memory.wf s = true) : Memory.wf (receiveByte b s) = true := by
  rcases receiveByte_cases b s with ⟨_, e⟩ | ⟨_, _, q, n, e, _, hq⟩ <;> rw [e]
  · exact h
  · rw [memory_wf_iff] at h ⊢
    exact ⟨h.1, h.2.1, h.2.2.1, fun d hd => hq d hd (h.2.2.2.1 d hd), h.2.2.2.2.1, h.2.2.2.2.2⟩

theorem sendStart_wf (f : List Byte) {s : State} (h : Memory.wf s = true) : Memory.wf (sendStart f s) = true := by
  rw [memory_wf_iff] at h ⊢
  exact ⟨rfl, Nat.zero_le _, h.2.2⟩

theorem sendShift_wf {s : State} (h : Memory.wf s = true) (hp : s.tx.pos < s.tx.len) :
    Memory.wf (sendShift s) = true := by
  rw [memory_wf_iff] at h ⊢
  exact ⟨h.1, hp, h.2.2⟩

theorem sendFlush_wf {s : State} (h : Memory.wf s = true) : Memory.wf (sendFlush s) = true := by
  rw [memory_wf_iff] at h ⊢
  exact h

/-- A step of a query's send keeps the form. -/
theorem sendQueryStep_wf (w : WireCmd) (i : Nat) {s : State} (h : Memory.wf s = true) :
    Memory.wf (sendQueryStep w i s).2 = true := by
  rcases sendQueryStep_cases w i s with ⟨_, e⟩ | ⟨_, hp, e⟩ | ⟨_, _, e⟩ <;> rw [e]
  · exact sendStart_wf _ ((memory_wf_congr rfl rfl rfl rfl).trans h)
  · exact sendShift_wf h hp
  · exact sendFlush_wf h

/-- The entry of `receive_frame` keeps the form. -/
theorem receiveEntry_wf (d : Nat) {s : State} (h : Memory.wf s = true) : Memory.wf (receiveEntry d s) = true := by
  rw [memory_wf_iff] at h ⊢
  exact ⟨h.1, h.2.1, rfl, h.2.2.2.1, fun e _ => ⟨Nat.zero_le _, nofun⟩, h.2.2.2.2.2⟩

/-- A step of `receive_frame` keeps the form. -/
theorem receiveStep_wf (d : Nat) {s : State} (hc : s.cfg.legal = true) (h : Memory.wf s = true) :
    Memory.wf (receiveStep d s).2 = true := by
  have h0 := h
  rw [memory_wf_iff] at h
  obtain ⟨h1, h2, h3, h4, h5, h6⟩ := h
  have htake : s.rx.frame.take s.rx.frameLen = s.rx.frame := List.take_of_length_le (by omega)
  cases hx : s.rx.state with
  | off =>
    simp only [receiveStep, hx]
    exact receiveEntry_wf d h0
  | hunt =>
    simp only [receiveStep, hx]
    rcases huntStep_cases s with ⟨_, e⟩ | ⟨_, _, e⟩ | ⟨b, rest, _, hf, _, e⟩ | ⟨rest, _, hf, e⟩ <;> rw [e]
    · rw [memory_wf_iff]
      exact ⟨h1, h2, h3, h4, fun e he => ⟨(h5 e he).1, nofun⟩, h6⟩
    · rw [memory_wf_iff]; exact ⟨h1, h2, h3, h4, h5, h6⟩
    · rw [memory_wf_iff]
      refine ⟨h1, h2, h3, fun e he => ?_, h5, h6⟩
      have hl := h4 e he
      rw [hf, List.length_cons] at hl
      exact Nat.le_of_succ_le hl
    · rw [memory_wf_iff]
      refine ⟨h1, h2, rfl, fun e he => ?_, fun e he => ?_, h6⟩
      · have hl := h4 e he
        rw [hf, List.length_cons] at hl
        exact Nat.le_of_succ_le hl
      · have hd := legal_framebuf hc he
        exact ⟨show 1 ≤ e by omega, fun _ => show 1 < e by omega⟩
  | collect =>
    simp only [receiveStep, hx]
    have hfifo : ∀ {b rest}, s.rx.fifo = b :: rest → ∀ e, s.cfg.rxfifoDepth = some e → rest.length ≤ e := by
      intro b rest hf e he
      have hl := h4 e he
      rw [hf, List.length_cons] at hl
      exact Nat.le_of_succ_le hl
    have hlen : ∀ b rest, (frameAppend b (fifoRest rest s)).rx.frameLen
        = (frameAppend b (fifoRest rest s)).rx.frame.length := by
      intro b rest
      show s.rx.frameLen + 1 = (s.rx.frame.take s.rx.frameLen ++ [b]).length
      rw [htake, List.length_append, ← h3]
      rfl
    rcases collectStep_cases s with ⟨b, rest, hf, _, e⟩ | ⟨b, rest, hf, _, hd, e⟩ | ⟨_, _, e⟩ | ⟨_, _, e⟩ <;> rw [e]
    · rw [memory_wf_iff]
      refine ⟨h1, h2, hlen b rest, hfifo hf, fun e he => ⟨?_, nofun⟩, h6⟩
      have hlt := (h5 e he).2 hx
      exact hlt
    · rw [memory_wf_iff]
      refine ⟨h1, h2, hlen b rest, hfifo hf, fun e he => ?_, h6⟩
      have hlt := (h5 e he).2 hx
      have hne : s.rx.frameLen + 1 ≠ e := fun hh => hd (by rw [hh]; exact he)
      exact ⟨hlt, fun _ => show s.rx.frameLen + 1 < e by omega⟩
    · rw [memory_wf_iff]
      exact ⟨h1, h2, h3, h4, fun e he => ⟨(h5 e he).1, nofun⟩, h6⟩
    · rw [memory_wf_iff]; exact ⟨h1, h2, h3, h4, h5, h6⟩

/-- A record that was decoded is in its form. -/
theorem decodeAnswer_sorted {w : WireCmd} {s : State} {r : Record} (h : (decodeAnswer w s).2 = .ok r) :
    Record.sorted r = true := by
  unfold decodeAnswer at h
  rcases hd : decodeFrame s.frame s.chk with ⟨k, x | b⟩ <;> rw [hd] at h
  · cases h
  · simp only [decodeResponse] at h
    rcases hh : decodeHeader b s.hdr with ⟨h', x | p⟩ <;> rw [hh] at h
    · cases h
    · rcases hp : decodePayload s.cfg w h' p (headerRecord h' p) with ⟨x, cur⟩ | ⟨r', cur⟩ <;> simp only [hp] at h
      · cases h
      · cases h; exact decodePayload_sorted (headerRecord_sorted h' p) hp

/-- Decoding into RECORD keeps the form. -/
theorem decodeIntoRecord_wf (w : WireCmd) {s : State} (h : Memory.wf s = true) :
    Memory.wf (decodeIntoRecord w s).1 = true := by
  obtain ⟨k, hd, r, e, hok, herr⟩ := decodeIntoRecord_frame w s
  rw [e, memory_wf_iff]
  rw [memory_wf_iff] at h
  refine ⟨h.1, h.2.1, h.2.2.1, h.2.2.2.1, h.2.2.2.2.1, ?_⟩
  cases hx : (decodeIntoRecord w s).2 with
  | error e' =>
    rcases (herr e' hx).1 with hr | hr
    · show Record.sorted r = true
      rw [hr]; rfl
    · show Record.sorted r = true
      rw [hr]; exact h.2.2.2.2.2
  | ok r' =>
    show Record.sorted r = true
    rw [hok r' hx]
    have hans : (decodeAnswer w s).2 = .ok r' := by
      unfold decodeIntoRecord at hx
      rcases ha : decodeAnswer w s with ⟨s', x | q⟩ <;> rw [ha] at hx
      · cases x <;> cases hx
      · exact hx
    exact decodeAnswer_sorted hans

/-- Taking an error clears RECORD and keeps the form. -/
theorem enterRetrying_wf (e : EngineError) {s : State} (h : Memory.wf s = true) :
    Memory.wf (enterRetrying e s) = true := by
  rw [memory_wf_iff] at h ⊢
  exact ⟨h.1, h.2.1, h.2.2.1, h.2.2.2.1, h.2.2.2.2.1, rfl⟩

theorem failTransaction_wf (e : EngineError) {s : State} (h : Memory.wf s = true) :
    Memory.wf (failTransaction e s) = true := by
  unfold failTransaction
  split
  · exact (memory_wf_congr rfl rfl rfl rfl).trans h
  · exact enterRetrying_wf e h

/-- RESET leaves empty buffers (R321). -/
theorem assertReset_wf (s : State) : Memory.wf (assertReset s) = true := by
  rw [memory_wf_iff]
  exact ⟨rfl, Nat.le_refl _, rfl, fun d _ => Nat.zero_le d, fun d _ => ⟨Nat.zero_le d, nofun⟩, rfl⟩

end Sys2Proof.Machine
end

