-- ==== Sys2Proof/Laws/Invariant.lean ====
section
/-!
SUPPORT. What each move of the engine within a transaction, at its end and at its start does to the invariant `Inv`
(Safety.lean), one lemma for each shared operation.
-/

namespace Sys2Proof.Machine

/-- The invariant does not depend on what stands outside the engine, RESET apart. -/
theorem inv_env {s : State} (h : Inv s) (e : Env) (he : e.inReset = s.env.inReset) : Inv { s with env := e } := by
  obtain ⟨a1,a2,a3,a4,a5,a6,a7,a8,a9,a10,a11,a12,a13,a14,a15,a16,a17⟩ := h
  refine ⟨a1,a2,a3,a4,a5,a6,a7,a8,a9,a10,a11,a12,a13,a14,a15,a16,fun h => ?_⟩
  have := a17 (he ▸ h)
  rw [this]

/-- A move within a transaction that leaves the command in progress alone keeps the invariant, if the buffers and the
transfers in progress are as it asks. -/
theorem inv_continue {s t : State} (hi : Inv s) (hs : inTransaction s.seq.orch = true) (ht : inTransaction
    t.seq.orch = true)
  (mem : Memory.wf t = true) (hcfg : t.cfg = s.cfg) (hregs : t.regs = s.regs) (hready : t.flags.ready = s.flags.ready)
  (hbusy : t.flags.busy = s.flags.busy) (hdone : t.flags.done = s.flags.done) (h1 : t.seq.seqM = s.seq.seqM)
  (h2 : t.seq.seqQ = s.seq.seqQ) (h3 : t.seq.discI = s.seq.discI) (hpc : t.seq.probeCnt ≤ s.cfg.probeMax)
  (hsn : t.out.snap = s.out.snap) (hsm : t.out.snapM = s.out.snapM)
  (driver : t.tx.de = true → t.seq.orch = .sending ∨ (t.seq.orch = .retrying ∧ t.seq.retryPhase = .probeSend))
  (receiver : t.rx.state ≠ .off ↔ t.seq.orch = .awaiting ∨ (t.seq.orch = .retrying ∧ t.seq.retryPhase = .probeReceive))
  (ret : t.seq.orch = .retrying → s.flags.ready = true ∧ t.out.record = [])
  (collected : t.rx.state = .collect → framed t.rx.frame = true ∧ t.rx.frame.getLast? ≠ some endMarker)
  (candidate : t.seq.orch = .decoding ∨ (t.seq.orch = .retrying ∧ t.seq.retryPhase = .probeDecode) → framed t.rx.frame = true)
  (held : t.env.inReset = false) : Inv t := by
  have hro := hi.readable
  have hca := hi.caller hs
  refine ⟨mem, hcfg ▸ hi.legal, ?_, ?_, driver, receiver, ?_, ?_, ?_, ?_, ?_, by rw [hcfg]; exact hpc, fun h => (ret h).2, collected, candidate, ?_, ?_⟩
  · have := hi.busy
    rw [hbusy, this]
    revert hs ht; cases s.seq.orch <;> cases t.seq.orch <;> simp [inTransaction]
  · rw [hdone, hi.done]
    revert hs ht; cases s.seq.orch <;> cases t.seq.orch <;> simp [inTransaction]
  · intro h
    rw [hready] at h
    refine ⟨hregs ▸ (hi.ready h).1, ?_, ?_, ?_⟩
    · revert ht; cases t.seq.orch <;> simp [inTransaction]
    · revert ht; cases t.seq.orch <;> simp [inTransaction]
    · intro hh; have := (ret hh).1; simp [this] at h
  · intro h; revert ht; cases t.seq.orch <;> simp [inTransaction]
  · intro h; rw [hregs, hready]; exact hi.probe hs
  · intro h
    unfold callerOk at hca ⊢
    rw [hready, hregs, h1, h2, h3, hsn, hcfg]; exact hca
  · rw [hregs, hcfg, h3]; exact hi.count
  · unfold roundReadable slotsReadable at hro ⊢
    rw [ht, hready, hregs, hsn, hsm, h2]
    rw [hs] at hro; exact hro
  · intro h; rw [held] at h; cases h

/-- No transfer is in progress, and the parts of the invariant that do not speak of the sequencer hold. -/
structure Quiet (u : State) : Prop where
  mem : Memory.wf u = true
  legal : u.cfg.legal = true
  de : u.tx.de = false
  off : u.rx.state = .off
  count : u.regs.moduleCount ≤ u.cfg.discoveryLimit ∧ u.seq.discI ≤ u.cfg.discoveryLimit
  pc : u.seq.probeCnt ≤ u.cfg.probeMax
  nr : u.env.inReset = false

/-- The end of a command keeps the invariant (R252). -/
theorem inv_finish {u : State} (b : Quiet u) (hr : u.flags.ready = true) (k : ResultKind) (v : ResultValue) :
    Inv (finish k v u) := by
  obtain ⟨a1,a2,a3,a4,a5,a6,a7⟩ := b
  constructor <;> simp_all [finish, inTransaction, roundReadable]
  exact (memory_wf_congr rfl rfl rfl rfl).trans a1

/-- So does the way from Done to Idle. -/
theorem inv_toIdle {u : State} (b : Quiet u) (hr : u.flags.ready = true) (hb : u.flags.busy = false) : Inv
    (toIdle u) := by
  obtain ⟨a1,a2,a3,a4,a5,a6,a7⟩ := b
  constructor <;> simp_all [toIdle, inTransaction, roundReadable]
  exact (memory_wf_congr rfl rfl rfl rfl).trans a1

/-- The end of discovery keeps the invariant (R263). -/
theorem inv_endDiscovery {u : State} (b : Quiet u) (hd : u.flags.done = false) : Inv (endDiscovery u) := by
  obtain ⟨a1,a2,a3,a4,a5,a6,a7⟩ := b
  constructor <;> simp_all [endDiscovery, inTransaction, roundReadable]
  exact (memory_wf_congr rfl rfl rfl rfl).trans a1

/-- The start of a single command keeps the invariant (R241, R240). -/
theorem inv_start_single {u : State} (b : Quiet u) (hr : u.flags.ready = true) (hb : u.flags.busy = true) (hd :
    u.flags.done = false) {w}
   (hc : u.regs.cmd = .wire w) : Inv (startTransaction w u.regs.midx false u) := by
  obtain ⟨a1,a2,a3,a4,a5,a6,a7⟩ := b
  constructor <;> simp_all [startTransaction, inTransaction, roundReadable, callerOk]
  exact (memory_wf_congr rfl rfl rfl rfl).trans a1

/-- The start of a query of a round keeps the invariant (R253). -/
theorem inv_start_round {u : State} (b : Quiet u) (hr : u.flags.ready = true) (hb : u.flags.busy = true) (hd :
    u.flags.done = false)
   (hc : u.regs.cmd = .status) (hm : u.seq.seqM < u.regs.moduleCount) (hl : u.out.snap.length = u.seq.seqM)
   (hs : u.out.snap.all (fun m => (readModule m).isSome) = true) (hsl : slotsReadable u = true) : Inv (startTransaction u.seq.seqQ.toWire u.seq.seqM false u) := by
  obtain ⟨a1,a2,a3,a4,a5,a6,a7⟩ := b
  constructor <;> simp_all [startTransaction, inTransaction, roundReadable, callerOk]
  · exact (memory_wf_congr rfl rfl rfl rfl).trans a1
  · exact hsl

/-- The start of a probe of discovery keeps the invariant (R262). -/
theorem inv_start_disc {u : State} (b : Quiet u) (hr : u.flags.ready = false) (hb : u.flags.busy = true) (hd :
    u.flags.done = false)
   (hm : u.regs.moduleCount = 0) (hl : u.seq.discI < u.cfg.discoveryLimit) : Inv (startTransaction .serialnumber u.seq.discI true u) := by
  obtain ⟨a1,a2,a3,a4,a5,a6,a7⟩ := b
  constructor <;> simp_all [startTransaction, inTransaction, roundReadable, callerOk]
  exact (memory_wf_congr rfl rfl rfl rfl).trans a1

/-- What being quiet looks at. -/
theorem quiet_congr {s t : State} (b : Quiet s) (htx : t.tx = s.tx) (hrx : t.rx = s.rx) (hc : t.cfg = s.cfg) (hr
    : Record.sorted s.out.record = true → Record.sorted t.out.record = true)
   (h1 : t.regs.moduleCount = s.regs.moduleCount) (h2 : t.seq.discI ≤ s.cfg.discoveryLimit) (h3 : t.seq.probeCnt ≤ s.cfg.probeMax) (h4 : t.env.inReset = s.env.inReset) : Quiet t := by
  obtain ⟨a1,a2,a3,a4,a5,a6,a7⟩ := b
  refine ⟨?_, hc ▸ a2, htx ▸ a3, hrx ▸ a4, ⟨by rw [h1, hc]; exact a5.1, by rw [hc]; exact h2⟩, by rw [hc]; exact h3, by rw [h4]; exact a7⟩
  rw [memory_wf_iff] at a1 ⊢
  rw [htx, hrx, hc]
  exact ⟨a1.1, a1.2.1, a1.2.2.1, a1.2.2.2.1, a1.2.2.2.2.1, hr a1.2.2.2.2.2⟩

theorem quiet_sample {u : State} (b : Quiet u) : Quiet (sampleStop u) := by
  unfold sampleStop; split
  · exact quiet_congr b rfl rfl rfl (fun h => h) rfl b.count.2 b.pc rfl
  · exact b

/-- What sample_stop() leaves alone (R250). -/
theorem sample_same (u : State) : (sampleStop u).regs = u.regs ∧ (sampleStop u).seq = u.seq ∧ (sampleStop u).out
    = u.out ∧ (sampleStop u).cfg = u.cfg ∧ (sampleStop u).flags.ready = u.flags.ready ∧ (sampleStop
    u).flags.busy = u.flags.busy ∧ (sampleStop u).flags.done = u.flags.done ∧ (sampleStop u).env = u.env ∧
    (sampleStop u).rx = u.rx ∧ (sampleStop u).tx = u.tx
   ∧ (sampleStop u).flags.lastErr = u.flags.lastErr ∧ (sampleStop u).flags.resultKind = u.flags.resultKind := by
  unfold sampleStop; split <;> simp

/-- The head of the loop of discovery keeps the invariant (R262). -/
theorem inv_discoverLoop {u : State} (b : Quiet u) (hr : u.flags.ready = false) (hb : u.flags.busy = true) (hd :
    u.flags.done = false)
   (hm : u.regs.moduleCount = 0) : Inv (discoverLoop u) := by
  obtain ⟨e1,e2,e3,e4,e5,e6,e7,-⟩ := sample_same u
  unfold discoverLoop
  split
  · rename_i h
    simp only
    split
    · exact inv_endDiscovery (quiet_sample b) (e7.trans hd)
    · rw [← e2]
      exact inv_start_disc (quiet_sample b) (e5.trans hr) (e6.trans hb) (e7.trans hd) (by rw [e1]; exact hm) (by rw [e2, e4]; exact h)
  · exact inv_endDiscovery b hd

/-- Outside a send and a receive the engine is quiet. -/
theorem quiet_of {s : State} (h : Inv s) (hn : s.env.inReset = false) (h1 : ¬ (s.seq.orch = .sending ∨
    (s.seq.orch = .retrying ∧ s.seq.retryPhase = .probeSend)))
   (h2 : ¬ (s.seq.orch = .awaiting ∨ (s.seq.orch = .retrying ∧ s.seq.retryPhase = .probeReceive))) : Quiet s := by
  refine ⟨h.memory, h.legal, ?_, ?_, h.count, h.probeCnt, hn⟩
  · cases hd : s.tx.de with
    | false => rfl
    | true => exact absurd (h.driver hd) h1
  · by_contra hc; exact h2 (h.receiver.mp hc)

/-- The next query of a round keeps the invariant (R253). -/
theorem inv_roundQuery {u : State} (m : Nat) (q : RoundQuery) (b : Quiet u) (hr : u.flags.ready = true) (hb :
    u.flags.busy = true) (hd : u.flags.done = false)
   (hc : u.regs.cmd = .status) (hm : m < u.regs.moduleCount) (hl : u.out.snap.length = m)
   (hs : u.out.snap.all (fun m => (readModule m).isSome) = true) (hsl : slotsReadable (setCursors m q u) = true) : Inv (roundQuery m q u) := by
  have b' : Quiet (setCursors m q u) := quiet_congr b rfl rfl rfl (fun h => h) rfl b.count.2 b.pc rfl
  have b2 := quiet_sample b'
  obtain ⟨e1,e2,e3,e4,e5,e6,e7,-⟩ := sample_same (setCursors m q u)
  unfold roundQuery
  simp only
  split
  · unfold cancelRound
    exact inv_finish (u := setSnap ModuleSnapshot.empty [] (sampleStop (setCursors m q u))) (quiet_congr b2 rfl rfl rfl (fun h => h) rfl b2.count.2 b2.pc rfl) (by simp [setCursors, hr]) _ _
  · have := inv_start_round (u := sampleStop (setCursors m q u)) b2 (e5.trans hr) (e6.trans hb) (e7.trans hd) (by rw [e1]; exact hc) (by rw [e1, e2]; exact hm)
     (by rw [e2, e3]; exact hl) (by rw [e3]; exact hs) (by unfold slotsReadable at hsl ⊢; rw [e2, e3]; exact hsl)
    rw [e2] at this
    exact this

/-- The fold of modules whose records hold its fields is there (R255). -/
theorem fold_some {l : List ModuleSnapshot} (h : l.all (fun m => (readModule m).isSome) = true) : ∃ c, fold l =
    some c := by
  have : ∃ x, readModules l = some x := by
    induction l with
    | nil => exact ⟨_, rfl⟩
    | cons m ms ih =>
      simp only [List.all_cons, Bool.and_eq_true] at h
      obtain ⟨x, hx⟩ := ih h.2
      obtain ⟨y, hy⟩ := Option.isSome_iff_exists.mp h.1
      exact ⟨y :: x, by simp [readModules, hx, hy]⟩
  obtain ⟨x, hx⟩ := this
  exact ⟨foldReadings x, by simp [fold, hx]⟩

/-- The end of a round answers, and keeps the invariant (R253). -/
theorem inv_completeRound {u : State} (b : Quiet u) (hr : u.flags.ready = true) (hs : u.out.snap.all (fun m =>
    (readModule m).isSome) = true) :
   ∃ t, completeRound u = .next t ∧ Inv t := by
  obtain ⟨c, hc⟩ := fold_some hs
  refine ⟨_, by simp only [completeRound, hc]; rfl, ?_⟩
  exact inv_finish (u := { u with out := { u.out with lastSnapshot := some { modules := u.out.snap, calculated := c } } }) (quiet_congr b rfl rfl rfl (fun h => h) rfl b.count.2 b.pc rfl) hr _ _

/-- Decoding leaves the engine quiet. -/
theorem quiet_decode {s : State} {w} (b : Quiet s) : Quiet (decodeIntoRecord w s).1 := by
  have hw := decodeIntoRecord_wf w b.mem
  obtain ⟨k, h, r, e, -⟩ := decodeIntoRecord_frame w s
  rw [e] at hw ⊢
  obtain ⟨a1,a2,a3,a4,a5,a6,a7⟩ := b
  exact ⟨hw,a2,a3,a4,a5,a6,a7⟩

/-- A record that was decoded comes from the rule of the command that was sent (R190). -/
theorem decode_payload_of {w : WireCmd} {s : State} {r : Record} (h : (decodeIntoRecord w s).2 = .ok r) :
    ∃ h' p r0 cur, decodePayload s.cfg w h' p r0 = .ok (r, cur) := by
  have hans : (decodeAnswer w s).2 = .ok r := by
      unfold decodeIntoRecord at h
      rcases ha : decodeAnswer w s with ⟨s', x | q⟩ <;> rw [ha] at h
      · cases x <;> cases h
      · exact h
  unfold decodeAnswer at hans
  rcases hd : decodeFrame s.frame s.chk with ⟨k, x | b⟩ <;> rw [hd] at hans
  · cases hans
  · simp only [decodeResponse] at hans
    rcases hh : decodeHeader b s.hdr with ⟨h', x | p⟩ <;> rw [hh] at hans
    · cases hans
    · rcases hp : decodePayload s.cfg w h' p (headerRecord h' p) with ⟨x, cur⟩ | ⟨r', cur⟩ <;> simp only [hp] at hans
      · cases hans
      · cases hans; exact ⟨_, _, _, _, hp⟩

/-- The layouts of a configuration the spec allows (R5). -/
theorem legal_layouts {c : Config} (h : c.legal = true) : Layout.reorders c.layouts.analog layoutAnalog = true ∧
    Layout.reorders c.layouts.alarm layoutAlarm = true := by
  unfold Config.legal Layouts.legal at h
  simp only [Bool.and_eq_true] at h
  exact ⟨h.2.1.1.1.1.1.1.1.1.1.1.1.1.1.2, h.2.1.1.1.1.1.1.1.1.1.1.1.1.2⟩

/-- A query of a round that succeeds keeps the invariant (R253). -/
theorem inv_roundOk {u : State} {r0 : Record} (b : Quiet u) (hr : u.flags.ready = true) (hb : u.flags.busy =
    true) (hd : u.flags.done = false)
   (hc : u.regs.cmd = .status) (hm : u.seq.seqM < u.regs.moduleCount) (hl : u.out.snap.length = u.seq.seqM)
   (hs : u.out.snap.all (fun m => (readModule m).isSome) = true) (hsl : slotsReadable u = true)
   (h1 : u.seq.seqQ = .analog → (readAnalogRecord r0).isSome = true) (h2 : u.seq.seqQ = .alarm → (readAlarmRecord r0).isSome = true) :
   ∃ t, roundOk r0 u = .next t ∧ Inv t := by
  have bs : ∀ m l, Quiet (setSnap m l u) := fun m l => quiet_congr b rfl rfl rfl (fun h => h) rfl b.count.2 b.pc rfl
  unfold roundOk
  cases hq : u.seq.seqQ with
  | analog =>
    refine ⟨_, rfl, inv_roundQuery _ _ (bs _ _) hr hb hd hc hm hl hs ?_⟩
    exact h1 hq
  | chargingDischarge =>
    refine ⟨_, rfl, inv_roundQuery _ _ (bs _ _) hr hb hd hc hm hl hs ?_⟩
    simp only [slotsReadable, hq] at hsl
    exact hsl
  | alarm =>
    refine ⟨_, rfl, inv_roundQuery _ _ (bs _ _) hr hb hd hc hm hl hs ?_⟩
    simp only [slotsReadable, hq] at hsl
    obtain ⟨x, hx⟩ := Option.isSome_iff_exists.mp hsl
    obtain ⟨y, hy⟩ := Option.isSome_iff_exists.mp (h2 hq)
    show (readModule { u.out.snapM with alarm := r0 }).isSome = true
    simp only [readModule, hx, hy]; rfl
  | systemparameter =>
    simp only [slotsReadable, hq] at hsl
    have hnew : (u.out.snap ++ [{ u.out.snapM with systemParameter := r0 }]).all (fun m => (readModule m).isSome) = true := by
      rw [List.all_append, hs]
      simp only [List.all_cons, List.all_nil, Bool.and_true, Bool.true_and]
      exact hsl
    simp only [RoundQuery.next?, ModuleSnapshot.put]
    split
    · rename_i hlt
      refine ⟨_, rfl, inv_roundQuery _ _ (bs _ _) hr hb hd hc hlt (by simp [setSnap, hl]) hnew rfl⟩
    · exact inv_completeRound (bs _ _) hr hnew

/-- BUSY and DONE during a transaction (R29). -/
theorem flags_running {s : State} (hi : Inv s) (hs : inTransaction s.seq.orch = true) : s.flags.busy = true ∧
    s.flags.done = false := by
  have hne : s.seq.orch ≠ .idle ∧ s.seq.orch ≠ .done := by
    constructor <;> (intro h; rw [h] at hs; cases hs)
  refine ⟨hi.busy.mpr hne, ?_⟩
  cases h : s.flags.done with
  | false => rfl
  | true => exact absurd (hi.done.mp h) hne.2

/-- A cancelled transaction keeps the invariant. -/
theorem inv_cancel {k : Caller} {u : State} (b : Quiet u) (hr : u.flags.ready = true) : Inv (transactCancelled k
    u) := by
  cases k with
  | single => exact inv_finish b hr _ _
  | round => exact inv_finish (u := setSnap ModuleSnapshot.empty [] u) (quiet_congr b rfl rfl rfl (fun h => h) rfl b.count.2 b.pc rfl) hr _ _
  | discovery => exact inv_finish b hr _ _

/-- Sending keeps the invariant (R242). -/
theorem inv_sending {w : WireCmd} {s : State} (hi : Inv s) (hn : s.env.inReset = false) (ho : s.seq.orch =
    .sending) : Inv (sendingStep w s) := by
  have hs : inTransaction s.seq.orch = true := by rw [ho]; rfl
  have hw := sendQueryStep_wf w s.regs.curIdx hi.memory
  have hrx : s.rx.state = .off := by
    by_contra hc; have := hi.receiver.mp hc; simp [ho] at this
  have hno : ¬ (s.seq.orch = .awaiting ∨ (s.seq.orch = .retrying ∧ s.seq.retryPhase = .probeReceive)) := by simp [ho]
  unfold sendingStep
  rcases sendQueryStep_cases w s.regs.curIdx s with ⟨hd, e⟩ | ⟨hd, hp, e⟩ | ⟨hd, hp, e⟩ <;> rw [e] at hw ⊢
  · refine inv_continue hi hs hs hw rfl rfl rfl rfl rfl rfl rfl rfl hi.probeCnt rfl rfl ?_ ?_ ?_ ?_ ?_ hn
    · intro _; exact .inl ho
    · exact iff_of_false (fun h => h hrx) hno
    · intro h; have h : s.seq.orch = .retrying := h; rw [ho] at h; cases h
    · intro h; have h : s.rx.state = .collect := h; rw [hrx] at h; cases h
    · intro h; have h : s.seq.orch = .decoding ∨ (s.seq.orch = .retrying ∧ _) := h; simp [ho] at h
  · refine inv_continue hi hs hs hw rfl rfl rfl rfl rfl rfl rfl rfl hi.probeCnt rfl rfl ?_ ?_ ?_ ?_ ?_ hn
    · intro _; exact .inl ho
    · exact iff_of_false (fun h => h hrx) hno
    · intro h; have h : s.seq.orch = .retrying := h; rw [ho] at h; cases h
    · intro h; have h : s.rx.state = .collect := h; rw [hrx] at h; cases h
    · intro h; have h : s.seq.orch = .decoding ∨ (s.seq.orch = .retrying ∧ _) := h; simp [ho] at h
  · refine inv_continue hi hs rfl ((memory_wf_congr rfl rfl rfl rfl).trans (receiveEntry_wf (s := sendFlush s) _ (sendFlush_wf hi.memory))) rfl rfl rfl rfl rfl rfl rfl rfl hi.probeCnt rfl rfl ?_ ?_ ?_ ?_ ?_ hn
    · intro h; cases h
    · exact iff_of_true (by simp [setOrch, receiveEntry]) (.inl rfl)
    · intro h; cases h
    · intro h; cases h
    · intro h; simp [setOrch] at h

/-- What the receive side has collected after a step of `receive_frame` (R126, R127). -/
theorem receive_facts (d : Nat) {s : State} (hi : Inv s) :
   ((receiveStep d s).2.rx.state = .collect → framed (receiveStep d s).2.rx.frame = true ∧ (receiveStep d s).2.rx.frame.getLast? ≠ some endMarker)
   ∧ ((receiveStep d s).1 = .frame → framed (receiveStep d s).2.rx.frame = true) := by
  have hm := (memory_wf_iff s).mp hi.memory
  have htake : s.rx.frame.take s.rx.frameLen = s.rx.frame := List.take_of_length_le (by omega)
  have app : ∀ b, framed s.rx.frame = true → s.rx.frame.getLast? ≠ some endMarker → framed (s.rx.frame ++ [b]) = true := by
    intro b hf hl
    unfold framed at hf ⊢
    simp only [Bool.and_eq_true, decide_eq_true_eq, Bool.not_eq_true', List.contains_eq_mem, decide_eq_false_iff_not] at hf ⊢
    refine ⟨by rw [List.head?_append, hf.1]; rfl, ?_⟩
    rw [List.dropLast_concat]
    intro hmem
    have hne : s.rx.frame ≠ [] := by intro h; rw [h] at hmem; cases hmem
    rw [← List.dropLast_append_getLast hne] at hmem
    rcases List.mem_append.mp hmem with h | h
    · exact hf.2 h
    · simp only [List.mem_singleton] at h
      exact hl (by rw [List.getLast?_eq_some_getLast hne, ← h])
  cases hx : s.rx.state with
  | off => simp [receiveStep, hx, receiveEntry]
  | hunt =>
    simp only [receiveStep, hx]
    rcases huntStep_cases s with ⟨_, e⟩ | ⟨_, _, e⟩ | ⟨b, rest, _, hf, _, e⟩ | ⟨rest, _, hf, e⟩ <;> rw [e]
    · exact ⟨(by intro h; cases h), by intro h; cases h⟩
    · exact ⟨(by intro h; have h : s.rx.state = .collect := h; rw [hx] at h; cases h), by intro h; cases h⟩
    · exact ⟨(by intro h; have h : s.rx.state = .collect := h; rw [hx] at h; cases h), by intro h; cases h⟩
    · exact ⟨fun _ => ⟨by rfl, by simp [setRx, frameStart]; decide⟩, by intro h; cases h⟩
  | collect =>
    obtain ⟨c1, c2⟩ := hi.collected hx
    simp only [receiveStep, hx]
    rcases collectStep_cases s with ⟨b, rest, hf, _, e⟩ | ⟨b, rest, hf, hb, hd, e⟩ | ⟨_, _, e⟩ | ⟨_, _, e⟩ <;> rw [e]
    · refine ⟨(by intro h; cases h), fun _ => ?_⟩
      show framed (s.rx.frame.take s.rx.frameLen ++ [b]) = true
      rw [htake]; exact app b c1 c2
    · refine ⟨fun _ => ?_, by intro h; cases h⟩
      show framed (s.rx.frame.take s.rx.frameLen ++ [b]) = true ∧ (s.rx.frame.take s.rx.frameLen ++ [b]).getLast? ≠ _
      rw [htake]; exact ⟨app b c1 c2, by simp [hb]⟩
    · exact ⟨(by intro h; cases h), fun _ => c1⟩
    · exact ⟨fun _ => ⟨c1, c2⟩, by intro h; cases h⟩

/-- A failed transaction keeps the invariant (R246, R296). -/
theorem inv_fail {s u : State} {e : EngineError} (hi : Inv s) (hs : inTransaction s.seq.orch = true) (b : Quiet u) 
   (hcfg : u.cfg = s.cfg) (hregs : u.regs = s.regs) (hflags : u.flags = s.flags) (hseq : u.seq = s.seq) 
   (hsn : u.out.snap = s.out.snap) (hsm : u.out.snapM = s.out.snapM) : Inv (failTransaction e u) := by
  have hd := (flags_running hi hs).2
  have hp := hi.probe hs
  unfold failTransaction
  split
  · exact inv_endDiscovery (u := { u with flags := { u.flags with lastErr := some e } }) (quiet_congr b rfl rfl rfl (fun h => h) rfl b.count.2 b.pc rfl) (by simp [hflags, hd])
  · rename_i hpm
    have hrd : s.flags.ready = true := by
      rw [hregs, hp] at hpm; simpa using hpm
    refine inv_continue hi hs rfl (enterRetrying_wf e b.mem) hcfg hregs (by simp [enterRetrying, hflags]) (by simp [enterRetrying, hflags]) (by simp [enterRetrying, hflags])
      (by simp [enterRetrying, hseq]) (by simp [enterRetrying, hseq]) (by simp [enterRetrying, hseq]) (by simp [enterRetrying, hseq, hi.probeCnt]) hsn hsm ?_ ?_ ?_ ?_ ?_ b.nr
    · intro h; have h : u.tx.de = true := h; rw [b.de] at h; cases h
    · refine iff_of_false (fun h => h b.off) ?_
      simp only [enterRetrying]
      rintro (h | ⟨_, h⟩)
      · cases h
      · split at h <;> cases h
    · intro _; exact ⟨hrd, rfl⟩
    · intro h; have h : u.rx.state = .collect := h; rw [b.off] at h; cases h
    · intro h
      simp only [enterRetrying] at h
      rcases h with h | ⟨_, h⟩
      · cases h
      · split at h <;> cases h

/-- Awaiting keeps the invariant (R243). -/
theorem inv_awaiting {w : WireCmd} {s : State} (hi : Inv s) (hn : s.env.inReset = false) (ho : s.seq.orch =
    .awaiting) : Inv (awaitingStep w s) := by
  have hs : inTransaction s.seq.orch = true := by rw [ho]; rfl
  have hde : s.tx.de = false := by
    cases hd : s.tx.de with
    | false => rfl
    | true => have := hi.driver hd; simp [ho] at this
  have hw := receiveStep_wf (deadlineOf s.cfg w) hi.legal hi.memory
  obtain ⟨rx, now, e, -, hoff, hno, hfr⟩ := receiveStep_frame (deadlineOf s.cfg w) s
  obtain ⟨f1, f2⟩ := receive_facts (deadlineOf s.cfg w) hi
  unfold awaitingStep
  rcases hx : receiveStep (deadlineOf s.cfg w) s with ⟨a, u⟩
  rw [hx] at hw e hoff hno hfr f1 f2
  simp only at e hw hoff hno hfr f1 f2
  subst e
  cases a with
  | waiting =>
    refine inv_continue hi hs hs hw rfl rfl rfl rfl rfl rfl rfl rfl hi.probeCnt rfl rfl ?_ ?_ ?_ f1 ?_ hn
    · intro h; have h : s.tx.de = true := h; rw [hde] at h; cases h
    · exact iff_of_true (fun h => hoff.mpr h rfl) (.inl ho)
    · intro h; have h : s.seq.orch = .retrying := h; rw [ho] at h; cases h
    · intro h; have h : s.seq.orch = .decoding ∨ (s.seq.orch = .retrying ∧ _) := h; simp [ho] at h
  | noFrame =>
    have hof := hoff.mp (by simp)
    exact inv_fail (u := { s with rx := rx, env := { s.env with now := now } }) hi hs ⟨hw, hi.legal, hde, hof, hi.count, hi.probeCnt, hn⟩ rfl rfl rfl rfl rfl rfl
  | frame =>
    have hof := hoff.mp (by simp)
    refine inv_continue hi hs rfl ((memory_wf_congr rfl rfl rfl rfl).trans hw) rfl rfl rfl rfl rfl rfl rfl rfl hi.probeCnt rfl rfl ?_ ?_ ?_ ?_ ?_ hn
    · intro h; have h : s.tx.de = true := h; rw [hde] at h; cases h
    · exact iff_of_false (fun h => h hof) (by simp [setOrch])
    · intro h; cases h
    · intro h; have h : rx.state = .collect := h; rw [hof] at h; cases h
    · intro _; exact f2 rfl

/-- A move within Retrying keeps the invariant. -/
theorem inv_retryMove {s t : State} (hi : Inv s) (ho : s.seq.orch = .retrying) (hr : s.flags.ready = true) (ht :
    t.seq.orch = .retrying)
  (mem : Memory.wf t = true) (hcfg : t.cfg = s.cfg) (hregs : t.regs = s.regs) (hfl : t.flags = s.flags)
  (h1 : t.seq.seqM = s.seq.seqM)
  (h2 : t.seq.seqQ = s.seq.seqQ) (h3 : t.seq.discI = s.seq.discI) (hpc : t.seq.probeCnt ≤ s.cfg.probeMax)
  (hout : t.out = s.out)
  (driver : t.tx.de = true → t.seq.retryPhase = .probeSend)
  (receiver : t.rx.state ≠ .off ↔ t.seq.retryPhase = .probeReceive)
  (collected : t.rx.state = .collect → framed t.rx.frame = true ∧ t.rx.frame.getLast? ≠ some endMarker)
  (candidate : t.seq.retryPhase = .probeDecode → framed t.rx.frame = true)
  (held : t.env.inReset = false) : Inv t := by
  refine inv_continue hi (by rw [ho]; rfl) (by rw [ht]; rfl) mem hcfg hregs (by rw [hfl]) (by rw [hfl]) (by rw [hfl]) h1 h2 h3 hpc (by rw [hout]) (by rw [hout]) ?_ ?_ ?_ collected ?_ held
  · intro h; exact .inr ⟨ht, driver h⟩
  · rw [receiver]; simp [ht]
  · intro _; exact ⟨hr, by rw [hout]; exact hi.cleared ho⟩
  · intro h
    rcases h with h | h
    · rw [ht] at h; cases h
    · exact candidate h.2

/-- Retrying keeps the invariant (R248). -/
theorem inv_retrying {k : Caller} {s : State} (hi : Inv s) (hn : s.env.inReset = false) (ho : s.seq.orch =
    .retrying) : Inv (retryingStep k s) := by
  have hr : s.flags.ready = true := by
    cases hh : s.flags.ready with
    | true => rfl
    | false => exact absurd ho (hi.ready hh).2.2.2
  have hbase : s.seq.retryPhase ≠ .probeSend → s.seq.retryPhase ≠ .probeReceive → Quiet s := fun h1 h2 =>
    quiet_of hi hn (by simp [ho, h1]) (by simp [ho, h2])
  have hsame : ∀ p, s.seq.retryPhase ≠ .probeSend → s.seq.retryPhase ≠ .probeReceive → p ≠ .probeDecode → p ≠ .probeReceive → Inv (setRetryPhase p s) := by
    intro p h1 h2 h3 h4
    have b := hbase h1 h2
    exact inv_retryMove hi ho hr ho ((memory_wf_congr rfl rfl rfl rfl).trans hi.memory) rfl rfl rfl rfl rfl rfl hi.probeCnt rfl
      (by intro h; have h : s.tx.de = true := h; rw [b.de] at h; cases h) (iff_of_false (fun h => h b.off) h4) (by intro h; have h : s.rx.state = .collect := h; rw [b.off] at h; cases h) (fun h => absurd h h3) hn
  have hcancel : s.seq.retryPhase ≠ .probeSend → s.seq.retryPhase ≠ .probeReceive → Inv (transactCancelled k (sampleStop s)) := by
    intro h1 h2
    exact inv_cancel (quiet_sample (hbase h1 h2)) (by simp [hr])
  unfold retryingStep
  cases hph : s.seq.retryPhase with
  | exhausted => exact inv_cancel (hbase (by simp [hph]) (by simp [hph])) hr
  | entry =>
    have b := hbase (by simp [hph]) (by simp [hph])
    simp only [retryEntry]
    split
    · exact hcancel (by simp [hph]) (by simp [hph])
    · exact inv_retryMove hi ho hr ho ((memory_wf_congr rfl rfl rfl rfl).trans hi.memory) rfl rfl rfl rfl rfl rfl (Nat.zero_le _) rfl
        (by intro h; have h : s.tx.de = true := h; rw [b.de] at h; cases h) (iff_of_false (fun h => h b.off) nofun) (by intro h; have h : s.rx.state = .collect := h; rw [b.off] at h; cases h) (by intro h; cases h) hn
  | test =>
    have b := hbase (by simp [hph]) (by simp [hph])
    simp only [retryTest]
    split
    · rename_i hlt
      exact inv_retryMove hi ho hr ho ((memory_wf_congr rfl rfl rfl rfl).trans hi.memory) rfl rfl rfl rfl rfl rfl hlt rfl
        (fun _ => rfl) (iff_of_false (fun h => h b.off) nofun) (by intro h; have h : s.rx.state = .collect := h; rw [b.off] at h; cases h) (by intro h; cases h) hn
    · exact hsame _ (by simp [hph]) (by simp [hph]) (by simp) (by simp)
  | probeSend =>
    have hrx : s.rx.state = .off := by
      by_contra hc; have := hi.receiver.mp hc; simp [ho, hph] at this
    have hw := sendQueryStep_wf .protocol 0 hi.memory
    rcases sendQueryStep_cases .protocol 0 s with ⟨hd, e⟩ | ⟨hd, hp, e⟩ | ⟨hd, hp, e⟩ <;> rw [e] at hw ⊢
    · exact inv_retryMove hi ho hr ho hw rfl rfl rfl rfl rfl rfl hi.probeCnt rfl (fun _ => hph) (iff_of_false (fun h => h hrx) (by intro h; have h : s.seq.retryPhase = .probeReceive := h; rw [hph] at h; cases h)) (by intro h; have h : s.rx.state = .collect := h; rw [hrx] at h; cases h)
        (by intro h; have h : s.seq.retryPhase = .probeDecode := h; rw [hph] at h; cases h) hn
    · exact inv_retryMove hi ho hr ho hw rfl rfl rfl rfl rfl rfl hi.probeCnt rfl (fun _ => hph) (iff_of_false (fun h => h hrx) (by intro h; have h : s.seq.retryPhase = .probeReceive := h; rw [hph] at h; cases h)) (by intro h; have h : s.rx.state = .collect := h; rw [hrx] at h; cases h)
        (by intro h; have h : s.seq.retryPhase = .probeDecode := h; rw [hph] at h; cases h) hn
    · exact inv_retryMove hi ho hr ho ((memory_wf_congr rfl rfl rfl rfl).trans (receiveEntry_wf (s := sendFlush s) _ (sendFlush_wf hi.memory))) rfl rfl rfl rfl rfl rfl hi.probeCnt rfl (by intro h; cases h) (iff_of_true (by simp [setRetryPhase, receiveEntry]) rfl) (by intro h; cases h)
        (by intro h; cases h) hn
  | probeReceive =>
    have hde : s.tx.de = false := by
      cases hd : s.tx.de with
      | false => rfl
      | true => have := hi.driver hd; simp [ho, hph] at this
    have hw := receiveStep_wf s.cfg.deadlineFast hi.legal hi.memory
    obtain ⟨rx, now, e, -, hoff, hno, hfr⟩ := receiveStep_frame s.cfg.deadlineFast s
    obtain ⟨f1, f2⟩ := receive_facts s.cfg.deadlineFast hi
    simp only
    rcases hx : receiveStep s.cfg.deadlineFast s with ⟨a, u⟩
    rw [hx] at hw e hoff hno hfr f1 f2
    simp only at e hw hoff hno hfr f1 f2
    subst e
    cases a with
    | waiting =>
      exact inv_retryMove hi ho hr ho hw rfl rfl rfl rfl rfl rfl hi.probeCnt rfl (by intro h; have h : s.tx.de = true := h; rw [hde] at h; cases h) (iff_of_true (fun h => hoff.mpr h rfl) hph) f1
        (by intro h; have h : s.seq.retryPhase = .probeDecode := h; rw [hph] at h; cases h) hn
    | noFrame =>
      have hof := hoff.mp (by simp)
      exact inv_retryMove hi ho hr ho ((memory_wf_congr rfl rfl rfl rfl).trans hw) rfl rfl rfl rfl rfl rfl hi.probeCnt rfl (by intro h; have h : s.tx.de = true := h; rw [hde] at h; cases h) (iff_of_false (fun h => h hof) nofun) (by intro h; have h : rx.state = .collect := h; rw [hof] at h; cases h)
        (by intro h; cases h) hn
    | frame =>
      have hof := hoff.mp (by simp)
      exact inv_retryMove hi ho hr ho ((memory_wf_congr rfl rfl rfl rfl).trans hw) rfl rfl rfl rfl rfl rfl hi.probeCnt rfl (by intro h; have h : s.tx.de = true := h; rw [hde] at h; cases h) (iff_of_false (fun h => h hof) nofun) (by intro h; have h : rx.state = .collect := h; rw [hof] at h; cases h)
        (fun _ => f2 rfl) hn
  | probeDecode =>
    have b := hbase (by simp [hph]) (by simp [hph])
    obtain ⟨kk, hh, e⟩ := decodeAnswer_frame .protocol s
    simp only [probeDecodeStep]
    rcases hd : decodeAnswer .protocol s with ⟨u, x | x⟩ <;> rw [hd] at e <;> simp only at e <;> subst e
    · exact inv_retryMove hi ho hr ho ((memory_wf_congr rfl rfl rfl rfl).trans hi.memory) rfl rfl rfl rfl rfl rfl hi.probeCnt rfl
        (by intro h; have h : s.tx.de = true := h; rw [b.de] at h; cases h) (iff_of_false (fun h => h b.off) nofun) (by intro h; have h : s.rx.state = .collect := h; rw [b.off] at h; cases h) (by intro h; cases h) hn
    · exact inv_retryMove hi ho hr ho ((memory_wf_congr rfl rfl rfl rfl).trans hi.memory) rfl rfl rfl rfl rfl rfl hi.probeCnt rfl
        (by intro h; have h : s.tx.de = true := h; rw [b.de] at h; cases h) (iff_of_false (fun h => h b.off) nofun) (by intro h; have h : s.rx.state = .collect := h; rw [b.off] at h; cases h) (by intro h; cases h) hn
  | probeFailed =>
    simp only [retryFailed]
    split
    · exact hcancel (by simp [hph]) (by simp [hph])
    · exact hsame _ (by simp [hph]) (by simp [hph]) (by simp) (by simp)
  | leave =>
    have b := hbase (by simp [hph]) (by simp [hph])
    simp only [retryLeave]
    split
    · exact hcancel (by simp [hph]) (by simp [hph])
    · refine inv_continue hi (by rw [ho]; rfl) rfl ((memory_wf_congr rfl rfl rfl rfl).trans hi.memory) rfl rfl rfl rfl rfl rfl rfl rfl hi.probeCnt rfl rfl ?_ ?_ ?_ ?_ ?_ hn
      · intro h; have h : s.tx.de = true := h; rw [b.de] at h; cases h
      · exact iff_of_false (fun h => h b.off) (by simp [returnFromRetrying, setOrch])
      · intro h; cases h
      · intro h; have h : s.rx.state = .collect := h; rw [b.off] at h; cases h
      · intro h; simp [returnFromRetrying, setOrch] at h


/-- Decoding answers, and keeps the invariant (R245). -/
theorem inv_decoding {k : Caller} {s : State} {w : WireCmd} (hi : Inv s) (hn : s.env.inReset = false) (ho :
    s.seq.orch = .decoding)
   (hk : match k with 
     | .single => s.flags.ready = true
     | .round => s.flags.ready = true ∧ s.regs.cmd = .status ∧ w = s.seq.seqQ.toWire
     | .discovery => s.flags.ready = false) : ∃ t, decodingStep w k s = .next t ∧ Inv t := by
  have hs : inTransaction s.seq.orch = true := by rw [ho]; rfl
  have b : Quiet s := quiet_of hi hn (by simp [ho]) (by simp [ho])
  obtain ⟨hb, hd⟩ := flags_running hi hs
  have b' := quiet_decode (w := w) b
  obtain ⟨kk, hh, r, e, hok, herr⟩ := decodeIntoRecord_frame w s
  have hpay := @decode_payload_of w s
  unfold decodingStep
  rcases hx : decodeIntoRecord w s with ⟨u, x | x⟩ <;> rw [hx] at b' e hok herr hpay <;> simp only at b' e hok herr hpay <;> subst e
  · refine ⟨_, rfl, ?_⟩
    exact inv_fail (u := { s with chk := kk, hdr := hh, out := { s.out with record := r } }) hi hs b' rfl rfl rfl rfl rfl rfl
  · cases k with
    | single => exact ⟨_, rfl, inv_finish (u := { s with chk := kk, hdr := hh, out := { s.out with record := r } }) b' hk _ _⟩
    | round =>
      simp only at hk
      obtain ⟨k1, k2, k3⟩ := hk
      have hc := hi.caller hs
      simp only [callerOk, k1, k2, if_true, Bool.and_eq_true, decide_eq_true_eq] at hc
      have hrd := hi.readable
      simp only [roundReadable, k1, k2, hs, Bool.and_eq_true, decide_true, Bool.true_and, Bool.not_true, Bool.false_or] at hrd
      obtain ⟨h', p, r0, cur, hp⟩ := hpay rfl
      have hll := legal_layouts hi.legal
      refine inv_roundOk (u := { s with chk := kk, hdr := hh, out := { s.out with record := r } }) b' k1 hb hd k2 hc.1.2 hc.2 hrd.1 hrd.2 ?_ ?_
      · intro hq
        have hq : s.seq.seqQ = .analog := hq
        rw [k3, hq] at hp
        exact analog_readable hll.1 hp
      · intro hq
        have hq : s.seq.seqQ = .alarm := hq
        rw [k3, hq] at hp
        exact alarm_readable hll.2 hp
    | discovery =>
      simp only at hk
      have hc := hi.caller hs
      simp only [callerOk, hk, Bool.false_eq_true, if_false, Bool.and_eq_true, decide_eq_true_eq] at hc
      refine ⟨_, rfl, inv_discoverLoop (u := setDisc (s.seq.discI + 1) { s with chk := kk, hdr := hh, out := { s.out with record := r } }) (quiet_congr b' rfl rfl rfl (fun h => h) rfl hc.2 b.pc rfl) hk hb hd (hi.ready hk).1⟩

/-- A step of a transaction for its caller answers, and keeps the invariant. -/
theorem inv_transact {k : Caller} {s : State} {w : WireCmd} (hi : Inv s) (hn : s.env.inReset = false) (ho :
    inTransaction s.seq.orch = true)
   (hk : match k with 
     | .single => s.flags.ready = true
     | .round => s.flags.ready = true ∧ s.regs.cmd = .status ∧ w = s.seq.seqQ.toWire
     | .discovery => s.flags.ready = false) : ∃ t, transactStep w k s = .next t ∧ Inv t := by
  unfold transactStep
  cases h : s.seq.orch <;> rw [h] at ho <;> simp only [inTransaction] at ho
  · cases ho
  · cases ho
  · exact ⟨_, rfl, inv_sending hi hn h⟩
  · exact ⟨_, rfl, inv_awaiting hi hn h⟩
  · exact inv_decoding hi hn h hk
  · exact ⟨_, rfl, inv_retrying hi hn h⟩
  · cases ho

end Sys2Proof.Machine
end

