-- ==== Sys2Proof/Laws/PerInstr.lean ====
section
/-!
SUPPORT. Statements made for every instruction, one lemma for each constructor: the host port's encoding goes round (R95,
R97, R100).
-/

/-- What the encoder puts on CMD_NAME and CMD_IDX, the decoder of the port reads as the same instruction. -/
def Sys2Proof.Laws.NameRoundTrip.Statement (i : Sys2Proof.Instr) : Prop :=
  Sys2Proof.decodeCommand (Sys2Proof.encodeCommand i).1 (Sys2Proof.encodeCommand i).2 = .ok i

theorem Sys2Proof.Laws.NameRoundTrip.protocol (idx : Option Int) :
    Sys2Proof.Laws.NameRoundTrip.Statement (.protocol idx) := rfl

theorem Sys2Proof.Laws.NameRoundTrip.manufactory (idx : Option Int) :
    Sys2Proof.Laws.NameRoundTrip.Statement (.manufactory idx) := rfl

theorem Sys2Proof.Laws.NameRoundTrip.analog (idx : Option Int) :
    Sys2Proof.Laws.NameRoundTrip.Statement (.analog idx) := rfl

theorem Sys2Proof.Laws.NameRoundTrip.alarm (idx : Option Int) :
    Sys2Proof.Laws.NameRoundTrip.Statement (.alarm idx) := rfl

theorem Sys2Proof.Laws.NameRoundTrip.chargingDischarge (idx : Option Int) :
    Sys2Proof.Laws.NameRoundTrip.Statement (.chargingDischarge idx) := rfl

theorem Sys2Proof.Laws.NameRoundTrip.serialnumber (idx : Option Int) :
    Sys2Proof.Laws.NameRoundTrip.Statement (.serialnumber idx) := rfl

theorem Sys2Proof.Laws.NameRoundTrip.systemparameter (idx : Option Int) :
    Sys2Proof.Laws.NameRoundTrip.Statement (.systemparameter idx) := rfl

theorem Sys2Proof.Laws.NameRoundTrip.status (idx : Option Int) :
    Sys2Proof.Laws.NameRoundTrip.Statement (.status idx) := rfl
end

