-- ==== Sys2Proof/Laws/Strip.lean ====
section
/-!
SUPPORT. The header of an answer reaches the stripped record of no command but `protocol` (spec/44_orchestrator.md R247).
-/

namespace Sys2Proof.Machine

/-- The header names come first. -/
theorem hdr_low {f g : Field} (hf : f ∈ headerFields) (hg : g ∉ headerFields) : fieldOrder f < fieldOrder g := by
  revert hf hg; cases f <;> cases g <;> decide

/-- strip goes field by field. -/
theorem strip_cons (e : Field × Value) (r : Record) : strip (e :: r) = if e.1 ∈ headerFields then strip r else e
    :: strip r := by
  unfold strip
  rw [List.filter_cons]
  by_cases h : e.1 ∈ headerFields <;> simp [h]

/-- Writing a header field is lost by strip (R247). -/
theorem strip_set_hdr {f : Field} (v : Value) (r : Record) (hf : f ∈ headerFields) : strip (Record.set f v r) =
    strip r := by
  induction r with
  | nil => simp [Record.set, strip_cons, hf]
  | cons e r ih =>
    obtain ⟨g, w⟩ := e
    simp only [Record.set]
    split
    · rw [strip_cons]; simp only [hf, if_true]
    · split
      · rename_i _ h; subst h; rw [strip_cons, strip_cons]; simp only [hf, if_true]
      · rw [strip_cons, strip_cons, ih]

/-- strip lets a write of any other field through. -/
theorem strip_set {f : Field} (v : Value) (r : Record) (hf : f ∉ headerFields) : strip (Record.set f v r) =
    Record.set f v (strip r) := by
  induction r with
  | nil => simp [Record.set, strip_cons, hf]; simp [strip, Record.set]
  | cons e r ih =>
    obtain ⟨g, w⟩ := e
    by_cases hg : g ∈ headerFields
    · have h1 : ¬ fieldOrder f < fieldOrder g := by have := hdr_low hg hf; omega
      have h2 : f ≠ g := fun e => hf (e ▸ hg)
      simp only [Record.set, h1, if_false, h2]
      rw [strip_cons, strip_cons]; simp only [hg, if_true, ih]
    · rw [strip_cons]
      simp only [hg, if_false, Record.set]
      split
      · rw [strip_cons, strip_cons]; simp only [hf, hg, if_false]
      · split
        · rw [strip_cons]; simp only [hf, if_false]
        · rw [strip_cons]; simp only [hg, if_false, ih]

/-- Records that strip alike strip alike after a write. -/
theorem strip_set_congr {f : Field} (v : Value) {r r' : Record} (h : strip r = strip r') : strip (Record.set f v
    r) = strip (Record.set f v r') := by
  by_cases hf : f ∈ headerFields
  · rw [strip_set_hdr v r hf, strip_set_hdr v r' hf, h]
  · rw [strip_set v r hf, strip_set v r' hf, h]

/-- Two reads that fail alike, or leave the same cursor and records that strip alike. -/
def sameRead (a b : Read Record) : Prop := (∃ e, a = .error e ∧ b = .error e) ∨ ∃ q q' c, a = .ok (q, c) ∧ b = .ok (q', c) ∧ strip q = strip q'

/-- Storing a read keeps them alike. -/
theorem same_store {f : Field} {r r' : Record} (h : strip r = strip r') (x : Read Value) : sameRead (storeRead f
    r x) (storeRead f r' x) := by
  cases x with
  | error e => exact .inl ⟨e, rfl, rfl⟩
  | ok a => exact .inr ⟨_, _, _, rfl, rfl, strip_set_congr _ h⟩

/-- Records that strip alike hold the same detected-capacity flag. -/
theorem same_wideFlag {r r' : Record} (h : strip r = strip r') : wideFlag r = wideFlag r' := by
  unfold wideFlag
  rw [← Record.get?_strip r (by decide), ← Record.get?_strip r' (by decide), h]

/-- Reading a slot keeps them alike. -/
theorem same_slot {c : Config} {t : Slot} {st p cur} {r r' : Record} (h : strip r = strip r') : sameRead (readSlot
    c t st p cur r) (readSlot c t st p cur r') := by
  cases t with
  | token f => exact same_store h _
  | text f k => exact same_store h _
  | bytes f k => exact same_store h _
  | textRest f => exact same_store h _
  | bytesRest f => exact same_store h _
  | counted n l =>
    simp only [readSlot]
    cases takeHex p 2 cur with
    | error e => exact .inl ⟨e, rfl, rfl⟩
    | ok a => exact same_store (strip_set_congr _ h) _
  | statusFlags =>
    simp only [readSlot]
    cases read8 p cur with
    | error e => exact .inl ⟨e, rfl, rfl⟩
    | ok a =>
      refine .inr ⟨_, _, _, rfl, rfl, ?_⟩
      unfold setStatusFlags
      exact strip_set_congr _ (strip_set_congr _ (strip_set_congr _ (strip_set_congr _ (strip_set_congr _ (strip_set_congr _ h)))))
  | narrow f => exact same_store h _
  | wide f =>
    simp only [readSlot, same_wideFlag h]
    split
    · exact same_store h _
    · exact .inr ⟨_, _, _, rfl, rfl, h⟩
  | move m =>
    simp only [readSlot, same_wideFlag h]
    exact .inr ⟨_, _, _, rfl, rfl, h⟩

/-- Reading a layout keeps them alike. -/
theorem same_slots {c : Config} {p} {l : Layout} {st cur} {r r' : Record} (h : strip r = strip r') : sameRead
    (readSlots c p l st cur r) (readSlots c p l st cur r') := by
  induction l generalizing st cur r r' with
  | nil => exact .inr ⟨_, _, _, rfl, rfl, h⟩
  | cons t ts ih =>
    simp only [readSlots]
    rcases same_slot (c := c) (t := t) (st := st) (p := p) (cur := cur) h with ⟨e, h1, h2⟩ | ⟨q, q', c, h1, h2, h3⟩
    · rw [h1, h2]; exact .inl ⟨e, rfl, rfl⟩
    · rw [h1, h2]; exact ih h3

/-- So does the rule of every command but `protocol`, whatever the header. -/
theorem same_payload {c : Config} {w : WireCmd} (hw : w ≠ .protocol) {h h' : Hdr} {p} {r r' : Record} (hr :
    strip r = strip r') : sameRead (decodePayload c w h p r) (decodePayload c w h' p r') := by
  have fixed : ∀ len l, sameRead (readFixed c len p l r) (readFixed c len p l r') := by
    intro len l
    unfold readFixed
    split
    · exact .inl ⟨_, rfl, rfl⟩
    · exact same_slots hr
  cases w with
  | protocol => exact absurd rfl hw
  | manufactory => exact same_slots hr
  | analog => exact same_slots hr
  | alarm => exact same_slots hr
  | chargingDischarge => exact fixed _ _
  | serialnumber => exact fixed _ _
  | systemparameter => exact fixed _ _

end Sys2Proof.Machine
end

