-- ==== Sys2Proof/Tests/Slice0.lean ====
section
/-!
SUPPORT. The model's own tests. Expected values come from spec/95_test_vectors.md (part and number in each comment) or are
written out from the encodings of spec/30_encoding.md and spec/opcode_table.json. Last, for every statement with hypotheses,
a state and operands that meet them.
-/

open Sys2Proof Sys2Proof.Machine

namespace Sys2Proof.Tests

set_option Elab.async false

/-! ## Builders -/

/-- The characters of a text. -/
def ascii (s : String) : List Byte :=
  s.toList.map (fun c => BitVec.ofNat 8 c.toNat)

/-- Idle after discovery with `n` modules. -/
def idle (n : Nat) : State :=
  { State.reset with
    seq := { State.reset.seq with orch := .idle, discI := n }
    flags := { State.reset.flags with ready := true, busy := false }
    regs := { State.reset.regs with moduleCount := n } }

/-- Command `c` in progress with 2 modules, in state `o`. -/
def within (c : Cmd) (o : OrchState) : State :=
  { idle 2 with
    seq := { (idle 2).seq with orch := o }
    flags := { (idle 2).flags with busy := true }
    regs := { (idle 2).regs with cmd := c, probeMode := false } }

/-- The frame `f` has been collected for query `w`. -/
def received (w : WireCmd) (f : List Byte) : State :=
  { within (.wire w) .decoding with rx := { State.reset.rx with frame := f, frameLen := f.length } }

/-- Retrying at phase `p`. -/
def retryAt (p : RetryPhase) : State :=
  { within (.wire .analog) .retrying with seq := { (within (.wire .analog) .retrying).seq with retryPhase := p } }

/-- The STOP port is up. -/
def stopped (s : State) : State :=
  { s with env := { s.env with stop := true } }

/-- The state a meaning answers, or reset. -/
def after (o : Outcome) : State :=
  match o with
  | .next s => s
  | .fault _ => State.reset
  | .refused _ => State.reset

/-- A field of the record a command ended with. -/
def answer (o : Outcome) (f : Field) : Option Value :=
  match (after o).out.result with
  | .record r => Record.get? f r
  | .absent => none
  | .stack _ => none
  | .misused _ => none

/-! ## WellFormed: each check refuses a term -/

theorem test_wellFormed_query : (Instr.status (some 0)).isQuery = false ∧ (Instr.status (some 0)).wellFormed = false := by
  decide

theorem test_wellFormed_index_missing : (Instr.analog none).idxPresent = false ∧ (Instr.analog none).wellFormed = false := by
  decide

theorem test_wellFormed_index_negative :
    (Instr.alarm (some (-1))).idxNonneg = false ∧ (Instr.alarm (some (-1))).wellFormed = false := by decide

theorem test_wellFormed_index_too_large :
    (Instr.serialnumber (some 16)).idxFits = false ∧ (Instr.serialnumber (some 16)).wellFormed = false := by decide

theorem test_wellFormed_accepts : (Instr.serialnumber (some 15)).wellFormed = true := by decide

/-! ## Decoding: words written out from opcode_table.json, the address byte in bits 39 to 32 -/

/-- VER 00100000, ADR 00000001, CID1 01000110, CID2 01001111, LENGTH 0. -/
theorem test_decode_protocol :
    decodeTableWord 48 0b001000000000000101000110010011110000000000000000 = some (.protocol (some 0)) := by decide

theorem test_decode_manufactory :
    decodeTableWord 48 0b001000000000001001000110010100010000000000000000 = some (.manufactory (some 1)) := by decide

/-- LENGTH 1110 000000000010. -/
theorem test_decode_analog :
    decodeTableWord 48 0b001000000001000101000110010000101110000000000010 = some (.analog (some 0)) := by decide

theorem test_decode_alarm :
    decodeTableWord 48 0b001000000000111101000110010001001110000000000010 = some (.alarm (some 14)) := by decide

theorem test_decode_chargingDischarge :
    decodeTableWord 48 0b001000000000001101000110100100101110000000000010 = some (.chargingDischarge (some 2)) := by decide

theorem test_decode_serialnumber :
    decodeTableWord 48 0b001000000000010001000110100100111110000000000010 = some (.serialnumber (some 3)) := by decide

theorem test_decode_systemparameter :
    decodeTableWord 48 0b001000000000000101000110010001110000000000000000 = some (.systemparameter (some 0)) := by decide

theorem test_decode_status : decodeTableWord 0 0 = some (.status none) := by decide

/-- A reserved CID2, a wrong VER and a wrong LENGTH are no instruction. -/
theorem test_decode_refuses :
    decodeTableWord 48 0x200146430000 = none ∧ decodeTableWord 48 0x2101464F0000 = none
      ∧ decodeTableWord 48 0x20014642E003 = none ∧ decodeTableWord 8 0 = none := by decide

/-- The names of R95, and V5.10: matching is exact. -/
theorem test_decode_names :
    decodeCommand (ascii "charging/discharge") none = .ok (.chargingDischarge none)
      ∧ decodeCommand (ascii "status") (some 3) = .ok (.status (some 3))
      ∧ decodeCommand (ascii "Status") none = .error (.unknownName (ascii "Status"))
      ∧ decodeCommand (ascii "status ") none = .error (.unknownName (ascii "status "))
      ∧ decodeCommand (ascii "voltage") none = .error (.unknownName (ascii "voltage"))
      ∧ decodeCommand [] none = .error (.unknownName []) := by decide +kernel

/-- No two rows of the table overlap. -/
theorem test_rows_disjoint : opcodeRows.Pairwise (fun r r' => r.mask = r'.mask ∧ r.pattern ≠ r'.pattern) := by decide

/-- Every row's word runs as the first instruction after reset: its command is accepted. -/
theorem test_fetch_rows :
    [0x2000464F0000, 0x200046510000, 0x20004642E002, 0x20004644E002, 0x20004692E002, 0x20004693E002, 0x200046470000].map
        (fun w => (after (step (State.reset.withFetchWord 48 w))).regs.cmd)
      = [Cmd.wire .protocol, .wire .manufactory, .wire .analog, .wire .alarm, .wire .chargingDischarge,
         .wire .serialnumber, .wire .systemparameter]
    ∧ (after (step (State.reset.withFetchWord 0 0))).regs.cmd = .status
    ∧ (after (step (State.reset.withFetchWord 48 0x2013464F0000))).seq.orch = .sending := by decide +kernel

/-! ## Primitives (part S) -/

/-- S3 to S5: the two's-complement tokens. -/
theorem test_signed_tokens : signed16 0xFFFF = -1 ∧ signed16 1 = 1 ∧ signed16 0x8000 = -32768 := by decide

/-- S6, S7: scaling. -/
theorem test_scaled_tokens :
    readScaled Config.default .cellVoltages 1000 (ascii "0AF0") 0 = .ok (⟨2800, 1000⟩, 4)
      ∧ readTemp Config.default .temperatures (ascii "0AAB") 0 = .ok (⟨0, 10⟩, 4)
      ∧ readTemp Config.default .temperatures (ascii "0BB9") 0 = .ok (⟨270, 10⟩, 4) := by decide +kernel

/-- S8. -/
theorem test_alarm_tokens : [0, 1, 2, 3].map alarmOf = [.ok, .belowLimit, .aboveLimit, .otherError] := by decide

/-! ## Codec (part V2) -/

/-- V2.1, V2.2, V2.5, V2.15. -/
theorem test_encode :
    encodeFrame (ascii "2001464F0000") = ascii "~2001464F0000FD99\r"
      ∧ encodeFrame (ascii "200146000000") = ascii "~200146000000FDB3\r"
      ∧ encodeFrame [] = ascii "~0000\r"
      ∧ encodeFrame (ascii "2001460000") = ascii "~2001460000FE13\r" := by decide +kernel

/-- V2.4, V2.6, V2.8: lower case, noise in front, an exchange the checksum does not see. -/
theorem test_decode_frames :
    (decodeFrame (ascii "~200146000000fdb3\r") State.reset.chk).2 = .ok (ascii "200146000000")
      ∧ (decodeFrame (0x00 :: 0xFF :: ascii "~200146000000FDB3\r") State.reset.chk).2 = .ok (ascii "200146000000")
      ∧ (decodeFrame (ascii "~020146000000FDB3\r") State.reset.chk).2 = .ok (ascii "020146000000") := by decide +kernel

/-- V2.9, V2.11, V2.12, V2.13, V2.14, V1.11. -/
theorem test_decode_frame_errors :
    (decodeFrame (ascii "~200146000001FDB3\r") State.reset.chk).2 = .error (.checksum 0xFDB2 (some 0xFDB3))
      ∧ (decodeFrame (ascii "~200146000000FDBG\r") State.reset.chk).2 = .error (.checksum 0xFDB3 none)
      ∧ (decodeFrame (0x7F :: ascii "200146000000FDB3\r") State.reset.chk).2 = .error (.framing .noStart)
      ∧ (decodeFrame (ascii "200146000000FDB3\r\r") State.reset.chk).2 = .error (.framing .noStart)
      ∧ (decodeFrame (ascii "~200146000000FDB3\r\n") State.reset.chk).2 = .error (.framing .noEnd)
      ∧ (decodeFrame (ascii "~20~200146000000FDB3\r") State.reset.chk).2 = .error (.checksum 0xFCD3 (some 0xFDB3)) := by
  decide +kernel

/-- V2.7: a sum of 65536 gives the checksum 0. -/
theorem test_checksum_of_65536 : chk16 (List.replicate 257 0xFF ++ [0x01]) = 0 := by decide +kernel

/-! ## Encoder (part V3) -/

/-- V3.1 to V3.14, the second module. -/
theorem test_query_frames :
    [WireCmd.protocol, .manufactory, .analog, .chargingDischarge, .alarm, .serialnumber, .systemparameter].map
        (fun w => encodeFrame (queryBody Config.default w 1))
      = [ascii "~2002464F0000FD98\r", ascii "~200246510000FDAC\r", ascii "~20024642E00202FD33\r",
         ascii "~20024692E00202FD2E\r", ascii "~20024644E00202FD31\r", ascii "~20024693E00202FD2D\r",
         ascii "~200246470000FDA7\r"] := by decide +kernel

/-- V3.16: group 1. -/
theorem test_query_group :
    encodeFrame (queryBody { Config.default with group := 1 } .analog 0) = ascii "~20114642E00211FD33\r" := by
  decide +kernel

/-! ## One step of each command on a collected answer (part V4) -/

/-- V4.3: nothing of the header is compared. -/
theorem test_protocol :
    answer (exec (.protocol none) (received .protocol (ascii "~21FF00FF0000FD65\r"))) .protocolVersion
      = some (.int 33) := by decide +kernel

/-- V4.31. -/
theorem test_manufactory :
    let o := exec (.manufactory none) (received .manufactory
      (ascii "~20014600C04055533230303043000000010450796C6F6E000000000000000000000000000000F10B\r"))
    answer o .batteryName = some (.text (ascii "US2000C")) ∧ answer o .softwareVersion = some (.ints [1, 4])
      ∧ answer o .manufacturerName = some (.text (ascii "Pylon")) := by decide +kernel

/-- V4.32, the odd last character. -/
theorem test_manufactory_odd :
    answer (exec (.manufactory none) (received .manufactory (ascii "~20014600401B555332303030430000000104507F854\r")))
      .manufacturerName = some (.text (ascii "P")) := by decide +kernel

/-- V4.9. -/
theorem test_analog_narrow :
    let o := exec (.analog none) (received .analog
      (ascii "~20014600B0320001030AF00CE40CE5020AAB0BB9FFE726AC88B802C3500064F290\r"))
    answer o .cellVoltages = some (.decs [⟨2800, 1000⟩, ⟨3300, 1000⟩, ⟨3301, 1000⟩])
      ∧ answer o .temperatures = some (.decs [⟨0, 10⟩, ⟨270, 10⟩]) ∧ answer o .current = some (.dec ⟨-25, 10⟩)
      ∧ answer o .moduleVoltage = some (.dec ⟨9900, 1000⟩) ∧ answer o .cycleCount = some (.int 100)
      ∧ answer o .remainingCapacity = some (.dec ⟨35000, 1000⟩)
      ∧ answer o .moduleCapacity = some (.dec ⟨50000, 1000⟩) := by decide +kernel

/-- V4.10: the wide capacities. -/
theorem test_analog_wide :
    let o := exec (.analog none) (received .analog
      (ascii "~20024600F03E0002030CE40CE60CDF020BA50B87002526B0FFFF04FFFF00FA0124F80186A0EFBC\r"))
    answer o .current = some (.dec ⟨37, 10⟩) ∧ answer o .detectedCapacity = some (.int 4)
      ∧ answer o .cycleCount = some (.int 250) ∧ answer o .remainingCapacity = some (.dec ⟨75000, 1000⟩)
      ∧ answer o .moduleCapacity = some (.dec ⟨100000, 1000⟩) := by decide +kernel

/-- V4.22. -/
theorem test_alarm :
    let o := exec (.alarm none) (received .alarm (ascii "~20024600C0220002030001000200020003F00000000000F718\r"))
    answer o .cellAlarms = some (.alarms [.ok, .belowLimit, .ok])
      ∧ answer o .temperatureAlarms = some (.alarms [.ok, .aboveLimit]) ∧ answer o .chargeCurrentAlarm = some (.alarm .ok)
      ∧ answer o .moduleVoltageAlarm = some (.alarm .otherError)
      ∧ answer o .dischargeCurrentAlarm = some (.alarm .otherError)
      ∧ answer o .statusBytes = some (.ints [0, 0, 0, 0, 0]) := by decide +kernel

/-- V4.16, V4.18. -/
theorem test_chargingDischarge :
    let o := exec (.chargingDischarge none) (received .chargingDischarge (ascii "~20014600B01401D002ADD400FAFE8EC0F906\r"))
    answer o .chargeVoltageLimit = some (.dec ⟨53250, 1000⟩) ∧ answer o .dischargeCurrentLimit = some (.dec ⟨-370, 10⟩)
      ∧ answer o .statusByte = some (.int 192) ∧ answer o .dischargeEnable = some (.bool true)
      ∧ answer o .chargeImmediately1 = some (.bool false) := by decide +kernel

/-- V4.17: the flags of 0x68. -/
theorem test_chargingDischarge_flags :
    let o := exec (.chargingDischarge none) (received .chargingDischarge (ascii "~20024600B01402D002ADD40000FE8E68F930\r"))
    answer o .chargeEnable = some (.bool false) ∧ answer o .dischargeEnable = some (.bool true)
      ∧ answer o .chargeImmediately1 = some (.bool true) ∧ answer o .chargeImmediately2 = some (.bool false)
      ∧ answer o .fullChargeRequired = some (.bool true) := by decide +kernel

/-- V4.27 and V4.30: only trailing nulls are trimmed. -/
theorem test_serialnumber :
    answer (exec (.serialnumber none)
        (received .serialnumber (ascii "~20024600C0220241424331323300000000000000000000F718\r"))) .serialNumber
      = some (.text (ascii "ABC123"))
    ∧ answer (exec (.serialnumber none)
        (received .serialnumber (ascii "~20014600C02201414220FF000000000000000000000000F702\r"))) .serialNumber
      = some (.text [0x41, 0x42, 0x20, 0xFF]) := by decide +kernel

/-- V4.24. -/
theorem test_systemparameter :
    let o := exec (.systemparameter none) (received .systemparameter
      (ascii "~20014600B032000E740BEA0B540C9F0A9703FCD2F0B3B0ADD40CD10A47FC18F244\r"))
    answer o .cellHighVoltageLimit = some (.dec ⟨3700, 1000⟩) ∧ answer o .chargeHighTemperatureLimit = some (.dec ⟨500, 10⟩)
      ∧ answer o .chargeLowTemperatureLimit = some (.dec ⟨-20, 10⟩) ∧ answer o .chargeCurrentLimit = some (.dec ⟨1020, 10⟩)
      ∧ answer o .moduleUnderVoltageLimit = some (.dec ⟨44500, 1000⟩)
      ∧ answer o .dischargeCurrentLimit = some (.dec ⟨-1000, 10⟩) := by decide +kernel

/-- V4.25 and V4.11: the errors, and RECORD empty. -/
theorem test_payload_errors :
    let s := after (exec (.systemparameter none) (received .systemparameter
      (ascii "~200146009034000E740BEA0B540C9F0A9703FCD2F0B3B0ADD40CD10A47FC1800F1EB\r")))
    let t := after (exec (.analog none) (received .analog
      (ascii "~20024600B0320002030CE40CE60CDF020BA50B87002526B0FFFF04FFFF00FAF258\r")))
    s.flags.lastErr = some (.payloadFormat .systemparameter 52 .wrongLength) ∧ s.out.record = []
      ∧ s.seq.orch = .retrying ∧ t.flags.lastErr = some (.payloadFormat .analog 50 .overrun) ∧ t.out.record = [] := by
  decide +kernel

/-! ## The parameters -/

/-- U31: an entry for an index that is not in use does not lift the bound; entries that represent every index do. R90: an
INFO that holds START_MARKER, or a lower-case character, is refused. -/
theorem test_config_legal :
    { Config.default with addrTable := [(200, 200, 0)], discoveryLimit := 20 }.legal = false
      ∧ { Config.default with discoveryLimit := 15 }.legal = true
      ∧ { Config.default with addrTable := [(15, 0, 0x77)], discoveryLimit := 16 }.legal = true
      ∧ { Config.default with addrTable := [(1, 0, 0x01)] }.legal = false
      ∧ { Config.default with infoTable := [(.analog, 0, 0, [0x7E])] }.legal = false
      ∧ { Config.default with infoTable := [(.analog, 0, 0, [0x66])] }.legal = false := by decide +kernel

/-- R173: the default INFO of `protocol` is empty even where HAS_INFO is overridden. -/
theorem test_info_default : infoTx Config.default .protocol 0 0 = [] ∧ infoTx Config.default .alarm 1 0 = ascii "02" := by
  decide

/-- A LAYOUT with the flag and the cycle count before the lists and the capacities behind them. -/
def flagFirst : Layout :=
  [.token .infoFlag, .token .commandValue, .token .detectedCapacity, .token .cycleCount, .counted .cellCount .cellVoltages,
   .counted .temperatureCount .temperatures, .token .current, .token .moduleVoltage,
   .narrow .remainingCapacity, .narrow .moduleCapacity, .wide .remainingCapacity, .wide .moduleCapacity]

/-- The default one with the flag and the wide capacities in front of the narrow ones, the flag read first. -/
def flagSought : Layout :=
  [.token .infoFlag, .token .commandValue, .counted .cellCount .cellVoltages, .counted .temperatureCount .temperatures,
   .token .current, .token .moduleVoltage, .move ⟨none, 12, 0⟩, .token .detectedCapacity, .narrow .remainingCapacity,
   .narrow .moduleCapacity, .token .cycleCount, .move ⟨some 6, 0, 0⟩, .wide .remainingCapacity, .wide .moduleCapacity]

/-- The numbers of V4.9 and V4.10 with their tokens in the order of `flagFirst`. -/
theorem test_layout_flag_first :
    let c := { Config.default with layouts := { Layouts.default with analog := flagFirst } }
    let get := fun (p : String) (f : Field) => match decodeAnalog c (ascii p) [] with
      | .error _ => none
      | .ok (r, _) => Record.get? f r
    let n := get "0001020064030AF00CE40CE5020AAB0BB9FFE726AC88B8C350"
    let w := get "00020400FA030CE40CE60CDF020BA50B87002526B0FFFFFFFF0124F80186A0"
    n .remainingCapacity = some (.dec ⟨35000, 1000⟩) ∧ n .moduleCapacity = some (.dec ⟨50000, 1000⟩)
      ∧ n .detectedCapacity = some (.int 2) ∧ n .cycleCount = some (.int 100)
      ∧ w .remainingCapacity = some (.dec ⟨75000, 1000⟩) ∧ w .moduleCapacity = some (.dec ⟨100000, 1000⟩)
      ∧ w .cycleCount = some (.int 250) ∧ w .current = some (.dec ⟨37, 10⟩) := by
  decide +kernel

/-- Legal layouts: a gap in the wide branch, other fields that share characters. Refused: a wide capacity that is not behind
its narrow one (R207), one inside other tokens (R63), a position before the payload. -/
theorem test_layouts_legal :
    let l := fun a => { Layouts.default with analog := a }
    let wideAt := fun m => layoutAnalog.take 10 ++ [.move m] ++ layoutAnalog.drop 10
    (l flagFirst).legal = true ∧ (l flagSought).legal = false
      ∧ (l (wideAt ⟨none, 0, 3⟩)).legal = true
      ∧ (l (layoutAnalog.take 1 ++ [.move ⟨none, -2, 0⟩] ++ layoutAnalog.drop 1)).legal = true
      ∧ (l (wideAt ⟨some 6, 0, 0⟩)).legal = false
      ∧ (l (wideAt ⟨some 6, 1, 0⟩)).legal = false
      ∧ (l (wideAt ⟨none, -1, 0⟩)).legal = false
      ∧ (l (.move ⟨none, -1, 0⟩ :: layoutAnalog)).legal = false := by
  decide +kernel

/-- No field lies past the end of a payload of exact length (R195, N6), nor behind a field that takes what remains. -/
theorem test_layouts_inside :
    let serial := fun a => { Layouts.default with serialnumber := a }
    let names := fun a => { Layouts.default with manufactory := a }
    (serial [.textRest .serialNumber, .move ⟨none, -2, 0⟩, .token .commandValue]).legal = true
      ∧ (serial [.textRest .serialNumber, .token .commandValue]).legal = false
      ∧ (serial [.token .commandValue, .text .serialNumber 17]).legal = false
      ∧ (serial (Slot.move ⟨none, 1, 0⟩ :: layoutSerialnumber)).legal = false
      ∧ (names [.text .batteryName 10, .textRest .manufacturerName, .move ⟨none, -4, 0⟩, .bytes .softwareVersion 2]).legal = true
      ∧ (names [.text .batteryName 10, .textRest .manufacturerName, .bytes .softwareVersion 2]).legal = false
      ∧ ({ Layouts.default with chargingDischarge := layoutChargingDischarge ++ [Slot.move ⟨none, 9, 0⟩] }).legal = true
      ∧ ({ Layouts.default with systemparameter := Slot.move ⟨none, 1, 0⟩ :: layoutSystemparameter }).legal = false := by
  decide +kernel

/-! ## The round (part V5) -/

/-- The record of a collected answer. -/
def recordOf (w : WireCmd) (f : List Byte) : Record :=
  match (decodeIntoRecord w (received w f)).2 with
  | .ok r => strip r
  | .error _ => []

/-- A module with the records of V4.9 or V4.10 and V4.21 or V4.22. -/
def moduleA : ModuleSnapshot :=
  { ModuleSnapshot.empty with
    analog := recordOf .analog (ascii "~20014600B0320001030AF00CE40CE5020AAB0BB9FFE726AC88B802C3500064F290\r")
    alarm := recordOf .alarm (ascii "~20014600C0220001030000000200000000000000000000F736\r") }

def moduleB : ModuleSnapshot :=
  { ModuleSnapshot.empty with
    analog := recordOf .analog
      (ascii "~20024600F03E0002030CE40CE60CDF020BA50B87002526B0FFFF04FFFF00FA0124F80186A0EFBC\r")
    alarm := recordOf .alarm (ascii "~20024600C0220002030001000200020003F00000000000F718\r") }

/-- V5.4 and V5.6. -/
theorem test_fold_sums :
    (fold [moduleA, moduleB]).map (fun c => [c.totalCapacityAh, c.remainingCapacityAh, c.currentA, c.powerW])
      = some [⟨150000, 1000⟩, ⟨110000, 1000⟩, ⟨12, 10⟩, ⟨118948, 10000⟩]
    ∧ (fold [moduleA, moduleB]).map (fun c => c.remainingPercent) = some (220 / 3) := by decide +kernel

theorem test_fold_extremes_and_health :
    (fold [moduleA, moduleB]).map (fun c => [c.minCellVoltage, c.maxTemperature])
      = some [some ⟨2800, 1000⟩, some ⟨270, 10⟩]
    ∧ (fold [moduleA, moduleB]).map (fun c => [c.cellAlarmOk, c.moduleVoltageAlarmOk]) = some [false, false] := by
  decide +kernel

/-- V5.1, V5.2. -/
theorem test_clamp :
    [none, some (-1), some 0, some 1, some 2, some 7].map (fun i => clamp i 2) = [0, 0, 0, 1, 1, 1]
      ∧ [some 0, some 3].map (fun i => clamp i 0) = [0, 0] := by decide

/-! ## For every statement with hypotheses: a state and operands that meet them -/

/-- The invariant of a concrete state, field by field. -/
theorem inv_idle : Inv (idle 2) := by
  constructor <;> decide

theorem inv_reset : Inv State.reset := by
  constructor <;> decide

theorem witness_QueryDecodeEncodeAgree : (Instr.analog (some 15)).wellFormed = true ∧ 15 < 16 := by decide

theorem witness_QueryEncodeDecodeAgree :
    decodeQuery [0x20, 0xF0, 0x46, 0x42, 0xE0, 0x02, 0xF0] = .ok (.analog (some 15), 15) := by decide

/-- The parameters at their defaults, and with an entry of each table: one that is met, one that is not. -/
theorem witness_QueryBodyIsTheHexOfItsBytes :
    let c := { Config.default with addrTable := [(0, 0, 0x55)], infoTable := [(.protocol, 0, 0, [0x41])],
                                   lchkTable := [(2, 5)], hasInfo := { hasInfoDefault with protocol := true } }
    ((WireCmd.protocol, c.cid2Tx.protocol, c.hasInfo.protocol) ∈
        [(WireCmd.protocol, c.cid2Tx.protocol, c.hasInfo.protocol)]
      ∧ [0x41] = (if c.hasInfo.protocol then infoTx c .protocol 0 c.group else []) ∧ ([0x41] : List Byte).length ≤ 4095)
    ∧ (c.addrTable = [] ++ (0, 0, 0x55) :: [] ∧ ∀ e ∈ c.addrTable, (e.1, e.2.1) ≠ (1, 0))
    ∧ (c.infoTable = [] ++ (.protocol, 0, 0, [0x41]) :: []
      ∧ ∀ e ∈ c.infoTable, (e.1, e.2.1, e.2.2.1) ≠ (WireCmd.analog, 0, 0))
    ∧ (c.lchkTable = [] ++ (2, 5) :: [] ∧ 2 ≤ 4095 ∧ ∀ e ∈ c.lchkTable, e.1 ≠ 4095)
    ∧ DefaultEncoding Config.default ∧ Config.default.group < 16 ∧ 15 < 16
    ∧ encodeQuery (Instr.ofCmd (.wire .analog) (some ((15 : Nat) : Int))) Config.default.group
      = some [0x20, 0x00, 0x46, 0x42, 0xE0, 0x02, 0x00] :=
  ⟨by decide, by decide, by decide, by decide, ⟨rfl, rfl, rfl, rfl, rfl, rfl, rfl⟩, by decide, by decide, by decide⟩

/-- An Idle engine with the pulse of `name` at its port. -/
def pulsed (name : List Byte) : State :=
  setInputs [.command name none] (idle 2)

theorem witness_StepRunsThePulsedCommand :
    let s := pulsed (ascii "alarm")
    s.env.inputs = .command (ascii "alarm") none :: [] ∧ s.flags.ready = true ∧ s.seq.orch = .idle
      ∧ decodeCommand (ascii "alarm") none = .ok (.alarm none) := by decide +kernel

/-- In progress, Done and Idle, with nothing waiting and with an engine move asked for. -/
theorem witness_StepContinuesTheLatchedCommand :
    let s := within .status .sending
    (s.env.inReset = false ∧ s.flags.ready = true ∧ inTransaction s.seq.orch = true ∧ s.env.inputs = [])
      ∧ (setInputs [.engine] s).env.inputs = .engine :: []
      ∧ ((within .status .done).seq.orch = .done ∧ (within .status .done).env.inReset = false
        ∧ (within .status .done).env.inputs = [] ∧ (within .status .done).flags.ready = true
        ∧ (Instr.status none).cmd = (within .status .done).regs.cmd)
      ∧ (idle 2).seq.orch = .idle ∧ (idle 2).env.inReset = false ∧ (idle 2).env.inputs = [] := by decide

theorem witness_PulseIsIgnoredUnlessReadyAndIdle :
    let s := setInputs [.command [] none] State.reset
    let t := setInputs [.command [] none] (within .status .done)
    (s.env.inputs = .command [] none :: [] ∧ s.flags.ready = false)
      ∧ t.env.inputs = .command [] none :: [] ∧ t.seq.orch ≠ .idle := by decide

theorem witness_UnknownNameIsMisuse :
    let s := pulsed (ascii "Status")
    s.env.inputs = .command (ascii "Status") none :: [] ∧ s.flags.ready = true ∧ s.seq.orch = .idle
      ∧ ∀ c ∈ Cmd.all, c.name ≠ ascii "Status" := by decide +kernel

/-- The clauses of the clamp, each at its boundary: no value falls under two that differ. -/
theorem witness_ClampFollowsTheRule :
    clamp none 2 = 0 ∧ clamp (some 5) 0 = 0 ∧ clamp (some (-1)) 2 = 0 ∧ (clamp (some 2) 2 = 1 ∧ 0 < 2 ∧ (2 : Int) ≤ 2)
      ∧ (clamp (some 1) 2 = 1 ∧ (1 : Int) < 2) ∧ clamp (some 0) 2 = 0 := by decide

theorem witness_SingleCommandIsAccepted :
    (idle 0).flags.ready = true ∧ (idle 0).seq.orch = .idle ∧ (idle 0).env.stop = false := by decide

theorem witness_StopAtAcceptGivesNull :
    (stopped (idle 1)).flags.ready = true ∧ (stopped (idle 1)).seq.orch = .idle ∧ (stopped (idle 1)).env.stop = true := by
  decide

theorem witness_StatusStartsItsRound :
    (idle 1).flags.ready = true ∧ (idle 1).seq.orch = .idle ∧ (idle 1).env.stop = false ∧ 0 < (idle 1).regs.moduleCount := by
  decide

theorem witness_StatusOverNoModule :
    (idle 0).flags.ready = true ∧ (idle 0).seq.orch = .idle ∧ (idle 0).env.stop = false
      ∧ (idle 0).regs.moduleCount = 0 := by decide

/-- A command's query and discovery's. -/
theorem witness_SendPutsTheFrameOnTheLine :
    let s := within (.wire .protocol) .sending
    let t := { State.reset with seq := { State.reset.seq with orch := .sending } }
    (s.env.inReset = false ∧ s.env.inputs = [] ∧ s.seq.orch = .sending ∧ s.tx.de = false
      ∧ queryBody s.cfg (queryInProgress s) s.regs.curIdx = ascii "2001464F0000"
      ∧ encodeFrame (ascii "2001464F0000") = ascii "~2001464F0000FD99\r"
      ∧ (if queryInProgress s = .serialnumber then s.cfg.deadlineFast else s.cfg.deadlineDefault) = 100)
    ∧ t.env.inReset = false ∧ t.env.inputs = [] ∧ t.flags.ready = false ∧ t.seq.orch = .sending ∧ t.tx.de = false
      ∧ queryBody t.cfg (queryInProgress t) t.regs.curIdx = ascii "20014693E00201"
      ∧ (if queryInProgress t = .serialnumber then t.cfg.deadlineFast else t.cfg.deadlineDefault) = 20 := by decide +kernel

/-- A byte at the port of an engine with DE, depth and queue as given. -/
def lineByte (de : Bool) (depth : Option Nat) (q : List Byte) : State :=
  { State.reset with
    env := { State.reset.env with inputs := [.byte 0x7E] }
    cfg := { Config.default with rxfifoDepth := depth }
    tx := { State.reset.tx with de := de }
    rx := { State.reset.rx with fifo := q } }

/-- DE = 1; RESET asserted; room for one more; none left. -/
theorem witness_ReceiveFifoFollowsTheDriver :
    let r := { lineByte false none [] with env := { (lineByte false none []).env with inReset := true } }
    ((lineByte true none []).env.inputs = .byte 0x7E :: [] ∧ (lineByte true none []).tx.de = true)
      ∧ (r.env.inputs = .byte 0x7E :: [] ∧ r.env.inReset = true)
      ∧ ((lineByte false (some 2) [0]).tx.de = false ∧ (lineByte false (some 2) [0]).env.inReset = false
        ∧ (lineByte false (some 2) [0]).rx.fifo.length < 2)
      ∧ ((lineByte false (some 2) [0, 1]).tx.de = false ∧ (lineByte false (some 2) [0, 1]).cfg.rxfifoDepth = some 2
        ∧ 2 ≤ (lineByte false (some 2) [0, 1]).rx.fifo.length) := by decide

/-- Awaiting, in the receive state, at the time and with the queue given; DEADLINE_AT = 20, the last byte at 0. -/
def awaitingAt (st : RxState) (now : Nat) (q : List Byte) : State :=
  { within (.wire .analog) .awaiting with
    env := { State.reset.env with now := now }
    rx := { State.reset.rx with fifo := q, state := st, deadlineAt := 20 } }

/-- The clauses, the deadline met exactly and missed by one; in a command and in discovery. -/
theorem witness_HuntTestsTheDeadlineFirst :
    let s := fun now q => awaitingAt .hunt now q
    let t := { State.reset with seq := { State.reset.seq with orch := .awaiting }, rx := { State.reset.rx with state := .hunt } }
    ((s 20 []).flags.ready = true ∧ (Instr.analog none).cmd = (s 20 []).regs.cmd ∧ (s 20 []).seq.orch = .awaiting
        ∧ (s 20 []).rx.state = .hunt ∧ (s 20 []).regs.probeMode = false ∧ (s 20 []).cfg.retryMax = none)
      ∧ (s 20 []).rx.deadlineAt ≤ (s 20 []).env.now
      ∧ ((s 19 [0x0D]).env.now < (s 19 [0x0D]).rx.deadlineAt ∧ (s 19 [0x0D]).rx.fifo = 0x0D :: [] ∧ (0x0D : Byte) ≠ 0x7E)
      ∧ (s 19 [0x7E]).rx.fifo = 0x7E :: [] ∧ (s 19 []).rx.fifo = []
      ∧ (t.seq.orch = .awaiting ∧ t.rx.state = .hunt ∧ t.rx.deadlineAt ≤ t.env.now ∧ t.regs.probeMode = true
        ∧ t.flags.ready = false ∧ t.env.inReset = false ∧ t.env.inputs = []) := by decide

/-- The clauses: END_MARKER, a FRAMEBUF that the byte fills, one that it does not, idle met exactly and missed by one. -/
theorem witness_CollectEndsAtMarkerFullBufferOrIdle :
    let s := fun now q => awaitingAt .collect now q
    let t : State := { s 0 [0x30] with cfg := { Config.default with framebufDepth := some 1 } }
    ((s 0 [0x0D]).flags.ready = true ∧ (Instr.analog none).cmd = (s 0 [0x0D]).regs.cmd ∧ (s 0 [0x0D]).seq.orch = .awaiting
        ∧ (s 0 [0x0D]).rx.state = .collect ∧ (s 0 [0x0D]).rx.frameLen = (s 0 [0x0D]).rx.frame.length
        ∧ (s 0 [0x0D]).rx.fifo = 0x0D :: [])
      ∧ (t.rx.fifo = 0x30 :: [] ∧ t.cfg.framebufDepth = some (t.rx.frameLen + 1))
      ∧ ((s 0 [0x7E]).rx.fifo = 0x7E :: [] ∧ (0x7E : Byte) ≠ 0x0D
        ∧ (s 0 [0x7E]).cfg.framebufDepth ≠ some ((s 0 [0x7E]).rx.frameLen + 1))
      ∧ ((s 5 []).rx.fifo = [] ∧ (s 5 []).cfg.idleTimeout ≤ (s 5 []).env.now - (s 5 []).rx.lastByteAt)
      ∧ (s 4 []).env.now - (s 4 []).rx.lastByteAt < (s 4 []).cfg.idleTimeout := by decide

/-- Noise, a second START_MARKER in the data, a tail, and a FRAMEBUF that the frame just fills. -/
theorem witness_ReceiveTakesTheFirstDelimitedFrame :
    let r := awaitingAt .hunt 19 ([0x00, 0x0D] ++ 0x7E :: ([0x32, 0x7E] ++ 0x0D :: [0x7E]))
    let s := { r with cfg := { Config.default with framebufDepth := some 4 } }
    (s.env.inReset = false ∧ s.env.inputs = [] ∧ s.seq.orch = .awaiting ∧ s.rx.state = .hunt
        ∧ s.env.now < s.rx.deadlineAt)
      ∧ s.rx.fifo = [0x00, 0x0D] ++ 0x7E :: ([0x32, 0x7E] ++ 0x0D :: [0x7E]) ∧ (0x7E : Byte) ∉ [(0x00 : Byte), 0x0D]
      ∧ (0x0D : Byte) ∉ [(0x32 : Byte), 0x7E]
      ∧ ∀ depth, s.cfg.framebufDepth = some depth → [(0x32 : Byte), 0x7E].length + 2 ≤ depth := by
  refine ⟨by decide, by decide, by decide, by decide, fun depth h => ?_⟩
  cases h
  decide

theorem witness_CodecRoundTrip : 10 ≤ (ascii "2001460000").length ∧ (ascii "200146000").length < 10 := by decide

theorem witness_SingleBitFlipIsDetected : 10 ≤ (ascii "2001460000").length ∧ 9 < (ascii "2001460000").length ∧ 7 < 8 := by
  decide

theorem witness_FramingChecksInOrder :
    (0x7E : Byte) ∉ [(0x00 : Byte), 0xFF] ∧ (0x7E : Byte) ∉ ascii "200146"
      ∧ (trim (ascii "~200146000FE43\r")).length < 16
      ∧ (16 ≤ (trim (ascii "200146000000FDB3\r\r")).length ∧ (trim (ascii "200146000000FDB3\r\r")).head? ≠ some 0x7E)
      ∧ (16 ≤ (trim (ascii "~200146000000FDB3")).length ∧ (trim (ascii "~200146000000FDB3")).head? = some 0x7E
        ∧ (trim (ascii "~200146000000FDB3")).getLast? ≠ some 0x0D)
      ∧ 16 ≤ (trim (ascii "~2001460000FE13\r")).length ∧ (trim (ascii "~2001460000FE13\r")).head? = some 0x7E
      ∧ (trim (ascii "~2001460000FE13\r")).getLast? = some 0x0D := by decide +kernel

theorem witness_ChecksumCheckRecordsBoth :
    let t := ascii "~2001460000FE13\r"
    let u := ascii "~2001460000FE1G\r"
    (t = trim t ∧ 16 ≤ t.length ∧ t.head? = some 0x7E ∧ t.getLast? = some 0x0D
        ∧ (t.drop 1).take (t.length - 6) = ascii "2001460000" ∧ unhex ((t.drop (t.length - 5)).take 4) = some 0xFE13)
      ∧ u = trim u ∧ 16 ≤ u.length ∧ u.head? = some 0x7E ∧ u.getLast? = some 0x0D
        ∧ unhex ((u.drop (u.length - 5)).take 4) = none := by decide +kernel

/-- Eleven characters; a `G`; twelve good ones with a LENID that agrees and with one that does not. -/
theorem witness_HeaderChecksInOrder :
    (ascii "20014600000").length < 12
      ∧ (12 ≤ (ascii "2G0146000000").length ∧ unhex (((ascii "2G0146000000").drop 0).take 2) = none)
      ∧ (12 ≤ (ascii "20014600E002").length ∧ tokenIs (ascii "20014600E002") 0 2 0x20
        ∧ tokenIs (ascii "20014600E002") 2 2 1 ∧ tokenIs (ascii "20014600E002") 4 2 0x46
        ∧ tokenIs (ascii "20014600E002") 6 2 0 ∧ tokenIs (ascii "20014600E002") 8 4 0xE002
        ∧ (ascii "20014600E002").length - 12 ≠ 0xE002 % 4096)
      ∧ tokenIs (ascii "200146000000") 8 4 0 ∧ (ascii "200146000000").length - 12 = 0 % 4096 := by
  unfold tokenIs
  decide +kernel

theorem witness_TokenReadsAreBounded :
    (ascii "0AF").length < 0 + 4
      ∧ (0 + 4 ≤ (ascii "0AG0").length ∧ ∃ b ∈ ((ascii "0AG0").drop 0).take 4, digitVal b = none)
      ∧ 0 + 4 ≤ (ascii "0aF0").length
      ∧ (((ascii "0aF0").drop 0).take 4).map digitVal = [0, 10, 15, 0].map some := by decide +kernel

/-! ### Answers: a frame that is accepted, and its tokens -/

/-- The codec and decoder registers after the codec and the header decoder, and the payload. -/
def parts (f : List Byte) : Chk × Hdr × List Byte :=
  match decodeFrame f State.reset.chk with
  | (k, .error _) => (k, State.reset.hdr, [])
  | (k, .ok b) =>
    match decodeHeader b State.reset.hdr with
    | (h, .error _) => (k, h, [])
    | (h, .ok p) => (k, h, p)

/-- The body of a frame. -/
def bodyIn (f : List Byte) : List Byte :=
  match (decodeFrame f State.reset.chk).2 with
  | .error _ => []
  | .ok b => b

/-- A collected frame that passes the codec and the header decoder is an accepted answer. -/
theorem answered_of {w : WireCmd} {f : List Byte}
    (h : decodeFrame (received w f).frame State.reset.chk = ((parts f).1, .ok (bodyIn f))
      ∧ decodeHeader (bodyIn f) State.reset.hdr = ((parts f).2.1, .ok (parts f).2.2)) :
    Answered (.wire w) (received w f) (parts f).1 (parts f).2.1 (parts f).2.2 :=
  ⟨rfl, rfl, rfl, bodyIn f, h.1, h.2⟩

def frameProtocol : List Byte := ascii "~20014600F000FD9D\r"
def frameManufactory : List Byte := ascii "~20014600401B555332303030430000000104507F854\r"
def frameNarrow : List Byte := ascii "~20014600B0320001030AF00CE40CE5020AAB0BB9FFE726AC88B802C3500064F290\r"
def frameWide : List Byte :=
  ascii "~20024600F03E0002030CE40CE60CDF020BA50B87002526B0FFFF04FFFF00FA0124F80186A0EFBC\r"
def frameAlarm : List Byte := ascii "~20024600C0220002030001000200020003F00000000000F718\r"
def frameCharging : List Byte := ascii "~20014600B01401FFFF00007FFF8000FFF906\r"
def frameSerial : List Byte := ascii "~20024600C0220241424331323300000000000000000000F718\r"
def frameSysparam : List Byte := ascii "~20014600B032000E740BEA0B540C9F0A9703FCD2F0B3B0ADD40CD10A47FC18F244\r"
def frameSerialOtherHeader : List Byte := encodeFrame (ascii "21FF00FF00220241424331323300000000000000000000")

theorem witness_ProtocolAnswer :
    Answered (.wire .protocol) (received .protocol frameProtocol) (parts frameProtocol).1 (parts frameProtocol).2.1
      (parts frameProtocol).2.2 := answered_of (by decide +kernel)

theorem witness_ManufactoryAnswer :
    let p := (parts frameManufactory).2.2
    Answered (.wire .manufactory) (received .manufactory frameManufactory) (parts frameManufactory).1
        (parts frameManufactory).2.1 p
      ∧ (received .manufactory frameManufactory).cfg.layouts.manufactory = layoutManufactory
      ∧ (ascii "US2000C" ++ [0, 0, 0]).length = 10 ∧ (ascii "P").length = (p.length - 24) / 2
      ∧ textIs p 0 (ascii "US2000C" ++ [0, 0, 0]) ∧ tokenIs p 20 2 1 ∧ tokenIs p 22 2 4 ∧ textIs p 24 (ascii "P") := by
  refine ⟨answered_of (by decide +kernel), rfl, ?_⟩
  unfold textIs tokensAre tokenIs
  decide +kernel

/-- The narrow clause: the flag is 2. -/
theorem witness_AnalogAnswer_narrow :
    let p := (parts frameNarrow).2.2
    Answered (.wire .analog) (received .analog frameNarrow) (parts frameNarrow).1 (parts frameNarrow).2.1 p
      ∧ (received .analog frameNarrow).cfg.layouts.analog = layoutAnalog
      ∧ (received .analog frameNarrow).cfg.signedFields = signedDefault
      ∧ tokenIs p 0 2 0 ∧ tokenIs p 2 2 1 ∧ tokenIs p 4 2 [2800, 3300, 3301].length ∧ tokensAre p 6 4 [2800, 3300, 3301]
      ∧ tokenIs p 18 2 [2731, 3001].length ∧ tokensAre p 20 4 [2731, 3001] ∧ tokenIs p 28 4 0xFFE7 ∧ tokenIs p 32 4 9900
      ∧ tokenIs p 36 4 35000 ∧ tokenIs p 40 2 2 ∧ tokenIs p 42 4 50000 ∧ tokenIs p 46 4 100 := by
  refine ⟨answered_of (by decide +kernel), rfl, rfl, ?_⟩
  unfold tokensAre tokenIs
  decide +kernel

/-- The wide clause: the flag is 4. -/
theorem witness_AnalogAnswer_wide :
    let p := (parts frameWide).2.2
    Answered (.wire .analog) (received .analog frameWide) (parts frameWide).1 (parts frameWide).2.1 p
      ∧ tokenIs p 0 2 0 ∧ tokenIs p 2 2 2 ∧ tokenIs p 4 2 [3300, 3302, 3295].length ∧ tokensAre p 6 4 [3300, 3302, 3295]
      ∧ tokenIs p 18 2 [2981, 2951].length ∧ tokensAre p 20 4 [2981, 2951] ∧ tokenIs p 28 4 37 ∧ tokenIs p 32 4 9904
      ∧ tokenIs p 36 4 65535 ∧ tokenIs p 40 2 4 ∧ tokenIs p 42 4 65535 ∧ tokenIs p 46 4 250
      ∧ tokenIs p 50 6 75000 ∧ tokenIs p 56 6 100000 := by
  refine ⟨answered_of (by decide +kernel), ?_⟩
  unfold tokensAre tokenIs
  decide +kernel

theorem witness_AlarmAnswer :
    let p := (parts frameAlarm).2.2
    Answered (.wire .alarm) (received .alarm frameAlarm) (parts frameAlarm).1 (parts frameAlarm).2.1 p
      ∧ (received .alarm frameAlarm).cfg.layouts.alarm = layoutAlarm
      ∧ tokenIs p 0 2 0 ∧ tokenIs p 2 2 2 ∧ tokenIs p 4 2 [0, 1, 0].length ∧ tokensAre p 6 2 [0, 1, 0]
      ∧ tokenIs p 12 2 [0, 2].length ∧ tokensAre p 14 2 [0, 2] ∧ tokenIs p 18 2 0 ∧ tokenIs p 20 2 3 ∧ tokenIs p 22 2 0xF0
      ∧ ([0, 0, 0, 0, 0] : List Byte).length = (p.length - (18 + 6)) / 2 ∧ textIs p 24 [0, 0, 0, 0, 0] := by
  refine ⟨answered_of (by decide +kernel), rfl, ?_⟩
  unfold textIs tokensAre tokenIs
  decide +kernel

theorem witness_ChargingDischargeAnswer :
    let p := (parts frameCharging).2.2
    Answered (.wire .chargingDischarge) (received .chargingDischarge frameCharging) (parts frameCharging).1
        (parts frameCharging).2.1 p
      ∧ (received .chargingDischarge frameCharging).cfg.layouts.chargingDischarge = layoutChargingDischarge
      ∧ (received .chargingDischarge frameCharging).cfg.signedFields = signedDefault
      ∧ p.length = 20 ∧ tokenIs p 0 2 1 ∧ tokenIs p 2 4 65535 ∧ tokenIs p 6 4 0 ∧ tokenIs p 10 4 0x7FFF
      ∧ tokenIs p 14 4 0x8000 ∧ tokenIs p 18 2 255 := by
  refine ⟨answered_of (by decide +kernel), rfl, rfl, ?_⟩
  unfold tokenIs
  decide +kernel

theorem witness_SystemparameterAnswer :
    let p := (parts frameSysparam).2.2
    let x := [3700, 3050, 2900, 3231, 2711, 1020, 54000, 46000, 44500, 3281, 2631, 0xFC18]
    Answered (.wire .systemparameter) (received .systemparameter frameSysparam) (parts frameSysparam).1
        (parts frameSysparam).2.1 p
      ∧ (received .systemparameter frameSysparam).cfg.layouts.systemparameter = layoutSystemparameter
      ∧ (received .systemparameter frameSysparam).cfg.signedFields = signedDefault
      ∧ p.length = 50 ∧ x.length = 12 ∧ tokenIs p 0 2 0 ∧ tokensAre p 2 4 x := by
  refine ⟨answered_of (by decide +kernel), rfl, rfl, ?_⟩
  unfold tokensAre tokenIs
  decide +kernel

theorem witness_SerialnumberAnswer :
    let p := (parts frameSerial).2.2
    Answered (.wire .serialnumber) (received .serialnumber frameSerial) (parts frameSerial).1 (parts frameSerial).2.1 p
      ∧ (received .serialnumber frameSerial).cfg.layouts.serialnumber = layoutSerialnumber
      ∧ p.length = 34 ∧ (ascii "ABC123" ++ List.replicate 10 0).length = 16 ∧ tokenIs p 0 2 2
      ∧ textIs p 2 (ascii "ABC123" ++ List.replicate 10 0) := by
  refine ⟨answered_of (by decide +kernel), rfl, ?_⟩
  unfold textIs tokensAre tokenIs
  decide +kernel

/-- V4.33's frame taken for each of the three fixed lengths that it has not, and V4.19's length for charging/discharge. -/
theorem witness_FixedLengthIsExact :
    let p := (parts frameSerial).2.2
    (WireCmd.systemparameter, 50) ∈ [(WireCmd.systemparameter, 50), (WireCmd.chargingDischarge, 20), (WireCmd.serialnumber, 34)]
      ∧ Answered (.wire .systemparameter) (received .systemparameter frameSerial) (parts frameSerial).1
        (parts frameSerial).2.1 p
      ∧ Answered (.wire .chargingDischarge) (received .chargingDischarge frameSerial) (parts frameSerial).1
        (parts frameSerial).2.1 p
      ∧ (Instr.systemparameter none).cmd = .wire .systemparameter
      ∧ (received .systemparameter frameSerial).regs.probeMode = false
      ∧ (received .systemparameter frameSerial).cfg.retryMax = none ∧ p.length ≠ 50 ∧ p.length ≠ 20 :=
  ⟨by decide, answered_of (by decide +kernel), answered_of (by decide +kernel), rfl, rfl, rfl, by decide +kernel,
    by decide +kernel⟩

theorem witness_FixedLengthIsExact_serialnumber :
    Answered (.wire .serialnumber) (received .serialnumber frameProtocol) (parts frameProtocol).1
        (parts frameProtocol).2.1 (parts frameProtocol).2.2 ∧ (parts frameProtocol).2.2.length ≠ 34 :=
  ⟨answered_of (by decide +kernel), by decide +kernel⟩

/-- A single command, a probe of discovery and a query of a round, each with its answer under another header. -/
theorem witness_AnswerIsNotTiedToItsRequest :
    let a := received .serialnumber frameSerial
    let b := { State.reset with seq := { State.reset.seq with orch := .decoding }, rx := a.rx }
    let c := { a with regs := { a.regs with cmd := .status }, seq := { a.seq with seqQ := .alarm },
                      rx := { a.rx with frame := frameAlarm, frameLen := frameAlarm.length } }
    let body := bodyIn frameSerialOtherHeader
    let g := encodeFrame (ascii "21FF00FF0022" ++ (parts frameAlarm).2.2)
    (a.seq.orch = .decoding ∧ queryInProgress a ≠ .protocol ∧ a.flags.ready = true ∧ (Instr.serialnumber none).cmd = a.regs.cmd
        ∧ (decodeFrame frameSerialOtherHeader a.chk).2 = .ok body
        ∧ (decodeHeader body a.hdr).2 = .ok (parts frameSerial).2.2
        ∧ decodeFrame a.frame a.chk = ((parts frameSerial).1, .ok (bodyIn frameSerial))
        ∧ decodeHeader (bodyIn frameSerial) a.hdr = ((parts frameSerial).2.1, .ok (parts frameSerial).2.2))
      ∧ (b.seq.orch = .decoding ∧ b.flags.ready = false ∧ queryInProgress b = .serialnumber ∧ b.env.inReset = false
        ∧ b.env.inputs = [] ∧ b.chk = a.chk ∧ b.hdr = a.hdr ∧ b.frame = a.frame)
      ∧ c.seq.orch = .decoding ∧ queryInProgress c = .alarm ∧ c.flags.ready = true ∧ (Instr.status none).cmd = c.regs.cmd
        ∧ (decodeFrame c.frame c.chk).2 = .ok (bodyIn frameAlarm)
        ∧ (decodeHeader (bodyIn frameAlarm) c.hdr).2 = .ok (parts frameAlarm).2.2
        ∧ (decodeHeader (bodyIn g) c.hdr).2 = .ok (parts frameAlarm).2.2 := by decide +kernel

/-! ### Errors, retry and cancellation -/

theorem witness_RecoverableErrorEntersRetrying_decoding :
    let s := received .analog (ascii "~200146000001FDB3\r")
    s.flags.ready = true ∧ (Instr.analog none).cmd = s.regs.cmd ∧ s.regs.probeMode = false ∧ s.cfg.retryMax = none
      ∧ s.seq.orch = .decoding ∧ (decodeIntoRecord (queryInProgress s) s).2 = .error (.checksum 0xFDB2 (some 0xFDB3)) := by
  decide +kernel

/-- Tokens that all read. -/
theorem tokens_read {p : List Byte} {pre : List (Nat × Nat)}
    (h : ∀ t ∈ pre, t.1 + t.2 ≤ p.length ∧ (unhex ((p.drop t.1).take t.2)).isSome = true) :
    ∀ t ∈ pre, ∃ v, tokenIs p t.1 t.2 v :=
  fun t ht => (Option.isSome_iff_exists.mp (h t ht).2).elim fun v hv => ⟨v, (h t ht).1, hv⟩

/-- A frame the codec refuses and one whose header is not hex. -/
theorem witness_DecodeFails :
    let f := ascii "~200146000001FDB3\r"
    let g := encodeFrame (ascii "2G0146000000")
    DecodeFails .analog (received .analog f) (decodeFrame f State.reset.chk).1 State.reset.hdr
        (.checksum 0xFDB2 (some 0xFDB3))
      ∧ DecodeFails .analog (received .analog g) (decodeFrame g State.reset.chk).1 State.reset.hdr (.header .notHex) :=
  ⟨.inl ⟨by decide +kernel, rfl⟩, .inr (.inl ⟨ascii "2G0146000000", .notHex, by decide +kernel, by decide +kernel, rfl⟩)⟩

/-- A wrong length. -/
theorem witness_PayloadFails_length :
    PayloadFails Config.default .systemparameter (parts frameSerial).2.2 0 .wrongLength :=
  .inl ⟨50, rfl, by decide +kernel, rfl, rfl⟩

/-- R205's payload cut to 50 characters: the first wide capacity passes the end. -/
theorem witness_PayloadFails_overrun :
    PayloadFails Config.default .analog (ascii "0002030CE40CE60CDF020BA50B87002526B0FFFF04FFFF00FA") 50 .overrun := by
  refine .inr ⟨rfl, nofun, 3, 2, 6, true, (payloadTokens .analog 3 2 true 50).take 15, [(56, 6)], by decide,
    tokens_read (by decide +kernel), fun _ => ?_, nofun, .inl ⟨rfl, by decide⟩⟩
  unfold tokenIs
  decide +kernel

/-- A `G` in the second cell alarm, the count in front of it read. -/
theorem witness_PayloadFails_notHex :
    PayloadFails Config.default .alarm (ascii "00010300G000") 8 .notHex := by
  refine .inr ⟨rfl, nofun, 3, 0, 2, false, [(0, 2), (2, 2), (4, 2), (6, 2)],
    (payloadTokens .alarm 3 0 false 12).drop 5, by decide, tokens_read (by decide +kernel), nofun, fun _ => ?_,
    .inr ⟨rfl, by decide, by decide +kernel⟩⟩
  unfold tokenIs
  decide +kernel

/-- The same count, larger than the payload can hold. -/
theorem witness_PayloadFails_count :
    PayloadFails Config.default .alarm (ascii "00010300") 8 .overrun := by
  refine .inr ⟨rfl, nofun, 3, 0, 2, false, [(0, 2), (2, 2), (4, 2), (6, 2)],
    (payloadTokens .alarm 3 0 false 8).drop 5, by decide, tokens_read (by decide +kernel), nofun, fun _ => ?_,
    .inl ⟨rfl, by decide⟩⟩
  unfold tokenIs
  decide +kernel

theorem witness_RecoverableErrorEntersRetrying_awaiting :
    let s := awaitingAt .hunt 20 []
    s.seq.orch = .awaiting
      ∧ (receiveStep (deadlineOf s.cfg (queryInProgress s)) s).1 = .noFrame := by decide

/-- Discovery, probing module 2 of at most `limit`, in state `o`. -/
def discovering (o : OrchState) (limit : Nat) (rx : Rx) : State :=
  { State.reset with
    cfg := { Config.default with discoveryLimit := limit }
    seq := { State.reset.seq with orch := o, discI := 2 }
    regs := { State.reset.regs with curIdx := 2 }
    rx := rx }

theorem witness_FailedProbeEndsDiscovery :
    let s := discovering .awaiting 8 { State.reset.rx with state := .hunt }
    let t := discovering .decoding 8 { State.reset.rx with frame := [0x7E, 0x0D], frameLen := 2 }
    (s.env.inReset = false ∧ s.env.inputs = [] ∧ s.flags.ready = false ∧ s.regs.probeMode = true
        ∧ s.seq.orch = .awaiting ∧ (receiveStep s.cfg.deadlineFast s).1 = .noFrame)
      ∧ t.env.inReset = false ∧ t.env.inputs = [] ∧ t.flags.ready = false ∧ t.regs.probeMode = true
        ∧ t.seq.orch = .decoding ∧ (decodeIntoRecord .serialnumber t).2 = .error (.framing .tooShort)
        ∧ decodeFrame t.frame t.chk = (t.chk, .error (.framing .tooShort)) := by decide +kernel

/-- The start with no module allowed, with some, and stopped; an answer when another module may follow, with a stop then, and
when the limit is reached. -/
theorem witness_DiscoveryCountsAnswers :
    let r := fun limit => discovering .discovering limit State.reset.rx
    let s := fun limit => discovering .decoding limit { State.reset.rx with frame := frameSerial, frameLen := frameSerial.length }
    ((r 0).env.inReset = false ∧ (r 0).env.inputs = [] ∧ (r 0).seq.orch = .discovering ∧ (r 0).cfg.discoveryLimit = 0)
      ∧ (0 < (r 1).cfg.discoveryLimit ∧ (r 1).env.stop = false ∧ (stopped (r 1)).env.stop = true)
      ∧ ((s 4).env.inReset = false ∧ (s 4).env.inputs = [] ∧ (s 4).flags.ready = false ∧ (s 4).seq.orch = .decoding
        ∧ (s 4).env.stop = false ∧ (stopped (s 4)).env.stop = true)
      ∧ (decodeIntoRecord .serialnumber (s 4)).2 = .ok (decodeIntoRecord .serialnumber (s 4)).1.out.record
      ∧ (s 4).seq.discI + 1 < (s 4).cfg.discoveryLimit ∧ (s 3).cfg.discoveryLimit ≤ (s 3).seq.discI + 1 := by
  decide +kernel

theorem witness_RetryReturnRestoresNothing :
    let s := retryAt .leave
    s.flags.ready = true ∧ (Instr.analog none).cmd = s.regs.cmd ∧ s.seq.orch = .retrying ∧ s.seq.retryPhase = .leave
      ∧ s.env.stop = false := by decide

/-- One state for each clause; PROBE_CNT just below PROBE_MAX and at it. -/
theorem witness_RecoveryProbeIsBounded :
    let s := retryAt .test
    let t := { s with seq := { s.seq with probeCnt := 2 } }
    (s.flags.ready = true ∧ (Instr.analog none).cmd = s.regs.cmd ∧ s.seq.orch = .retrying)
      ∧ ((retryAt .entry).seq.retryPhase = .entry ∧ (retryAt .entry).env.stop = false)
      ∧ ({ s with seq := { s.seq with probeCnt := 1 } }.seq.probeCnt < s.cfg.probeMax ∧ s.seq.retryPhase = .test)
      ∧ (t.seq.retryPhase = .test ∧ t.cfg.probeMax ≤ t.seq.probeCnt)
      ∧ ((retryAt .probeFailed).seq.retryPhase = .probeFailed ∧ (retryAt .probeFailed).env.stop = false)
      ∧ (retryAt .probeSend).seq.retryPhase = .probeSend ∧ (retryAt .probeSend).tx.de = false
      ∧ (retryAt .probeSend).env.inReset = false ∧ (retryAt .probeSend).env.inputs = []
      ∧ (retryAt .probeSend).seq.orch = .retrying ∧ (retryAt .probeSend).flags.ready = true := by decide

/-- The probe's receive with the deadline met exactly, with nothing received yet and with a frame complete; an answer that
decodes, one that does not. -/
theorem witness_ProbeErrorsDoNotNest :
    let s := fun f : List Byte => { retryAt .probeDecode with rx := { State.reset.rx with frame := f, frameLen := f.length } }
    let t := fun (x : RxState) (q : List Byte) => { retryAt .probeReceive with rx := { State.reset.rx with state := x, fifo := q } }
    let u := { t .hunt [] with rx := { (t .hunt []).rx with deadlineAt := 1 } }
    ((retryAt .probeReceive).flags.ready = true ∧ (Instr.analog none).cmd = (retryAt .probeReceive).regs.cmd
        ∧ (retryAt .probeReceive).seq.orch = .retrying)
      ∧ ((t .hunt []).seq.retryPhase = .probeReceive ∧ (t .hunt []).rx.state = .hunt
        ∧ (t .hunt []).rx.deadlineAt ≤ (t .hunt []).env.now
        ∧ (receiveStep (t .hunt []).cfg.deadlineFast (t .hunt [])).1 = .noFrame)
      ∧ (receiveStep u.cfg.deadlineFast u).1 = .waiting
      ∧ (receiveStep (t .collect [0x0D]).cfg.deadlineFast (t .collect [0x0D])).1 = .frame
      ∧ ((retryAt .probeFailed).seq.retryPhase = .probeFailed ∧ (retryAt .probeFailed).env.stop = false)
      ∧ (s frameProtocol).seq.retryPhase = .probeDecode
      ∧ (decodeAnswer .protocol (s frameProtocol)).2.toBool = true
      ∧ (decodeAnswer .protocol (s [0x7E, 0x0D])).2 = .error (.framing .tooShort)
      ∧ decodeFrame (s [0x7E, 0x0D]).frame State.reset.chk = (State.reset.chk, .error (.framing .tooShort))
      ∧ decodeFrame (s frameProtocol).frame State.reset.chk = ((parts frameProtocol).1, .ok (bodyIn frameProtocol))
      ∧ decodeHeader (bodyIn frameProtocol) State.reset.hdr
        = ((parts frameProtocol).2.1, .ok (parts frameProtocol).2.2) := by decide +kernel

theorem witness_StopInRetryingCancels :
    (stopped (retryAt .entry)).flags.ready = true ∧ (Instr.analog none).cmd = (stopped (retryAt .entry)).regs.cmd
      ∧ (stopped (retryAt .entry)).seq.orch = .retrying ∧ (stopped (retryAt .entry)).env.stop = true
      ∧ (stopped (retryAt .entry)).seq.retryPhase = .entry ∧ (stopped (retryAt .probeFailed)).seq.retryPhase = .probeFailed
      ∧ (stopped (retryAt .leave)).seq.retryPhase = .leave := by decide

/-! ### The round -/

/-- A round at query `q` of module `m` of 2 whose answer has been collected. -/
def roundAt (m : Nat) (q : RoundQuery) (f : List Byte) : State :=
  { within .status .decoding with
    seq := { (within .status .decoding).seq with seqM := m, seqQ := q }
    rx := { State.reset.rx with frame := f, frameLen := f.length } }

/-- Each clause: the three steps within module 0, and from module 0 to module 1, each with the STOP port down and up. -/
theorem witness_RoundFollowsTheFixedOrder :
    let ok := fun s : State => (decodeIntoRecord s.seq.seqQ.toWire s).2.toBool
    let s := roundAt 0 .systemparameter frameSysparam
    (s.flags.ready = true ∧ s.regs.cmd = .status ∧ s.seq.orch = .decoding ∧ s.env.stop = false
        ∧ s.seq.seqM + 1 < s.regs.moduleCount)
      ∧ (ok s = true ∧ ok (roundAt 0 .analog frameNarrow) = true ∧ ok (roundAt 0 .chargingDischarge frameCharging) = true
        ∧ ok (roundAt 0 .alarm frameAlarm) = true)
      ∧ (stopped s).env.stop = true ∧ ok (stopped s) = true ∧ ok (stopped (roundAt 0 .analog frameNarrow)) = true := by
  decide +kernel

/-- The numbers of V4.9 with V4.21, and of V4.10 with V4.22. -/
def readingA : ModuleReading :=
  { moduleCapacity := 50000, remainingCapacity := 35000, current := -25, moduleVoltage := 9900
    cellVoltages := [2800, 3300, 3301], temperatures := [0, 270]
    cellAlarms := [.ok, .ok, .ok], temperatureAlarms := [.ok, .ok]
    chargeCurrentAlarm := .ok, dischargeCurrentAlarm := .ok, moduleVoltageAlarm := .ok }

def readingB : ModuleReading :=
  { moduleCapacity := 100000, remainingCapacity := 75000, current := 37, moduleVoltage := 9904
    cellVoltages := [3300, 3302, 3295], temperatures := [250, 220]
    cellAlarms := [.ok, .belowLimit, .ok], temperatureAlarms := [.ok, .aboveLimit]
    chargeCurrentAlarm := .ok, dischargeCurrentAlarm := .otherError, moduleVoltageAlarm := .otherError }

theorem readingA_is : ReadingIs moduleA readingA := by
  constructor <;> decide +kernel

theorem readingB_is : ReadingIs { moduleB with systemParameter := recordOf .systemparameter frameSysparam } readingB := by
  constructor <;> decide +kernel

/-- The last query of module 1, module 0 being moduleA and module 1 moduleB. -/
theorem witness_StatusRoundCompletes :
    let s := { roundAt 1 .systemparameter frameSysparam with
      out := { State.reset.out with snap := [moduleA], snapM := moduleB } }
    let l := [readingA, readingB]
    let mods := s.out.snap ++ [{ s.out.snapM with systemParameter := recordOf .systemparameter frameSysparam }]
    (s.flags.ready = true ∧ s.regs.cmd = .status ∧ s.seq.orch = .decoding ∧ s.seq.seqQ = .systemparameter
        ∧ s.regs.moduleCount ≤ s.seq.seqM + 1)
      ∧ (decodeIntoRecord .systemparameter s).2.toBool = true ∧ l.length = mods.length
      ∧ ∀ (j : Nat) (h : j < mods.length) (h' : j < l.length), ReadingIs mods[j] l[j] :=
  ⟨by decide, by decide +kernel, rfl, fun j h _ =>
    match j with
    | 0 => readingA_is
    | 1 => readingB_is
    | n + 2 => absurd h (by simp)⟩

/-- Both percentages: a total that is 0 and one that is not. -/
theorem witness_FoldSumsOverTheModules :
    (([] : List ModuleReading).map ModuleReading.moduleCapacity).sum = 0
      ∧ ((readModules [moduleA]).map (fun l => (l.map ModuleReading.moduleCapacity).sum)) = some 50000 := by decide +kernel

/-! ### The whole machine -/

/-- RESET asserted over a running send; held; released, with legal parameters and with others; asserted and released. -/
theorem witness_ResetAbandonsEverything :
    let s := setInputs [.resetAssert] (within .status .sending)
    let t := assertReset (within .status .sending)
    let bad := { Config.default with probeMax := 0 }
    let u := fun c => setInputs [.resetRelease c] t
    let v := setInputs [.resetAssert, .resetRelease Config.default] (within .status .sending)
    s.env.inputs = .resetAssert :: [] ∧ (t.env.inReset = true ∧ t.env.inputs = [])
      ∧ ((u Config.default).env.inReset = true
        ∧ (u Config.default).env.inputs = .resetRelease Config.default :: [] ∧ Config.default.legal = true)
      ∧ ((u bad).env.inReset = true ∧ (u bad).env.inputs = .resetRelease bad :: [] ∧ bad.legal = false)
      ∧ v.env.inputs = [.resetAssert, .resetRelease Config.default] ∧ 0 < Config.default.discoveryLimit
        ∧ v.env.stop = false := by
  decide

theorem witness_StepKeepsTheInvariant : Inv State.reset ∧ ∃ t, step State.reset = .next t :=
  ⟨inv_reset, _, rfl⟩

/-- Reset, and a reset that is released with parameters the spec refuses. -/
theorem witness_StepNeverStops :
    Inv State.reset
      ∧ (setInputs [.resetRelease { Config.default with probeMax := 0 }] (assertReset State.reset)).env.inputs
        = .resetRelease { Config.default with probeMax := 0 } :: []
      ∧ { Config.default with probeMax := 0 }.legal = false
      ∧ step (setInputs [.resetRelease { Config.default with probeMax := 0 }] (assertReset State.reset))
        = .refused .illegalConfiguration := ⟨inv_reset, rfl, by decide, rfl⟩

theorem witness_TransitionsAreThoseOfTheTable : noResetNext State.reset ∧ ∃ t, step State.reset = .next t :=
  ⟨(fun _ h => by cases h), _, rfl⟩

theorem witness_ModuleCountIsImmutable :
    Inv (idle 2) ∧ (idle 2).flags.ready = true ∧ noResetNext (idle 2) ∧ ∃ t, step (idle 2) = .next t :=
  ⟨inv_idle, rfl, (fun _ h => by cases h), _, rfl⟩

theorem witness_RecoverableErrorsNeverReachTheHost :
    let s := awaitingAt .hunt 20 []
    ∃ t, step s = .next t ∧ t.flags.lastErr = some .transportTimeout ∧ s.flags.lastErr ≠ some .transportTimeout :=
  ⟨_, rfl, by decide, by decide⟩

theorem witness_UnspecifiedRegistersDecideNothing :
    let t := { State.reset with
      hdr := { State.reset.hdr with ver := 0x55 }
      rx := { State.reset.rx with deadlineAt := 7 }
      out := { State.reset.out with result := .record [] } }
    forgetUnspecified State.reset = forgetUnspecified t ∧ State.reset ≠ t ∧ ∃ s', step State.reset = .next s' :=
  ⟨by decide, by decide, _, rfl⟩

theorem witness_EncoderEmitsHexOnly :
    Config.default.legal = true ∧ encodeFrame (queryBody Config.default .analog 0) = ascii "~20014642E00201FD35\r" := by
  decide +kernel

/-- Legal parameters; and for each way a parameter falls outside the formula, the first value that does. -/
theorem witness_LegalAddressesDoNotAlias :
    let c := { Config.default with addrTable := [(200, 200, 0)], discoveryLimit := 16 }
    Config.default.legal = true ∧ (0 < max 1 Config.default.discoveryLimit ∧ 7 < max 1 Config.default.discoveryLimit)
      ∧ (Config.default.addrTable = [] ∧ 15 < { Config.default with discoveryLimit := 16 }.discoveryLimit
        ∧ 15 < { Config.default with group := 16 }.group)
      ∧ (15 < max 1 c.discoveryLimit ∧ 14 < 15 ∧ ∀ e ∈ c.addrTable, (e.1, e.2.1) ≠ (15, c.group)) := by decide

end Sys2Proof.Tests
end

