-- ==== Sys2Proof/Proofs/TokenReads.lean ====
section
/-!
PROOF. Reads of hex tokens (spec/00_scope.md R8, spec/20_memory.md R65, spec/43_response_decoder.md R193): the value of
UNHEX as a sum over powers of 16, what each byte reads as, which characters a written number has, and what `take` answers.
-/

namespace Sys2Proof.Proofs

open Sys2Proof.Machine

/-! ## The digits of a number over powers of 16 -/

/-- The first `k` of the digits `ds` as one number, the first digit the most significant (R8); the form in which
`Obligations.TokenReadsAreBounded` says a value. -/
def digitsValue (k : Nat) (ds : List Nat) : Nat :=
  ((List.range k).map (fun j => ds.getD j 0 * 16 ^ (k - 1 - j))).sum

theorem digitsValue_cons (k d : Nat) (ds : List Nat) :
    digitsValue (k + 1) (d :: ds) = d * 16 ^ k + digitsValue k ds := by
  simp [digitsValue, List.range_succ_eq_map, Function.comp_def, Nat.sub_sub, Nat.add_comm 1]

/-- UNHEX's accumulator stands above the digits still to be read. -/
theorem unhexFrom_eq_digitsValue {s : List Byte} {ds : List Nat} (acc : Nat) (h : s.map digitVal = ds.map some) :
    unhexFrom acc s = some (acc * 16 ^ s.length + digitsValue s.length ds) := by
  induction s generalizing acc ds with
  | nil => simp [unhexFrom, digitsValue]
  | cons c cs ih =>
    cases ds with
    | nil => simp at h
    | cons d ds =>
      obtain ⟨hc, hcs⟩ := List.cons.inj h
      simp only [unhexFrom, hc, ih _ hcs, List.length_cons, digitsValue_cons]
      congr 1
      ring

theorem unhex_eq_digitsValue {s : List Byte} {ds : List Nat} (h : s.map digitVal = ds.map some) :
    unhex s = some (digitsValue s.length ds) := by
  simpa [unhex] using unhexFrom_eq_digitsValue 0 h

/-! ## Single characters -/

/-- A decimal digit is written as itself, so it reads as its value. -/
theorem digitVal_decimal {n : Nat} (h : n < 10) : digitVal (BitVec.ofNat 8 (0x30 + n)) = some n := by
  simpa [hexDigit, h] using digitVal_hexDigit (n := n) (by omega)

theorem digitVal_letter {n : Nat} (h : n < 6) :
    digitVal (BitVec.ofNat 8 (0x41 + n)) = some (10 + n) ∧ digitVal (BitVec.ofNat 8 (0x61 + n)) = some (10 + n) := by
  have all : ∀ m : Fin 6, digitVal (BitVec.ofNat 8 (0x41 + m)) = some (10 + m.val)
      ∧ digitVal (BitVec.ofNat 8 (0x61 + m)) = some (10 + m.val) := by decide
  exact all ⟨n, h⟩

/-- INVALID is every byte outside the three ranges of digits. -/
theorem digitVal_eq_none_iff (b : Byte) :
    digitVal b = none ↔
      ¬ (0x30 ≤ b.toNat ∧ b.toNat ≤ 0x39) ∧ ¬ (0x41 ≤ b.toNat ∧ b.toNat ≤ 0x46)
        ∧ ¬ (0x61 ≤ b.toNat ∧ b.toNat ≤ 0x66) := by
  unfold digitVal
  split_ifs <;> simp [*]

theorem hexDigit_eq_hexChars {n : Nat} (h : n < 16) : hexDigit n = hexChars.getD n 0 := by
  have all : ∀ m : Fin 16, hexDigit m = hexChars.getD m 0 := by decide
  exact all ⟨n, h⟩

/-! ## Written numbers -/

theorem hex2_eq_hexChars {v : Nat} (h : v < 256) : hex2 v = [hexChars.getD (v / 16) 0, hexChars.getD (v % 16) 0] := by
  have high : v / 16 < 16 := by omega
  rw [hex2, Nat.mod_eq_of_lt high, hexDigit_eq_hexChars high, hexDigit_eq_hexChars (Nat.mod_lt _ (by decide))]

theorem hex4_eq_hex2_append {v : Nat} (h : v < 65536) : hex4 v = hex2 (v / 256) ++ hex2 (v % 256) := by
  rw [hex4, Nat.mod_eq_of_lt (by omega : v / 256 < 256)]

/-! ## take -/

theorem takeHex_overrun {p : List Byte} {k cur : Nat} (h : p.length < cur + k) :
    takeHex p k cur = .error (.overrun, cur) :=
  takeHex_fails (.inl ⟨rfl, h⟩)

theorem takeHex_notHex {p : List Byte} {k cur : Nat} (h : cur + k ≤ p.length)
    (hb : ∃ b ∈ (p.drop cur).take k, digitVal b = none) : takeHex p k cur = .error (.notHex, cur) :=
  takeHex_fails (.inr ⟨rfl, h, unhex_eq_none.mpr hb⟩)

theorem takeHex_digits {p : List Byte} {k cur : Nat} {ds : List Nat} (h : cur + k ≤ p.length)
    (hd : ((p.drop cur).take k).map digitVal = ds.map some) :
    takeHex p k cur = .ok (digitsValue k ds, cur + k) := by
  have width : ((p.drop cur).take k).length = k := by simp; omega
  exact takeHex_ok h (by rw [unhex_eq_digitsValue hd, width])

/-- Settles O26: a read's three outcomes are those of `take`, its value is UNHEX's sum over powers of 16, and what a
character reads as or is written as is said character by character. -/
theorem tokenReadsAreBounded : Obligations.TokenReadsAreBounded :=
  ⟨fun _ _ _ => ⟨takeHex_overrun, takeHex_notHex, fun h _ => takeHex_digits h⟩,
    fun _ => unhex_eq_none.mpr,
    fun _ _ => unhex_eq_digitsValue,
    fun _ => digitVal_decimal,
    fun _ => digitVal_letter,
    digitVal_eq_none_iff,
    fun _ => hex2_eq_hexChars,
    fun _ => hex4_eq_hex2_append⟩

end Sys2Proof.Proofs
end

