-- ==== Sys2Proof/Proofs/StateInvariant.lean ====
section
/-!
PROOF. The reset values of the registers (spec/10_state.md R36) and the invariant `Inv`: registers at their reset values have
it, and every step keeps it, whatever the inputs (R11, spec/44_orchestrator.md R251, spec/70_reset_and_hazards.md R320).
-/

namespace Sys2Proof.Proofs

open Sys2Proof.Machine

/-! ## Reset -/

/-- Settles O50: each register of the reset state has the value R36 states. -/
theorem resetValuesAreThoseOfTheSpec : Obligations.ResetValuesAreThoseOfTheSpec := by
  unfold Obligations.ResetValuesAreThoseOfTheSpec
  decide

/-- Registers at their reset values have the invariant, whatever stands outside the engine and with any parameters the spec
allows (R320). -/
theorem inv_of_reset_registers (e : Env) {c : Config} (hc : c.legal = true) :
    Inv { State.reset with env := e, cfg := c } where
  memory := assertReset_wf { State.reset with cfg := c }
  legal := hc
  busy := iff_of_true rfl ⟨nofun, nofun⟩
  done := iff_of_false nofun nofun
  driver := nofun
  receiver := iff_of_false (fun h => h rfl) (by rintro (h | ⟨h, -⟩) <;> cases h)
  ready := fun _ => ⟨rfl, nofun, nofun, nofun⟩
  discovered := nofun
  probe := nofun
  caller := nofun
  count := ⟨Nat.zero_le _, Nat.zero_le _⟩
  probeCnt := Nat.zero_le _
  cleared := nofun
  collected := nofun
  candidate := by rintro (h | ⟨h, -⟩) <;> cases h
  readable := rfl
  held := fun _ => rfl

/-- Settles O52: the reset state is its own registers with the default parameters, which the spec allows. -/
theorem resetSatisfiesTheInvariant : Obligations.ResetSatisfiesTheInvariant :=
  inv_of_reset_registers State.reset.env (c := Config.default) (by decide)

/-! ## Moves of the line, the clock and the ports -/

theorem inv_receiveByte (b : Byte) {s : State} (hi : Inv s) : Inv (receiveByte b s) := by
  have hw := receiveByte_wf b hi.memory
  rcases receiveByte_cases b s with ⟨_, e⟩ | ⟨_, hn, q, n, e, _⟩ <;> rw [e] at hw ⊢
  · exact hi
  · exact { hi with memory := hw, held := fun hr => absurd (hn.symm.trans hr) nofun }

/-- Asserting RESET puts every register at its reset value and leaves the parameters (R320). -/
theorem inv_assertReset {s : State} (hi : Inv s) : Inv (assertReset s) :=
  inv_of_reset_registers _ hi.legal

/-- The release of RESET keeps the invariant where it does not refuse the parameters (R33, U31). -/
theorem releaseReset_inv_or_refused (c : Config) {s : State} (hi : Inv s) :
    (∃ t, releaseReset c s = .next t ∧ Inv t)
      ∨ (c.legal = false ∧ releaseReset c s = .refused .illegalConfiguration) := by
  unfold releaseReset
  cases hn : s.env.inReset with
  | false => exact .inl ⟨s, rfl, hi⟩
  | true =>
    cases hc : c.legal with
    | false => exact .inr ⟨rfl, rfl⟩
    | true =>
      refine .inl ⟨_, rfl, ?_⟩
      rw [hi.held hn]
      exact inv_of_reset_registers _ hc

/-! ## Command accept (R241) -/

/-- An Idle engine is READY, out of RESET, and neither busy nor done. -/
theorem idle_facts {s : State} (hi : Inv s) (ho : s.seq.orch = .idle) :
    s.flags.ready = true ∧ s.env.inReset = false ∧ s.flags.busy = false ∧ s.flags.done = false := by
  refine ⟨?_, ?_, ?_, ?_⟩
  · exact Bool.of_not_eq_false fun h => (hi.ready h).2.1 ho
  · refine Bool.of_not_eq_true fun h => ?_
    rw [hi.held h] at ho
    cases ho
  · exact Bool.of_not_eq_true fun h => (hi.busy.mp h).1 ho
  · exact Bool.of_not_eq_true fun h => by rw [hi.done.mp h] at ho; cases ho

theorem quiet_idle {s : State} (hi : Inv s) (ho : s.seq.orch = .idle) : Quiet s :=
  quiet_of hi (idle_facts hi ho).2.1 (by simp [ho]) (by simp [ho])

theorem quiet_acceptCommand (c : Cmd) (idx : Option Int) {s : State} (b : Quiet s) : Quiet (acceptCommand c idx s) :=
  quiet_sample (quiet_congr b rfl rfl rfl id rfl b.count.2 b.pc rfl)

@[simp] theorem acceptCommand_flags (c : Cmd) (idx : Option Int) (s : State) :
    (acceptCommand c idx s).flags =
      { s.flags with resultKind := .nothing, stopSeen := s.env.stop, lastErr := none, busy := true } := by
  simp [acceptCommand]

@[simp] theorem acceptCommand_regs (c : Cmd) (idx : Option Int) (s : State) :
    (acceptCommand c idx s).regs = { s.regs with cmd := c, midx := clamp idx s.regs.moduleCount } := by
  simp [acceptCommand]

/-- The accept of a single command keeps the invariant, whether the stop cancels it or its transaction starts. -/
theorem inv_acceptSingle (w : WireCmd) (idx : Option Int) {s : State} (hi : Inv s) (ho : s.seq.orch = .idle) :
    Inv (acceptSingle w idx s) := by
  obtain ⟨hr, -, -, hd⟩ := idle_facts hi ho
  have b := quiet_acceptCommand (.wire w) idx (quiet_idle hi ho)
  unfold acceptSingle
  split
  · exact inv_finish b (by simp [hr]) _ _
  · exact inv_start_single b (by simp [hr]) (by simp) (by simp [hd]) (by simp)

/-- The accept of `status` answers and keeps the invariant: the stop cancels it, the round over no module ends at once, or
the first query of module 0 starts. -/
theorem inv_acceptStatus (idx : Option Int) {s : State} (hi : Inv s) (ho : s.seq.orch = .idle) :
    ∃ t, acceptStatus idx s = .next t ∧ Inv t := by
  obtain ⟨hr, -, -, hd⟩ := idle_facts hi ho
  have b := quiet_acceptCommand .status idx (quiet_idle hi ho)
  have b' : Quiet (setSnap ModuleSnapshot.empty [] (acceptCommand .status idx s)) :=
    quiet_congr b rfl rfl rfl id rfl b.count.2 b.pc rfl
  unfold acceptStatus
  split
  · exact ⟨_, rfl, inv_finish b (by simp [hr]) _ _⟩
  · dsimp only [startRound]
    split
    · exact inv_completeRound b' (by simp [hr]) rfl
    · rename_i hm
      exact ⟨_, rfl, inv_roundQuery 0 .analog b' (by simp [hr]) (by simp) (by simp [hd]) (by simp)
        (Nat.pos_of_ne_zero hm) rfl rfl rfl⟩

/-- An Idle engine accepts every command, and the accept keeps the invariant. -/
theorem inv_exec_idle (i : Instr) {s : State} (hi : Inv s) (ho : s.seq.orch = .idle) :
    ∃ t, exec i s = .next t ∧ Inv t := by
  have hr := (idle_facts hi ho).1
  rw [instr_eta i]
  cases i.cmd with
  | wire w => exact ⟨_, by simp only [exec_wire, runSingle, hr, ho, if_true], inv_acceptSingle w i.idx hi ho⟩
  | status =>
    have he : exec (Instr.ofCmd .status i.idx) s = acceptStatus i.idx s := by
      simp only [Instr.ofCmd, exec, execStatus, runStatus, hr, ho, if_true]
    rw [he]
    exact inv_acceptStatus i.idx hi ho

/-- An unknown name ends at once (R100). -/
theorem inv_misuse (name : List Byte) {s : State} (hi : Inv s) (ho : s.seq.orch = .idle) : Inv (misuse name s) := by
  have b := quiet_idle hi ho
  exact inv_finish (u := clearForCommand s) (quiet_congr b rfl rfl rfl id rfl b.count.2 b.pc rfl) (idle_facts hi ho).1 _ _

theorem inv_commandPulse (name : List Byte) (idx : Option Int) {s : State} (hi : Inv s) :
    ∃ t, commandPulse name idx s = .next t ∧ Inv t := by
  unfold commandPulse
  split
  · rename_i h
    cases decodeCommand name idx with
    | ok i => exact inv_exec_idle i hi h.2
    | error _ => exact ⟨_, rfl, inv_misuse name hi h.2⟩
  · exact ⟨s, rfl, hi⟩

/-! ## The engine's own step -/

theorem latched_cmd (s : State) : (latched s).cmd = s.regs.cmd := by
  unfold latched
  cases s.regs.cmd with
  | status => rfl
  | wire w => cases w <;> rfl

/-- While a transaction is in progress, a step of the engine is a step of it. -/
theorem engineStep_running {s : State} (hn : s.env.inReset = false) (ho : inTransaction s.seq.orch = true) :
    engineStep s = transactStep (running s).1 (running s).2 s := by
  have he : engineStep s =
      if s.flags.ready then exec (latched s) s else transactStep .serialnumber .discovery s := by
    simp only [engineStep, hn]
    revert ho
    cases s.seq.orch <;> simp [inTransaction]
  rw [he]
  cases hr : s.flags.ready with
  | true => exact exec_eq_running (latched_cmd s) hr ho
  | false => simp [running, hr]

/-- The transaction in progress belongs to a single command, to a round or to discovery; its step keeps the invariant for
each. -/
theorem inv_running {s : State} (hi : Inv s) (hn : s.env.inReset = false) (ho : inTransaction s.seq.orch = true) :
    ∃ t, transactStep (running s).1 (running s).2 s = .next t ∧ Inv t := by
  cases hr : s.flags.ready with
  | false =>
    rw [show running s = (.serialnumber, .discovery) by simp [running, hr]]
    exact inv_transact hi hn ho hr
  | true =>
    cases hc : s.regs.cmd with
    | wire w =>
      rw [show running s = (w, .single) by simp [running, inProgress, hr, hc]]
      exact inv_transact hi hn ho hr
    | status =>
      rw [show running s = (s.seq.seqQ.toWire, .round) by simp [running, inProgress, hr, hc]]
      exact inv_transact hi hn ho ⟨hr, hc, rfl⟩

/-- The start of discovery keeps the invariant (R262). -/
theorem inv_discoverStart {s : State} (hi : Inv s) (hn : s.env.inReset = false) (ho : s.seq.orch = .discovering) :
    Inv (discoverStart s) := by
  have hr : s.flags.ready = false := Bool.of_not_eq_true fun h => hi.discovered h ho
  have hb : s.flags.busy = true := hi.busy.mpr (by simp [ho])
  have hd : s.flags.done = false := Bool.of_not_eq_true fun h => by rw [hi.done.mp h] at ho; cases ho
  have b := quiet_of hi hn (by simp [ho]) (by simp [ho])
  exact inv_discoverLoop (quiet_congr b rfl rfl rfl id rfl (Nat.zero_le _) b.pc rfl) hr hb hd (hi.ready hr).1

/-- The way from Done to Idle keeps the invariant (R252). -/
theorem inv_leaveDone {s : State} (hi : Inv s) (hn : s.env.inReset = false) (ho : s.seq.orch = .done) :
    Inv (toIdle s) :=
  inv_toIdle (quiet_of hi hn (by simp [ho]) (by simp [ho]))
    (Bool.of_not_eq_false fun h => (hi.ready h).2.2.1 ho) (Bool.of_not_eq_true fun h => (hi.busy.mp h).2 ho)

/-- A step of the engine answers and keeps the invariant, wherever ORCH_STATE stands (R251). -/
theorem inv_engineStep {s : State} (hi : Inv s) : ∃ t, engineStep s = .next t ∧ Inv t := by
  cases hn : s.env.inReset with
  | true => exact ⟨s, by simp only [engineStep, hn, if_true], hi⟩
  | false =>
    cases ho : s.seq.orch with
    | discovering => exact ⟨_, by simp [engineStep, hn, ho], inv_discoverStart hi hn ho⟩
    | idle => exact ⟨s, by simp [engineStep, hn, ho], hi⟩
    | done => exact ⟨_, by simp [engineStep, hn, ho], inv_leaveDone hi hn ho⟩
    | sending | awaiting | decoding | retrying =>
      have ht : inTransaction s.seq.orch = true := by rw [ho]; rfl
      rw [engineStep_running hn ht]
      exact inv_running hi hn ht

/-! ## The step of the machine -/

/-- Every move answers a state with the invariant, or is the release of RESET with parameters that are refused. -/
theorem applyInput_inv_or_refused (i : Input) {s : State} (hi : Inv s) :
    (∃ t, applyInput i s = .next t ∧ Inv t)
      ∨ ∃ c, i = .resetRelease c ∧ c.legal = false ∧ applyInput i s = .refused .illegalConfiguration := by
  cases i with
  | engine => exact .inl (inv_engineStep hi)
  | time d => exact .inl ⟨_, rfl, inv_env hi _ rfl⟩
  | byte b => exact .inl ⟨_, rfl, inv_receiveByte b hi⟩
  | stop level => exact .inl ⟨_, rfl, inv_env hi _ rfl⟩
  | command name idx => exact .inl (inv_commandPulse name idx hi)
  | resetAssert => exact .inl ⟨_, rfl, inv_assertReset hi⟩
  | resetRelease c =>
    rcases releaseReset_inv_or_refused c hi with h | ⟨hc, h⟩
    · exact .inl h
    · exact .inr ⟨c, rfl, hc, h⟩

/-- Every step answers a state with the invariant, or is the release of RESET with parameters that are refused. -/
theorem step_inv_or_refused {s : State} (hi : Inv s) :
    (∃ t, step s = .next t ∧ Inv t)
      ∨ ∃ c rest, s.env.inputs = .resetRelease c :: rest ∧ c.legal = false
        ∧ step s = .refused .illegalConfiguration := by
  unfold step machineStep
  cases s.env.inputs with
  | nil => exact .inl (inv_engineStep hi)
  | cons i rest =>
    rcases applyInput_inv_or_refused i (inv_env hi { s.env with inputs := rest } rfl) with h | ⟨c, rfl, hc, h⟩
    · exact .inl h
    · exact .inr ⟨c, rest, rfl, hc, h⟩

/-- Settles O53: the only step from a state with the invariant that gives no state with it is one that is refused. -/
theorem stepKeepsTheInvariant : Obligations.StepKeepsTheInvariant := by
  intro s t hi ht
  rcases step_inv_or_refused hi with ⟨u, hu, hinv⟩ | ⟨_, _, _, _, hrefused⟩
  · obtain rfl : u = t := Host.Outcome.next.inj (hu.symm.trans ht)
    exact hinv
  · cases hrefused.symm.trans ht

end Sys2Proof.Proofs
end

