-- ==== Sys2Proof/Proofs/UnspecifiedRegisters.lean ====
section
/-!
PROOF. The registers that are unspecified after reset decide nothing (spec/10_state.md R36, spec/93_implementation_defined.md
U20): the moves outside a command read none of them, and so no step of the machine does.
-/

namespace Sys2Proof.Proofs

open Sys2Proof.Machine

/-! ## Moves outside a command -/

theorem blind_stopLevel (level : Bool) : Blind (fun s => { s with env := { s.env with stop := level } }) := by
  intro s
  cases hx : s.rx.state <;> cases hq : s.flags.resultKind <;> simp [hx, hq, forgetUnspecified]

/-- RESET overwrites every register, the unspecified ones too. -/
theorem blind_assertReset : Blind assertReset := fun _ => rfl

theorem blind_sampleParameters (c : Config) :
    Blind (fun s => { s with cfg := c, env := { s.env with inReset := false } }) := by
  intro s
  cases hx : s.rx.state <;> cases hq : s.flags.resultKind <;> simp [hx, hq, forgetUnspecified]

theorem outcomeBlind_releaseReset (c : Config) : OutcomeBlind (releaseReset c) := by
  intro s
  unfold releaseReset
  simp only [forget_env]
  refine outcome_if (fun _ => ?_) (fun _ => outcomeBlind_id s)
  exact outcome_if (fun _ => outcomeBlind_next (blind_sampleParameters c) s) (fun _ => rfl)

theorem blind_misuse (name : List Byte) : Blind (misuse name) :=
  blind_comp (f := clearForCommand) (g := finish .misuse (.misused name)) blind_clear (blind_finish _ _ (by decide))

theorem outcomeBlind_commandPulse (name : List Byte) (idx : Option Int) : OutcomeBlind (commandPulse name idx) := by
  intro s
  unfold commandPulse
  simp only [forget_flags, forget_seq]
  refine outcome_if (fun _ => ?_) (fun _ => outcomeBlind_id s)
  cases decodeCommand name idx with
  | ok i => exact outcomeBlind_exec i s
  | error _ => exact outcomeBlind_next (blind_misuse name) s

/-! ## The step -/

/-- The engine's own step, wherever ORCH_STATE stands (R251): a transaction is the latched command's or discovery's. -/
theorem outcomeBlind_engineStep : OutcomeBlind engineStep := by
  intro s
  have transaction : forgetOutcome (if s.flags.ready then exec (latched s) s else transactStep .serialnumber .discovery s)
      = forgetOutcome (if s.flags.ready then exec (latched s) (forgetUnspecified s)
          else transactStep .serialnumber .discovery (forgetUnspecified s)) :=
    outcome_if (fun _ => outcomeBlind_exec _ s) (fun _ => outcomeBlind_transact _ _ s)
  unfold engineStep
  simp only [forget_env, forget_seq, forget_flags]
  refine outcome_if (fun _ => outcomeBlind_id s) (fun _ => ?_)
  cases s.seq.orch with
  | discovering => exact outcomeBlind_next (blind_comp (blind_setDisc 0) blind_discoverLoop) s
  | idle => exact outcomeBlind_id s
  | done => exact outcomeBlind_next blind_toIdle s
  | sending | awaiting | decoding | retrying => exact transaction

theorem outcomeBlind_applyInput (i : Input) : OutcomeBlind (applyInput i) := by
  cases i with
  | engine => exact outcomeBlind_engineStep
  | time d => exact outcomeBlind_next (blind_advance d)
  | byte b => exact outcomeBlind_next (blind_byte b)
  | stop level => exact outcomeBlind_next (blind_stopLevel level)
  | command name idx => exact outcomeBlind_commandPulse name idx
  | resetAssert => exact outcomeBlind_next blind_assertReset
  | resetRelease c => exact outcomeBlind_releaseReset c

theorem outcomeBlind_step : OutcomeBlind step := by
  intro s
  unfold step machineStep
  simp only [forget_env]
  cases s.env.inputs with
  | nil => exact outcomeBlind_engineStep s
  | cons i rest => exact outcomeBlind_comp (blind_inputs rest) (outcomeBlind_applyInput i) s

/-- An outcome that equals a next state but for the unspecified registers is a next state. -/
theorem next_of_forgetOutcome_eq {s : State} {o : Outcome} (h : forgetOutcome (.next s) = forgetOutcome o) :
    ∃ t, o = .next t ∧ forgetUnspecified s = forgetUnspecified t := by
  cases o with
  | next t => exact ⟨t, rfl, Host.Outcome.next.inj h⟩
  | fault r => cases h
  | refused r => cases h

/-- Settles O58: both states step as the one state without the unspecified registers does. -/
theorem unspecifiedRegistersDecideNothing : Obligations.UnspecifiedRegistersDecideNothing := by
  intro s t s' hst hs
  have same : forgetOutcome (step s) = forgetOutcome (step t) := outcomeBlind_of outcomeBlind_step hst
  rw [hs] at same
  exact next_of_forgetOutcome_eq same

end Sys2Proof.Proofs
end

