-- ==== Sys2Proof/Proofs/RoundOrder.lean ====
section
/-!
PROOF. What follows a query of a status round that succeeds (spec/10_state.md R22, spec/44_orchestrator.md R247, R250, R253):
the next query of the module, the first of the next module, or the cancellation by a stop.
-/

namespace Sys2Proof.Proofs

open Sys2Proof.Machine

/-! ## The next query -/

theorem roundQuery_starts {s : State} (m : Nat) (q : RoundQuery) (h : s.env.stop = false) :
    roundQuery m q s = startTransaction q.toWire m false (setCursors m q s) := by
  simp [roundQuery, sampleStop, setCursors, h]

theorem roundQuery_cancelled {s : State} (m : Nat) (q : RoundQuery) (h : s.env.stop = true) :
    roundQuery m q s = roundCancelled m q s := by
  simp [roundQuery, cancelRound, roundCancelled, sampleStop, setCursors, setSnap, finish, h]

/-! ## A query that succeeded -/

theorem roundOk_nextQuery {s : State} {q : RoundQuery} (r : Record) (h : s.seq.seqQ.next? = some q) :
    roundOk r s = .next (roundQuery s.seq.seqM q (setSnap (s.out.snapM.put s.seq.seqQ r) s.out.snap s)) := by
  simp only [roundOk, h]

theorem roundOk_nextModule {s : State} (r : Record) (h : s.seq.seqQ = .systemparameter)
    (hm : s.seq.seqM + 1 < s.regs.moduleCount) :
    roundOk r s = .next (roundQuery (s.seq.seqM + 1) .analog
      (setSnap ModuleSnapshot.empty (s.out.snap ++ [{ s.out.snapM with systemParameter := r }]) s)) := by
  simp only [roundOk, h, RoundQuery.next?, ModuleSnapshot.put, hm, if_true]

/-- The three steps of the fixed order within a module (R22). -/
theorem next?_of_mem_order {q q' : RoundQuery} (h : (q, q') ∈ [(RoundQuery.analog, RoundQuery.chargingDischarge),
    (RoundQuery.chargingDischarge, RoundQuery.alarm), (RoundQuery.alarm, RoundQuery.systemparameter)]) :
    q.next? = some q' := by
  have all : ∀ p ∈ [(RoundQuery.analog, RoundQuery.chargingDischarge), (RoundQuery.chargingDischarge, RoundQuery.alarm),
      (RoundQuery.alarm, RoundQuery.systemparameter)], p.1.next? = some p.2 := by decide
  exact all _ h

/-- A decode that succeeds writes the codec and decoder registers and RECORD, and nothing else (R245). -/
theorem decodeIntoRecord_ok {w : WireCmd} {s u : State} {r : Record} (h : decodeIntoRecord w s = (u, .ok r)) :
    u = { s with chk := u.chk, hdr := u.hdr, out := { s.out with record := r } } := by
  obtain ⟨k, d, r', hu, hr, -⟩ := decodeIntoRecord_frame w s
  rw [h] at hu hr
  obtain rfl := hr r rfl
  subst hu
  rfl

/-- In a round, an answer that decodes is handed on stripped (R247). -/
theorem exec_status_answered (idx : Option Int) {s u : State} {r : Record} (hr : s.flags.ready = true)
    (hc : s.regs.cmd = .status) (ho : s.seq.orch = .decoding)
    (hd : decodeIntoRecord s.seq.seqQ.toWire s = (u, .ok r)) : exec (.status idx) s = roundOk (strip r) u := by
  rw [exec_status_running rfl hr hc (by rw [ho]; rfl)]
  simp only [transactStep, ho, decodingStep, hd, transactOk]

/-- Settles O45: the next query of the same module, the `analog` query of the next module, and the stop between two
queries. -/
theorem roundFollowsTheFixedOrder : Obligations.RoundFollowsTheFixedOrder := by
  intro idx s u r hr hc ho hd
  have hu := decodeIntoRecord_ok hd
  rw [exec_status_answered idx hr hc ho hd]
  generalize u.chk = k, u.hdr = d at hu
  subst hu
  refine ⟨fun q q' hq hs => ?_, fun hs hm => ?_, rfl⟩
  · subst hs
    have hnext := next?_of_mem_order hq
    exact ⟨fun hstop => Eq.trans (roundOk_nextQuery _ hnext) (congrArg _ (roundQuery_starts _ _ hstop)),
      fun hstop => Eq.trans (roundOk_nextQuery _ hnext) (congrArg _ (roundQuery_cancelled _ _ hstop))⟩
  · exact ⟨fun hstop => Eq.trans (roundOk_nextModule _ hs hm) (congrArg _ (roundQuery_starts _ _ hstop)),
      fun hstop => Eq.trans (roundOk_nextModule _ hs hm) (congrArg _ (roundQuery_cancelled _ _ hstop))⟩

end Sys2Proof.Proofs
end

