-- ==== Sys2Proof/Proofs/ReceiveFifo.lean ====
section
/-!
PROOF. What a received character does to RXFIFO (spec/20_memory.md R61, spec/40_transport.md R122): it is dropped while the
driver is on or RESET is asserted, appended while there is room, and at a full queue some of the bytes are kept in order.
-/

namespace Sys2Proof.Proofs

open Sys2Proof.Machine

/-- A character at the head of the inputs is the receiver's to take. -/
theorem step_byte {s : State} {b : Byte} {rest : List Input} (h : s.env.inputs = .byte b :: rest) :
    step s = .next (receiveByte b (setInputs rest s)) := by
  simp only [step, machineStep, h, applyInput]

theorem receiveByte_disabled (b : Byte) {s : State} (h : s.tx.de = true ∨ s.env.inReset = true) :
    receiveByte b s = s := by
  rcases receiveByte_cases b s with ⟨-, e⟩ | ⟨hde, hr, -⟩
  · exact e
  · simp [hde, hr] at h

theorem receiveByte_room (b : Byte) {s : State} (hde : s.tx.de = false) (hr : s.env.inReset = false)
    (hroom : ∀ d, s.cfg.rxfifoDepth = some d → s.rx.fifo.length < d) :
    receiveByte b s = { s with rx := { s.rx with fifo := s.rx.fifo ++ [b] } } := by
  cases hd : s.cfg.rxfifoDepth with
  | none => simp [receiveByte, hde, hr, hd]
  | some d => simp [receiveByte, hde, hr, hd, hroom d hd]

/-- What a queue of depth `d` holds after the `n`-th overflow, by a new byte `b` (log 5). -/
def overflowQueue (n d : Nat) (q : List Byte) (b : Byte) : List Byte :=
  (keepFrom (Config.overflowKeeps n) 0 (q ++ [b])).take d

theorem overflowQueue_sublist (n d : Nat) (q : List Byte) (b : Byte) : (overflowQueue n d q b).Sublist (q ++ [b]) :=
  (List.take_sublist _ _).trans (keepFrom_sublist _ _ _)

theorem overflowQueue_length_le (n d : Nat) (q : List Byte) (b : Byte) : (overflowQueue n d q b).length ≤ d :=
  List.length_take_le _ _

theorem receiveByte_full (b : Byte) {s : State} {d : Nat} (hde : s.tx.de = false) (hr : s.env.inReset = false)
    (hd : s.cfg.rxfifoDepth = some d) (hfull : d ≤ s.rx.fifo.length) :
    receiveByte b s = { s with
      rx := { s.rx with fifo := overflowQueue s.env.freeCtr d s.rx.fifo b }
      env := { s.env with freeCtr := s.env.freeCtr + 1 } } := by
  simp [receiveByte, hde, hr, hd, Nat.not_lt.mpr hfull, overflowQueue]

/-- Settles O16: the receiver's three cases are the disabled one, the one with room and the full one, whose queue keeps some
of the bytes in order and no more than the depth. -/
theorem receiveFifoFollowsTheDriver : Obligations.ReceiveFifoFollowsTheDriver := by
  refine ⟨rfl, fun s b rest hin => ?_⟩
  rw [step_byte hin]
  refine ⟨fun hoff => ?_, fun hde hr hroom => ?_, fun d hde hr hd hfull => ?_⟩
  · rw [receiveByte_disabled (s := setInputs rest s) b hoff]
  · exact congrArg _ (receiveByte_room (s := setInputs rest s) b hde hr hroom)
  · exact ⟨_, congrArg _ (receiveByte_full (s := setInputs rest s) b hde hr hd hfull), overflowQueue_sublist _ _ _ _,
      overflowQueue_length_le _ _ _ _, rfl, rfl, rfl, rfl, rfl, rfl, rfl, rfl, rfl⟩

end Sys2Proof.Proofs
end

