-- ==== Sys2Proof/Proofs/CommandEncodings.lean ====
section
/-!
PROOF. The two encodings of a command are one to one. The host port's (spec/30_encoding.md R95, R97, R100): no two commands
bear one name, and a name that is none of the eight is misuse. The wire's (spec/30_encoding.md R103,
spec/42_command_encoder.md R171 to R180, spec/opcode_table.json): a header word is a row's constant bits and an address byte,
an address is an index and a group, and so the decoder accepts exactly what the encoder writes.
-/

namespace Sys2Proof.Proofs

open Sys2Proof.Machine

/-! ## A command and its index -/

@[simp] theorem cmd_ofCmd (c : Cmd) (idx : Option Int) : (Instr.ofCmd c idx).cmd = c := by
  rcases c with (_ | _ | _ | _ | _ | _ | _) | _ <;> rfl

@[simp] theorem idx_ofCmd (c : Cmd) (idx : Option Int) : (Instr.ofCmd c idx).idx = idx := by
  rcases c with (_ | _ | _ | _ | _ | _ | _) | _ <;> rfl

/-! ## The host port (R95, R97, R100) -/

theorem find?_name (c : Cmd) : Cmd.all.find? (fun d => d.name == c.name) = some c := by
  rcases c with (_ | _ | _ | _ | _ | _ | _) | _ <;> decide

/-- Settles O5: the command found for a name is one that bears it, and no two commands bear the same. -/
theorem hostNamesMatchExactly : Obligations.HostNamesMatchExactly := by
  intro name idx i
  unfold decodeCommand
  constructor
  · intro h
    split at h
    · rename_i c hc
      cases h
      have hn := List.find?_some hc
      rw [cmd_ofCmd, idx_ofCmd]
      exact ⟨eq_of_beq hn, rfl⟩
    · cases h
  · rintro ⟨rfl, rfl⟩
    rw [find?_name]
    exact congrArg Except.ok (instr_eta i).symm

theorem decodeCommand_unknown {name : List Byte} (idx : Option Int) (h : ∀ c ∈ Cmd.all, c.name ≠ name) :
    decodeCommand name idx = .error (.unknownName name) := by
  have none : Cmd.all.find? (fun c => c.name == name) = none :=
    List.find?_eq_none.mpr fun c hc he => h c hc (eq_of_beq he)
  rw [decodeCommand, none]

/-- Settles O9: the pulse is let in, its name decodes to nothing, and what is left is the end of the command. -/
theorem unknownNameIsMisuse : Obligations.UnknownNameIsMisuse := by
  intro s name idx rest hin hready hidle hname
  have hp : commandPulse name idx (setInputs rest s) = .next (misuse name (setInputs rest s)) := by
    rw [commandPulse, if_pos ⟨hready, hidle⟩, decodeCommand_unknown idx hname]
  rw [step, machineStep, hin]
  exact hp

/-! ## The bits of a header word (R103) -/

theorem getLsbD_headerMask {i : Nat} (h : i < 48) : headerMask.getLsbD i = !(decide (32 ≤ i) && decide (i < 40)) := by
  have all : ∀ j : Fin 48, headerMask.getLsbD j = !(decide (32 ≤ j.val) && decide (j.val < 40)) := by decide
  exact all ⟨i, h⟩

theorem getLsbD_headerAdr (x : BitVec 48) (i : Nat) :
    (headerAdr x).getLsbD i = (decide (i < 8) && x.getLsbD (32 + i)) := by
  simp only [headerAdr, BitVec.getLsbD_ofNat, Nat.testBit_div_two_pow, BitVec.testBit_toNat, Nat.add_comm]

/-- The address byte in its place in a header word, bits 39 to 32. -/
def adrField (a : Byte) : BitVec 48 :=
  BitVec.ofNat 48 (a.toNat * 2 ^ 32)

theorem getLsbD_adrField (a : Byte) {i : Nat} (h : i < 48) :
    (adrField a).getLsbD i = (decide (32 ≤ i) && a.getLsbD (i - 32)) := by
  simp only [adrField, BitVec.getLsbD_ofNat, Nat.testBit_mul_two_pow, BitVec.testBit_toNat, h, decide_true, Bool.true_and]

theorem patternOf_and_headerMask (w : WireCmd) : patternOf w &&& headerMask = patternOf w := by
  cases w <;> rfl

/-- The mask blanks the address and nothing else. -/
theorem and_headerMask_or_adrField (x : BitVec 48) : x &&& headerMask ||| adrField (headerAdr x) = x := by
  apply BitVec.eq_of_getLsbD_eq
  intro i h
  rw [BitVec.getLsbD_or, BitVec.getLsbD_and, getLsbD_headerMask h, getLsbD_adrField _ h, getLsbD_headerAdr]
  by_cases hi : 32 ≤ i
  · have hs : 32 + (i - 32) = i := by omega
    have hl : i - 32 < 8 ↔ i < 40 := by omega
    simp only [hi, hs, hl, decide_true, Bool.true_and]
    cases x.getLsbD i <;> simp
  · simp [hi]

theorem adrField_and_headerMask (a : Byte) : adrField a &&& headerMask = 0 := by
  apply BitVec.eq_of_getLsbD_eq
  intro i h
  rw [BitVec.getLsbD_and, getLsbD_headerMask h, getLsbD_adrField _ h]
  by_cases hi : i < 40
  · cases decide (32 ≤ i) <;> simp [hi]
  · simp [BitVec.getLsbD_of_ge a (i - 32) (by omega)]

theorem headerAdr_adrField (a : Byte) : headerAdr (adrField a) = a := by
  have := a.isLt
  apply BitVec.eq_of_toNat_eq
  simp only [headerAdr, adrField, BitVec.toNat_ofNat]
  omega

theorem headerAdr_pattern_or (w : WireCmd) (x : BitVec 48) : headerAdr (patternOf w ||| x) = headerAdr x := by
  apply BitVec.eq_of_getLsbD_eq
  intro i h
  have all : ∀ j : Fin 8, (patternOf w).getLsbD (32 + j) = false := by cases w <;> decide
  rw [getLsbD_headerAdr, getLsbD_headerAdr, BitVec.getLsbD_or, all ⟨i, h⟩, Bool.false_or]

/-- A header word is the constant bits of a row and an address. -/
theorem eq_pattern_or_adrField_iff {w : WireCmd} {a : Byte} {x : BitVec 48} :
    x = patternOf w ||| adrField a ↔ x &&& headerMask = patternOf w ∧ headerAdr x = a := by
  constructor
  · rintro rfl
    rw [headerAdr_pattern_or, headerAdr_adrField, BitVec.and_or_distrib_right, patternOf_and_headerMask,
      adrField_and_headerMask]
    simp
  · rintro ⟨hp, rfl⟩
    rw [← hp, and_headerMask_or_adrField]

/-! ## A header word as six bytes -/

theorem wordOfHeader_headerBytes (x : BitVec 48) :
    ∃ v c r h l, headerBytes x = [v, headerAdr x, c, r, h, l] ∧ wordOfHeader v (headerAdr x) c r h l = x := by
  refine ⟨_, _, _, _, _, rfl, BitVec.eq_of_toNat_eq ?_⟩
  have := x.isLt
  simp only [wordOfHeader, headerAdr, BitVec.toNat_ofNat]
  omega

theorem headerBytes_wordOfHeader (v a c r h l : Byte) :
    headerBytes (wordOfHeader v a c r h l) = [v, a, c, r, h, l] := by
  have := v.isLt; have := a.isLt; have := c.isLt; have := r.isLt; have := h.isLt; have := l.isLt
  simp only [headerBytes, wordOfHeader, BitVec.toNat_ofNat, List.cons.injEq, and_true, ← BitVec.toNat_inj]
  omega

theorem headerAdr_wordOfHeader (v a c r h l : Byte) : headerAdr (wordOfHeader v a c r h l) = a :=
  congrArg (fun bytes => bytes.getD 1 0) (headerBytes_wordOfHeader v a c r h l)

/-! ## An address as an index and a group (R171) -/

theorem indexOfAdr_lt (a : Byte) : indexOfAdr a < 16 := Nat.mod_lt _ (by decide)

theorem groupOfAdr_lt (a : Byte) : groupOfAdr a < 16 := by
  have := a.isLt
  simp only [groupOfAdr]
  omega

/-- An address stands for one index and one group, and they for it. -/
theorem defaultAddr_eq_iff {n g : Nat} {a : Byte} (hn : n < 16) (hg : g < 16) :
    defaultAddr n g = a ↔ n = indexOfAdr a ∧ g = groupOfAdr a := by
  have := a.isLt
  simp only [defaultAddr, indexOfAdr, groupOfAdr, ← BitVec.toNat_inj, BitVec.toNat_ofNat]
  omega

/-! ## The wire's decoder -/

/-- The row found for a header word is the one whose constant bits it has. -/
theorem find?_opcodeRows_eq_some_iff {x : BitVec 48} {r : Row} :
    opcodeRows.find? (fun r => x &&& r.mask == r.pattern) = some r
      ↔ ∃ w, x &&& headerMask = patternOf w ∧ r = ⟨w, patternOf w, headerMask⟩ := by
  have rows : ∀ r ∈ opcodeRows, r = ⟨r.wire, patternOf r.wire, headerMask⟩ := by decide
  constructor
  · intro h
    have hr := rows r (List.mem_of_find?_eq_some h)
    have hx := List.find?_some h
    rw [hr] at hx
    exact ⟨r.wire, eq_of_beq hx, hr⟩
  · rintro ⟨w, hx, rfl⟩
    have masked : ∀ r ∈ opcodeRows, (x &&& r.mask == r.pattern) = (patternOf w == r.pattern) := by
      intro r hr
      rw [rows r hr, hx]
    rw [List.find?_congr masked]
    cases w <;> decide

theorem decodeHeaderWord_eq_ok_iff {x : BitVec 48} {i : Instr} {g : Nat} :
    decodeHeaderWord x = .ok (i, g) ↔ ∃ w, x &&& headerMask = patternOf w
      ∧ i = Instr.ofCmd (.wire w) (some (indexOfAdr (headerAdr x) : Int)) ∧ g = groupOfAdr (headerAdr x) := by
  unfold decodeHeaderWord
  constructor
  · intro h
    split at h
    · rename_i hr
      obtain ⟨w, hx, rfl⟩ := find?_opcodeRows_eq_some_iff.mp hr
      cases h
      exact ⟨w, hx, rfl, rfl⟩
    · cases h
  · rintro ⟨w, hx, rfl, rfl⟩
    rw [find?_opcodeRows_eq_some_iff.mpr ⟨w, hx, rfl⟩]

theorem query?_ofCmd_wire (w : WireCmd) (idx : Option Int) : (Instr.ofCmd (.wire w) idx).query? = some w := by
  rw [Instr.query?, cmd_ofCmd]

/-- The decoder reads a row's constant bits, an address and the INFO that goes with them, and nothing else. -/
theorem decodeQuery_eq_ok_iff {bytes : List Byte} {i : Instr} {g : Nat} :
    decodeQuery bytes = .ok (i, g) ↔ ∃ w a, bytes = headerBytes (patternOf w ||| adrField a) ++ defaultInfo w a
      ∧ i = Instr.ofCmd (.wire w) (some (indexOfAdr a : Int)) ∧ g = groupOfAdr a := by
  constructor
  · intro hd
    match bytes with
    | v :: a :: c :: r :: h :: l :: info =>
      simp only [decodeQuery] at hd
      split at hd
      · cases hd
      · rename_i hw
        obtain ⟨w, hx, rfl, rfl⟩ := decodeHeaderWord_eq_ok_iff.mp hw
        rw [headerAdr_wordOfHeader] at hd
        simp only [query?_ofCmd_wire] at hd
        split at hd
        · rename_i hi
          cases hd
          refine ⟨w, a, ?_, rfl, rfl⟩
          rw [← eq_pattern_or_adrField_iff.mpr ⟨hx, headerAdr_wordOfHeader v a c r h l⟩, headerBytes_wordOfHeader, hi]
          rfl
        · cases hd
    | [] | [_] | [_, _] | [_, _, _] | [_, _, _, _] | [_, _, _, _, _] => cases hd
  · rintro ⟨w, a, rfl, rfl, rfl⟩
    generalize hx : patternOf w ||| adrField a = x
    obtain ⟨hp, rfl⟩ := eq_pattern_or_adrField_iff.mp hx.symm
    obtain ⟨v, c, r, h, l, hb, hw⟩ := wordOfHeader_headerBytes x
    have hd := decodeHeaderWord_eq_ok_iff.mpr ⟨w, hp, rfl, rfl⟩
    simp only [hb, List.cons_append, List.nil_append, decodeQuery, hw, hd, query?_ofCmd_wire, if_true]

/-! ## The wire's encoder -/

theorem isQuery_iff {i : Instr} : i.isQuery = true ↔ ∃ w, i.cmd = .wire w := by
  cases i <;> simp [Instr.isQuery, Instr.cmd]

/-- The well-formed queries are those of the seven commands to an index of the address byte. -/
theorem wellFormed_iff {i : Instr} :
    i.wellFormed = true ↔ ∃ (w : WireCmd) (n : Nat), n < 16 ∧ i = Instr.ofCmd (.wire w) (some (n : Int)) := by
  simp only [Instr.wellFormed, Instr.idxPresent, Instr.idxNonneg, Instr.idxFits, Bool.and_eq_true, isQuery_iff]
  constructor
  · rintro ⟨⟨⟨⟨w, hw⟩, hp⟩, hn⟩, hf⟩
    obtain ⟨m, hm⟩ := Option.isSome_iff_exists.mp hp
    simp only [hm, decide_eq_true_eq] at hn hf
    obtain ⟨n, rfl⟩ := Int.eq_ofNat_of_zero_le hn
    exact ⟨w, n, by omega, by rw [instr_eta i, hw, hm]⟩
  · rintro ⟨w, n, hn, rfl⟩
    simpa using hn

theorem encodeHeaderWord_eq (w : WireCmd) (n g : Nat) :
    encodeHeaderWord w n g = patternOf w ||| adrField (defaultAddr n g) := rfl

theorem encodeQuery_ofCmd (w : WireCmd) {n : Nat} (g : Nat) (hn : n < 16) :
    encodeQuery (Instr.ofCmd (.wire w) (some (n : Int))) g =
      some (headerBytes (patternOf w ||| adrField (defaultAddr n g)) ++ defaultInfo w (defaultAddr n g)) := by
  rw [encodeQuery, if_pos (wellFormed_iff.mpr ⟨w, n, hn, rfl⟩), query?_ofCmd_wire, idx_ofCmd]
  simp only [encodeHeaderWord_eq, Int.toNat_natCast]

/-! ## The two directions -/

/-- Settles O2: the bytes are a row's constant bits with the address of the index and the group, which the decoder reads
back from it. -/
theorem queryDecodeEncodeAgree : Obligations.QueryDecodeEncodeAgree := by
  intro i g hi hg
  obtain ⟨w, n, hn, rfl⟩ := wellFormed_iff.mp hi
  obtain ⟨hidx, hgroup⟩ := (defaultAddr_eq_iff hn hg).mp rfl
  exact ⟨_, encodeQuery_ofCmd w g hn, decodeQuery_eq_ok_iff.mpr ⟨w, _, rfl, by rw [← hidx], hgroup⟩⟩

/-- Settles O3: what the decoder accepts holds an address, which is that of the index and the group read from it. -/
theorem queryEncodeDecodeAgree : Obligations.QueryEncodeDecodeAgree := by
  intro bytes i g h
  obtain ⟨w, a, rfl, rfl, rfl⟩ := decodeQuery_eq_ok_iff.mp h
  have hn := indexOfAdr_lt a
  have hg := groupOfAdr_lt a
  have ha := (defaultAddr_eq_iff hn hg).mpr ⟨rfl, rfl⟩
  exact ⟨wellFormed_iff.mpr ⟨w, _, hn, rfl⟩, hg, by rw [encodeQuery_ofCmd w _ hn, ha]⟩

end Sys2Proof.Proofs
end

