-- ==== Sys2Proof/Proofs/AnswerBytes.lean ====
section
/-!
PROOF. Bytes and texts of an answer (spec/30_encoding.md R93, R96): the states of an alarm token, and what a text loses.
-/

namespace Sys2Proof.Proofs

open Sys2Proof.Machine

/-- Settles O32: one number each for the first three states, and the fourth for every number above. -/
theorem alarmTokensHaveFourStates : Obligations.AlarmTokensHaveFourStates
  | 0 | 1 | 2 | _ + 3 => by simp [alarmOf]

/-- What is left of a text ends in no null (R96). -/
theorem getLast?_trimNulls (bs : List Byte) : (trimNulls bs).getLast? ≠ some 0 := by
  by_cases hne : trimNulls bs = []
  · simp [hne]
  · have hlast : ¬ ((trimNulls bs).getLast hne == 0) = true := List.rdropWhile_last_not _ bs hne
    rw [List.getLast?_eq_some_getLast hne]
    exact fun h => hlast (beq_iff_eq.mpr (Option.some.inj h))

/-- Settles O36: what is cut off is the longest end of nulls. -/
theorem textIsTrimmedOfTrailingNulls : Obligations.TextIsTrimmedOfTrailingNulls := by
  intro bs
  have cut : bs.rtakeWhile (fun b => b == 0) = List.replicate (bs.rtakeWhile (fun b => b == 0)).length 0 :=
    List.eq_replicate_of_mem fun b hb => by simpa using List.mem_rtakeWhile_imp hb
  exact ⟨_, cut ▸ List.rdropWhile_append_rtakeWhile.symm, getLast?_trimNulls bs⟩

end Sys2Proof.Proofs
end

