-- ==== Sys2Proof/Proofs/EncoderOutput.lean ====
section
/-!
PROOF. What an encoder writes (spec/30_encoding.md R90, spec/41_frame_codec.md R151, spec/93_implementation_defined.md U40):
upper-case hex digits between the two markers.
-/

namespace Sys2Proof.Proofs

open Sys2Proof.Machine

/-! ## Characters -/

theorem hexDigit_mem_hexChars {n : Nat} (h : n < 16) : hexDigit n ∈ hexChars := by
  have all : ∀ m : Fin 16, hexDigit m ∈ hexChars := by decide
  exact all ⟨n, h⟩

/-- The characters R90 allows in a table of INFO are the digits an encoder writes. -/
theorem mem_hexChars_of_isHexUpper {b : Byte} (h : isHexUpper b = true) : b ∈ hexChars := by
  simp only [isHexUpper, Bool.or_eq_true, Bool.and_eq_true, decide_eq_true_eq] at h
  rcases h with ⟨hl, hu⟩ | ⟨hl, hu⟩
  · have e : b = hexDigit (b.toNat - 0x30) := by
      apply BitVec.eq_of_toNat_eq
      rw [hexDigit, if_pos (by omega), BitVec.toNat_ofNat]
      omega
    exact e ▸ hexDigit_mem_hexChars (by omega)
  · have e : b = hexDigit (b.toNat - 0x37) := by
      apply BitVec.eq_of_toNat_eq
      rw [hexDigit, if_neg (by omega), BitVec.toNat_ofNat]
      omega
    exact e ▸ hexDigit_mem_hexChars (by omega)

/-- Every character of `s` is an upper-case hex digit. -/
def HexOnly (s : List Byte) : Prop :=
  ∀ b ∈ s, b ∈ hexChars

theorem HexOnly.append {s t : List Byte} (hs : HexOnly s) (ht : HexOnly t) : HexOnly (s ++ t) :=
  List.forall_mem_append.mpr ⟨hs, ht⟩

theorem hexOnly_nil : HexOnly [] := nofun

theorem hexOnly_hex2 (v : Nat) : HexOnly (hex2 v) := by
  have digit (n : Nat) : hexDigit (n % 16) ∈ hexChars := hexDigit_mem_hexChars (Nat.mod_lt _ (by decide))
  exact List.forall_mem_cons.mpr ⟨digit _, List.forall_mem_singleton.mpr (digit _)⟩

theorem hexOnly_hex4 (v : Nat) : HexOnly (hex4 v) :=
  (hexOnly_hex2 _).append (hexOnly_hex2 _)

theorem HexOnly.count_marker {s : List Byte} (h : HexOnly s) : s.count startMarker = 0 ∧ s.count endMarker = 0 :=
  ⟨List.count_eq_zero.mpr fun hm => absurd (h _ hm) (by decide),
    List.count_eq_zero.mpr fun hm => absurd (h _ hm) (by decide)⟩

/-! ## A query's body -/

/-- A legal table of INFO holds hex digits only (R90). -/
theorem hexOnly_of_mem_infoTable {c : Config} (h : c.legal = true) {e : WireCmd × Nat × Nat × List Byte}
    (he : e ∈ c.infoTable) : HexOnly e.2.2.2 := by
  simp only [Config.legal, Bool.and_eq_true, List.all_eq_true, infoLegal] at h
  obtain ⟨⟨-, hinfo⟩, -⟩ := h
  exact fun b hb => mem_hexChars_of_isHexUpper ((hinfo e he).2 b hb)

theorem hexOnly_infoOf {c : Config} (h : c.legal = true) (w : WireCmd) (n : Nat) : HexOnly (infoOf c w n) := by
  unfold infoOf infoTx defaultInfoTx
  split
  · split
    · rename_i e he
      exact hexOnly_of_mem_infoTable h (List.mem_of_find?_eq_some he)
    · split
      · exact hexOnly_hex2 _
      · exact hexOnly_nil
  · exact hexOnly_nil

theorem queryBody_eq (c : Config) (w : WireCmd) (n : Nat) :
    queryBody c w n = buildBody c (c.cid2Tx.get w) (addr c n c.group) (infoOf c w n) := by
  cases w <;> rfl

theorem hexOnly_queryBody {c : Config} (h : c.legal = true) (w : WireCmd) (n : Nat) : HexOnly (queryBody c w n) := by
  rw [queryBody_eq, buildBody]
  exact (hexOnly_hex2 _).append ((hexOnly_hex2 _).append ((hexOnly_hex2 _).append ((hexOnly_hex2 _).append
    ((hexOnly_hex4 _).append (hexOnly_infoOf h w n)))))

/-! ## Its frame -/

theorem count_marker_encodeFrame {body : List Byte} (h : HexOnly body) :
    (encodeFrame body).count startMarker = 1 ∧ (encodeFrame body).count endMarker = 1 := by
  obtain ⟨hs, he⟩ := h.count_marker
  obtain ⟨hs', he'⟩ := (hexOnly_hex4 (chk16 body).toNat).count_marker
  simp only [encodeFrame, List.count_cons, List.count_append, hs, he, hs', he', List.count_nil]
  decide

theorem getLast?_encodeFrame (body : List Byte) : (encodeFrame body).getLast? = some endMarker := by
  simp [encodeFrame, List.getLast?_cons, List.getLast?_append]

/-- Settles O59: body and checksum are hex digits, and no hex digit is a marker. -/
theorem encoderEmitsHexOnly : Obligations.EncoderEmitsHexOnly := by
  intro c w n f hc hf
  subst hf
  have hex := hexOnly_queryBody hc w n
  obtain ⟨hs, he⟩ := count_marker_encodeFrame hex
  exact ⟨hex, rfl, hs, getLast?_encodeFrame _, he⟩

end Sys2Proof.Proofs
end

