-- ==== Sys2Proof/Proofs/AnswerHeader.lean ====
section
/-!
PROOF. The header of an answer decides nothing but for its length (spec/30_encoding.md R99, spec/43_response_decoder.md R212,
spec/44_orchestrator.md R245, R247, R253, R262, spec/70_reset_and_hazards.md R331): what follows a decode reads neither the
answer's frame nor its registers nor RECORD, and two records that differ in header fields are one record once stripped.
-/

namespace Sys2Proof.Proofs

open Sys2Proof.Machine

/-! ## The part of the state that holds an answer -/

/-- `s` with another answer: its frame, what the codec and the header decoder left of it, and its record. -/
def withAnswer (x : Rx) (k : Chk) (h : Hdr) (r : Record) (s : State) : State :=
  { s with rx := x, chk := k, hdr := h, out := { s.out with record := r } }

theorem sameAnswer_withAnswer (x : Rx) (k : Chk) (h : Hdr) (r : Record) (t : State) :
    sameAnswer t (withAnswer x k h r t) :=
  ⟨rfl, rfl, rfl, rfl, rfl, rfl, rfl⟩

section
variable (x : Rx) (k : Chk) (h : Hdr) (r : Record)

theorem withAnswer_env (s : State) : (withAnswer x k h r s).env = s.env := rfl
theorem withAnswer_cfg (s : State) : (withAnswer x k h r s).cfg = s.cfg := rfl
theorem withAnswer_seq (s : State) : (withAnswer x k h r s).seq = s.seq := rfl
theorem withAnswer_regs (s : State) : (withAnswer x k h r s).regs = s.regs := rfl
theorem withAnswer_snap (s : State) : (withAnswer x k h r s).out.snap = s.out.snap := rfl
theorem withAnswer_snapM (s : State) : (withAnswer x k h r s).out.snapM = s.out.snapM := rfl

/-! ## What follows a decode, with another answer -/

theorem sampleStop_withAnswer (s : State) :
    sampleStop (withAnswer x k h r s) = withAnswer x k h r (sampleStop s) := by
  cases hs : s.env.stop <;> simp [sampleStop, withAnswer, hs]

theorem roundQuery_withAnswer (m : Nat) (q : RoundQuery) (s : State) :
    roundQuery m q (withAnswer x k h r s) = withAnswer x k h r (roundQuery m q s) := by
  cases hs : s.env.stop with
  | false => rw [roundQuery_starts m q hs, roundQuery_starts (s := withAnswer x k h r s) m q hs]; rfl
  | true => rw [roundQuery_cancelled m q hs, roundQuery_cancelled (s := withAnswer x k h r s) m q hs]; rfl

theorem discoverLoop_withAnswer (s : State) :
    discoverLoop (withAnswer x k h r s) = withAnswer x k h r (discoverLoop s) := by
  simp only [discoverLoop, withAnswer_env, withAnswer_cfg, withAnswer_seq, sampleStop_withAnswer]
  split_ifs <;> rfl

theorem completeRound_withAnswer {s t : State} (ht : completeRound s = .next t) :
    completeRound (withAnswer x k h r s) = .next (withAnswer x k h r t) := by
  simp only [completeRound, withAnswer_snap] at ht ⊢
  split at ht
  · cases ht
  · cases ht
    rfl

theorem roundOk_withAnswer (ans : Record) {s t : State} (ht : roundOk ans s = .next t) :
    roundOk ans (withAnswer x k h r s) = .next (withAnswer x k h r t) := by
  simp only [roundOk, withAnswer_seq, withAnswer_regs, withAnswer_snap, withAnswer_snapM] at ht ⊢
  have setSnap_withAnswer (m l) : setSnap m l (withAnswer x k h r s) = withAnswer x k h r (setSnap m l s) := rfl
  simp only [setSnap_withAnswer]
  split at ht
  · cases ht
    rw [roundQuery_withAnswer]
  · by_cases hm : s.seq.seqM + 1 < s.regs.moduleCount
    · rw [if_pos hm] at ht ⊢
      cases ht
      rw [roundQuery_withAnswer]
    · rw [if_neg hm] at ht ⊢
      exact completeRound_withAnswer x k h r ht

/-- A transaction that succeeds goes on from any answer as from this one. -/
theorem transactOk_withAnswer (c : Caller) {ans ans' : Record} (hrec : strip ans = strip ans') {s t : State}
    (ht : transactOk c ans s = .next t) :
    transactOk c ans' (withAnswer x k h r s) = .next (withAnswer x k h r t) := by
  cases c with
  | single =>
    cases ht
    rw [hrec]
    rfl
  | round =>
    simp only [transactOk, hrec] at ht ⊢
    exact roundOk_withAnswer x k h r _ ht
  | discovery =>
    cases ht
    exact congrArg _ (discoverLoop_withAnswer x k h r (setDisc (s.seq.discI + 1) s))

/-- A transaction that fails with RECORD cleared (R190) goes on from any answer as from this one, in probe mode too. -/
theorem failTransaction_withAnswer (e : EngineError) (s : State) :
    failTransaction e (withAnswer x k h [] s) = withAnswer x k h [] (failTransaction e s) := by
  cases hp : s.regs.probeMode <;> simp only [failTransaction, withAnswer_regs, hp] <;> rfl

end

/-! ## Decoding two answers with one payload -/

theorem strip_headerRecord (h : Hdr) (p : List Byte) : strip (headerRecord h p) = [] := rfl

/-- Answers with one payload fail alike, or leave records that are one once stripped (R247). -/
theorem decodingStep_sameAnswer {w : WireCmd} {c : Caller} {s t : State} {x : Rx} {k k' : Chk} {h h' : Hdr}
    {body body' p : List Byte} (hw : w ≠ .protocol) (hd : decodeFrame s.frame s.chk = (k, .ok body))
    (hh : decodeHeader body s.hdr = (h, .ok p)) (hd' : decodeFrame (x.frame.take x.frameLen) s.chk = (k', .ok body'))
    (hh' : decodeHeader body' s.hdr = (h', .ok p)) (ht : decodingStep w c s = .next t) :
    ∃ t', decodingStep w c { s with rx := x } = .next t' ∧ sameAnswer t t' := by
  have hs := decodeIntoRecord_accepted (w := w) hd hh
  have hs' := decodeIntoRecord_accepted (w := w) (s := { s with rx := x }) hd' hh'
  have hp : sameRead (decodePayload s.cfg w h p (headerRecord h p)) (decodePayload s.cfg w h' p (headerRecord h' p)) :=
    same_payload hw (by rw [strip_headerRecord, strip_headerRecord])
  rcases hp with ⟨⟨e, cur⟩, hp, hp'⟩ | ⟨ans, ans', cur, hp, hp', hrec⟩
  · simp only [decodingStep, hs, hp] at ht
    cases ht
    refine ⟨_, ?_, sameAnswer_withAnswer x k' { h' with cursor := cur } [] _⟩
    simp only [decodingStep, hs', hp', ← failTransaction_withAnswer]
    rfl
  · simp only [decodingStep, hs, hp] at ht
    refine ⟨_, ?_, sameAnswer_withAnswer x k' { h' with cursor := cur } ans' _⟩
    simp only [decodingStep, hs', hp']
    have hok := transactOk_withAnswer x k' { h' with cursor := cur } ans' c hrec ht
    exact hok

theorem running_query (s : State) : (running s).1 = queryInProgress s := by
  cases hr : s.flags.ready with
  | true =>
    cases hc : s.regs.cmd with
    | wire w => simp only [running, queryInProgress, inProgress, hr, hc, if_true]
    | status => simp only [running, queryInProgress, inProgress, hr, hc, if_true]
  | false => simp only [running, queryInProgress, hr, Bool.false_eq_true, if_false]

theorem transactStep_decoding (w : WireCmd) (c : Caller) {s : State} (ho : s.seq.orch = .decoding) :
    transactStep w c s = decodingStep w c s := by
  simp only [transactStep, ho]

/-- Settles O37: whoever waits for the answer, the step in Decoding is the transaction's, which goes on alike from both. -/
theorem answerIsNotTiedToItsRequest : Obligations.AnswerIsNotTiedToItsRequest := by
  intro s s' t k k' h h' body body' f' p ho hq hs' hd hh hd' hh'
  generalize ({ s.rx with frame := f', frameLen := f'.length } : Rx) = x at hs'
  have ho' : s'.seq.orch = .decoding := by rw [hs']; exact ho
  have hin : inTransaction s.seq.orch = true := by rw [ho]; rfl
  have hin' : inTransaction s'.seq.orch = true := by rw [ho']; rfl
  have same (ht : transactStep (running s).1 (running s).2 s = .next t) :
      ∃ t', transactStep (running s').1 (running s').2 s' = .next t' ∧ sameAnswer t t' := by
    rw [transactStep_decoding _ _ ho] at ht
    rw [transactStep_decoding _ _ ho']
    subst hs'
    exact decodingStep_sameAnswer (running_query s ▸ hq) hd hh hd' hh' ht
  refine ⟨fun i hr hi ht => ?_, fun hr hi ht => ?_⟩
  · rw [exec_eq_running hi hr hin] at ht
    rw [exec_eq_running (hs' ▸ hi) (hs' ▸ hr) hin']
    exact same ht
  · rw [step_running hr hi hin] at ht
    rw [step_running (hs' ▸ hr) (hs' ▸ hi) hin']
    exact same ht

end Sys2Proof.Proofs
end

