-- ==== Sys2Proof/Proofs/Receive.lean ====
section
/-!
PROOF. What the engine does in Awaiting (spec/40_transport.md R123 to R129, spec/44_orchestrator.md R243, R246): each step of
`receive_frame` as a step of the machine and of the command in progress, and the run over noise and a delimited frame.
-/

namespace Sys2Proof.Proofs

open Sys2Proof.Machine

/-! ## Steps and runs -/

/-- A step of the transaction in progress moves the engine, whoever waits for the answer. -/
theorem engineMoves_of_transactStep {s t : State} (ho : inTransaction s.seq.orch = true)
    (h : transactStep (running s).1 (running s).2 s = .next t) : engineMoves s t :=
  ⟨fun _ hr hi => (exec_eq_running hi hr ho).trans h, fun hr hin => (step_running hr hin ho).trans h⟩

/-- The first of several steps. -/
theorem runSteps_succ {s t : State} (n : Nat) (h : step s = .next t) : runSteps (n + 1) s = runSteps n t := by
  simp only [runSteps, h]

/-- Steps along a path lead from its start to its end, whatever comes after them. -/
theorem runSteps_path {path : Nat → State} {n : Nat} (m : Nat) (h : ∀ k < n, step (path k) = .next (path (k + 1))) :
    runSteps (n + m) (path 0) = runSteps m (path n) := by
  induction n generalizing path with
  | zero => rw [Nat.zero_add]
  | succ n ih =>
    rw [Nat.add_right_comm, runSteps_succ (n + m) (h 0 (Nat.succ_pos n))]
    exact ih (path := fun k => path (k + 1)) fun k hk => h (k + 1) (Nat.succ_lt_succ hk)

/-- The machine makes the engine's move when it is neither held in reset nor given an input. -/
theorem runSteps_of_engineMoves {s t : State} (n : Nat) (hr : s.env.inReset = false) (hin : s.env.inputs = [])
    (h : engineMoves s t) : runSteps (n + 1) s = runSteps n t :=
  runSteps_succ n (h.2 hr hin)

/-! ## Awaiting (R243) -/

/-- What Awaiting makes of the answer of a step of `receive_frame` (R243). -/
def afterReceive : Received × State → State
  | (.waiting, u) => u
  | (.noFrame, u) => failTransaction .transportTimeout u
  | (.frame, u) => setOrch .decoding u

theorem awaitingStep_eq (w : WireCmd) (s : State) :
    awaitingStep w s = afterReceive (receiveStep (deadlineOf s.cfg w) s) := by
  rcases h : receiveStep (deadlineOf s.cfg w) s with ⟨x, u⟩
  cases x <;> simp only [awaitingStep, h, afterReceive]

theorem engineMoves_receive {s : State} {x : Received × State} (ho : s.seq.orch = .awaiting)
    (h : ∀ d, receiveStep d s = x) : engineMoves s (afterReceive x) := by
  refine engineMoves_of_transactStep (by rw [ho]; rfl) ?_
  simp only [transactStep, ho, awaitingStep_eq, h]

/-- In the hunt, the engine takes the hunt step (R125). -/
theorem engineMoves_hunt {s : State} {x : Received × State} (ho : s.seq.orch = .awaiting) (hx : s.rx.state = .hunt)
    (h : huntStep s = x) : engineMoves s (afterReceive x) :=
  engineMoves_receive ho fun d => by simp only [receiveStep, hx, h]

/-- In the collect, the engine takes the collect step (R126). -/
theorem engineMoves_collect {s : State} {x : Received × State} (ho : s.seq.orch = .awaiting)
    (hx : s.rx.state = .collect) (h : collectStep s = x) : engineMoves s (afterReceive x) :=
  engineMoves_receive ho fun d => by simp only [receiveStep, hx, h]

/-! ## The hunt (R125) -/

/-- A failure in normal mode without a bound on retries (R249, R296). -/
theorem failTransaction_normal {s : State} (e : EngineError) (hp : s.regs.probeMode = false) (hm : s.cfg.retryMax = none) :
    failTransaction e s = retryEntered e s := by
  simp only [failTransaction, hp, Bool.false_eq_true, if_false, enterRetrying, retriesExhausted, hm, retryEntered]

/-- A failure in probe mode (R246). -/
theorem failTransaction_probe {s : State} (e : EngineError) (hp : s.regs.probeMode = true) :
    failTransaction e s = probeEmpty e s := by
  simp only [failTransaction, hp, if_true]

theorem engineMoves_noise {s : State} {b : Byte} {rest : List Byte} (ho : s.seq.orch = .awaiting)
    (hx : s.rx.state = .hunt) (h : s.env.now < s.rx.deadlineAt) (hf : s.rx.fifo = b :: rest) (hb : b ≠ startMarker) :
    engineMoves s (fifoRest rest s) :=
  engineMoves_hunt ho hx (huntStep_noise h hf hb)

theorem engineMoves_start {s : State} {rest : List Byte} (ho : s.seq.orch = .awaiting)
    (hx : s.rx.state = .hunt) (h : s.env.now < s.rx.deadlineAt) (hf : s.rx.fifo = startMarker :: rest) :
    engineMoves s (setRx .collect (frameStart startMarker (fifoRest rest s))) :=
  engineMoves_hunt ho hx (huntStep_start h hf)

/-- Settles O17: the five clauses are the cases of the hunt step, the expired deadline in normal and in probe mode. -/
theorem huntTestsTheDeadlineFirst : Obligations.HuntTestsTheDeadlineFirst := by
  intro s ho hx
  refine ⟨fun hd hp hm => ?_, fun hd hp => ?_, fun h b rest hf hb => ?_, fun h rest hf => ?_, fun h hf => ?_⟩
  · have expired := engineMoves_hunt ho hx (huntStep_expired hd)
    rwa [afterReceive, failTransaction_normal (s := setRx .off s) _ hp hm] at expired
  · have expired := engineMoves_hunt ho hx (huntStep_expired hd)
    rwa [afterReceive, failTransaction_probe (s := setRx .off s) _ hp] at expired
  · exact engineMoves_noise ho hx h hf hb
  · exact engineMoves_start ho hx h hf
  · exact engineMoves_hunt ho hx (huntStep_empty h hf)

/-! ## The collect (R126) -/

/-- `s` with `bs` taken from RXFIFO into FRAMEBUF and `rest` behind it in the queue (R126). -/
def collected (bs rest : List Byte) (s : State) : State :=
  { s with rx := { s.rx with
      fifo := rest, frame := s.rx.frame ++ bs, frameLen := s.rx.frameLen + bs.length, lastByteAt := s.env.now } }

/-- The collection ends and its candidate goes to Decoding (R126, R243). -/
def handedOn (s : State) : State :=
  setOrch .decoding (setRx .off s)

/-- FRAMEBUF holds FRAME_LEN bytes, so that a byte is appended behind all of them. -/
theorem frameAppend_fifoRest {s : State} (b : Byte) (rest : List Byte) (hl : s.rx.frameLen = s.rx.frame.length) :
    frameAppend b (fifoRest rest s) = collected [b] rest s := by
  simp [frameAppend, fifoRest, collected, hl]

theorem collected_collected (as bs rest rest' : List Byte) (s : State) :
    collected bs rest' (collected as rest s) = collected (as ++ bs) rest' s := by
  simp [collected, Nat.add_assoc]

theorem engineMoves_append {s : State} {b : Byte} {rest : List Byte} (ho : s.seq.orch = .awaiting)
    (hx : s.rx.state = .collect) (hl : s.rx.frameLen = s.rx.frame.length) (hf : s.rx.fifo = b :: rest)
    (hb : b ≠ endMarker) (hd : s.cfg.framebufDepth ≠ some (s.rx.frameLen + 1)) :
    engineMoves s (collected [b] rest s) := by
  rw [← frameAppend_fifoRest b rest hl]
  exact engineMoves_collect ho hx (collectStep_more hf hb hd)

theorem engineMoves_end {s : State} {b : Byte} {rest : List Byte} (ho : s.seq.orch = .awaiting)
    (hx : s.rx.state = .collect) (hl : s.rx.frameLen = s.rx.frame.length) (hf : s.rx.fifo = b :: rest)
    (hb : b = endMarker ∨ s.cfg.framebufDepth = some (s.rx.frameLen + 1)) :
    engineMoves s (handedOn (collected [b] rest s)) := by
  rw [← frameAppend_fifoRest b rest hl]
  rcases hb with rfl | hd
  · exact engineMoves_collect ho hx (collectStep_end hf)
  · exact engineMoves_collect ho hx (collectStep_full hf hd)

/-- Settles O18: the four clauses are the cases of the collect step. -/
theorem collectEndsAtMarkerFullBufferOrIdle : Obligations.CollectEndsAtMarkerFullBufferOrIdle := by
  intro s ho hx hl
  refine ⟨fun b rest hf => ⟨fun hb => ?_, fun hb hd => ?_⟩, fun hf hi => ?_, fun hf hi => ?_⟩
  · exact engineMoves_end ho hx hl hf hb
  · exact engineMoves_append ho hx hl hf hb hd
  · exact engineMoves_collect ho hx (collectStep_idle hf hi)
  · exact engineMoves_collect ho hx (collectStep_wait hf hi)

/-! ## A delimited frame behind noise (R123 to R129) -/

/-- The hunt removes all that precedes the first START_MARKER, a step a byte. -/
theorem runSteps_noise (n : Nat) {noise rest : List Byte} {s : State} (hr : s.env.inReset = false)
    (hin : s.env.inputs = []) (ho : s.seq.orch = .awaiting) (hx : s.rx.state = .hunt)
    (hd : s.env.now < s.rx.deadlineAt) (hf : s.rx.fifo = noise ++ rest) (hn : startMarker ∉ noise) :
    runSteps (noise.length + n) s = runSteps n (fifoRest rest s) := by
  induction noise generalizing s with
  | nil =>
    have same : fifoRest rest s = s := by rw [List.nil_append] at hf; rw [fifoRest, ← hf]
    rw [same, List.length_nil, Nat.zero_add]
  | cons b bs ih =>
    have hb : b ≠ startMarker := (List.ne_of_not_mem_cons hn).symm
    have gone := runSteps_of_engineMoves (bs.length + n) hr hin (engineMoves_noise ho hx hd hf hb)
    rw [List.length_cons, Nat.add_right_comm, gone]
    exact ih (s := fifoRest (bs ++ rest) s) hr hin ho hx hd rfl (List.not_mem_of_not_mem_cons hn)

/-- The collect takes all up to the first END_MARKER, a step a byte, when FRAMEBUF has room for it. -/
theorem runSteps_data {data tail : List Byte} {s : State} (hr : s.env.inReset = false)
    (hin : s.env.inputs = []) (ho : s.seq.orch = .awaiting) (hx : s.rx.state = .collect)
    (hl : s.rx.frameLen = s.rx.frame.length) (hf : s.rx.fifo = data ++ endMarker :: tail) (hn : endMarker ∉ data)
    (hroom : ∀ depth, s.cfg.framebufDepth = some depth → s.rx.frameLen + data.length + 1 ≤ depth) :
    runSteps (data.length + 1) s = .next (handedOn (collected (data ++ [endMarker]) tail s)) := by
  induction data generalizing s with
  | nil => exact runSteps_of_engineMoves 0 hr hin (engineMoves_end ho hx hl hf (.inl rfl))
  | cons b bs ih =>
    have hb : b ≠ endMarker := (List.ne_of_not_mem_cons hn).symm
    have notFull : s.cfg.framebufDepth ≠ some (s.rx.frameLen + 1) := fun hd => by
      have := hroom _ hd
      rw [List.length_cons] at this
      omega
    have room (depth : Nat) (h : s.cfg.framebufDepth = some depth) : s.rx.frameLen + 1 + bs.length + 1 ≤ depth := by
      have := hroom depth h
      rw [List.length_cons] at this
      omega
    have taken := engineMoves_append (rest := bs ++ endMarker :: tail) ho hx hl hf hb notFull
    have rest := ih (s := collected [b] (bs ++ endMarker :: tail) s) hr hin ho hx (by simp [collected, hl]) rfl
      (List.not_mem_of_not_mem_cons hn) room
    rw [collected_collected] at rest
    exact (runSteps_of_engineMoves _ hr hin taken).trans rest

/-- What is handed to Decoding after START_MARKER, the data and END_MARKER. -/
theorem handedOn_collected_frameStart (data tail : List Byte) (s : State) :
    handedOn (collected (data ++ [endMarker]) tail (setRx .collect (frameStart startMarker s))) = { s with
      seq := { s.seq with orch := .decoding }
      rx := { fifo := tail, state := .off, frame := startMarker :: (data ++ [endMarker]), frameLen := data.length + 2,
              deadlineAt := s.rx.deadlineAt, lastByteAt := s.env.now } } := by
  have length : 1 + (data ++ [endMarker]).length = data.length + 2 := by
    rw [List.length_append, List.length_singleton]
    omega
  rw [← length]
  rfl

/-- Settles O19: the noise goes, START_MARKER starts the frame, and the data and END_MARKER end it. -/
theorem receiveTakesTheFirstDelimitedFrame : Obligations.ReceiveTakesTheFirstDelimitedFrame := by
  intro s noise data tail hr hin ho hx hd hf hn hm hroom
  have noiseGone := runSteps_noise (data.length + 1 + 1) hr hin ho hx hd hf hn
  have started := runSteps_of_engineMoves (s := fifoRest (startMarker :: (data ++ endMarker :: tail)) s)
    (data.length + 1) hr hin (engineMoves_start ho hx hd rfl)
  have room (depth : Nat) (h : s.cfg.framebufDepth = some depth) : 1 + data.length + 1 ≤ depth := by
    have := hroom depth h
    omega
  have taken := runSteps_data (s := setRx .collect (frameStart startMarker (fifoRest (data ++ endMarker :: tail) s)))
    hr hin ho rfl rfl rfl hm room
  rw [handedOn_collected_frameStart] at taken
  rw [Nat.add_assoc]
  exact noiseGone.trans (started.trans taken)

end Sys2Proof.Proofs
end

