-- ==== Sys2Proof/Proofs/Send.lean ====
section
/-!
PROOF. A whole `send` (spec/40_transport.md R121, R122, spec/44_orchestrator.md R242, R244): one step loads the frame, one
shifts each character out, one flushes and enters `receive_frame`.
-/

namespace Sys2Proof.Proofs

open Sys2Proof.Machine

/-! ## send, character by character -/

/-- `s` with the send of `body`'s frame in progress, `k` of its characters on the line (R121). -/
def sending (body : List Byte) (k : Nat) (s : State) : State :=
  { s with
    env := { s.env with
             txd := s.env.txd ++ (encodeFrame body).take k
             now := s.env.now + k * s.cfg.lineFormat.charTime }
    tx := { s.tx with
            de := true, buf := encodeFrame body, len := (encodeFrame body).length, pos := k, start := s.env.now }
    chk := { s.chk with acc := BitVec.ofNat 16 (byteSum body) } }

theorem sendQueryStep_loads {w : WireCmd} {i : Nat} {s : State} {body : List Byte} (h : s.tx.de = false)
    (hb : body = queryBody s.cfg w i) : sendQueryStep w i s = (false, sending body 0 s) := by
  rw [sendQueryStep_idle h, chkAcc_eq, ← hb]
  simp [sending, sendStart]

theorem sendQueryStep_shifts {w : WireCmd} {i k : Nat} {s : State} {body : List Byte} (h : k < (encodeFrame body).length) :
    sendQueryStep w i (sending body k s) = (false, sending body (k + 1) s) := by
  rw [sendQueryStep_shift rfl h]
  simp [sending, sendShift, slice, List.take_add, Nat.add_mul, Nat.add_assoc]

theorem sendQueryStep_flushes {w : WireCmd} {i : Nat} {s : State} {body : List Byte} :
    sendQueryStep w i (sending body (encodeFrame body).length s)
      = (true, sendFlush (sending body (encodeFrame body).length s)) :=
  sendQueryStep_flush rfl (Nat.le_refl _)

/-- `receive_frame` is entered at the flush (R124). -/
theorem receiveEntry_flushed (d : Nat) (body : List Byte) (s : State) :
    receiveEntry d (sendFlush (sending body (encodeFrame body).length s)) = sentAndListening body d s := by
  simp [receiveEntry, sendFlush, sending, sentAndListening]

/-! ## A whole send -/

/-- A machine that loads the frame of `body`, shifts it out and flushes it to `t` runs to `t` in as many steps, the frame
going out in index order and DE being 1 at every step between (R121, R122). -/
theorem runSteps_send {body : List Byte} {s t : State} (load : step s = .next (sending body 0 s))
    (shift : ∀ k < (encodeFrame body).length, step (sending body k s) = .next (sending body (k + 1) s))
    (flush : step (sending body (encodeFrame body).length s) = .next t) :
    runSteps ((encodeFrame body).length + 2) s = .next t
      ∧ ∀ k, k ≤ (encodeFrame body).length →
        ∃ u, runSteps (k + 1) s = .next u ∧ u.tx.de = true ∧ u.env.txd = s.env.txd ++ (encodeFrame body).take k := by
  have shifted (k m : Nat) (hk : k ≤ (encodeFrame body).length) :
      runSteps (k + m + 1) s = runSteps m (sending body k s) :=
    (runSteps_succ (k + m) load).trans
      (runSteps_path (path := fun j => sending body j s) m fun j hj => shift j (Nat.lt_of_lt_of_le hj hk))
  exact ⟨(shifted _ 1 (Nat.le_refl _)).trans (runSteps_succ 0 flush), fun k hk => ⟨_, shifted k 0 hk, rfl, rfl⟩⟩

/-! ## Sending (R242) -/

/-- With no input waiting, the machine in Sending sends the query in progress. -/
theorem step_sending {s : State} (hr : s.env.inReset = false) (hin : s.env.inputs = []) (ho : s.seq.orch = .sending) :
    step s = .next (sendingStep (queryInProgress s) s) := by
  rw [step_running hr hin (by rw [ho]; rfl), running_query]
  simp only [transactStep, ho]

/-- R244. -/
theorem deadlineOf_eq (c : Config) (w : WireCmd) :
    deadlineOf c w = if w = .serialnumber then c.deadlineFast else c.deadlineDefault := by
  cases w <;> rfl

/-- Settles O15: a step to load, one for each character, one to flush. -/
theorem sendPutsTheFrameOnTheLine : Obligations.SendPutsTheFrameOnTheLine := by
  intro s body f d hr hin ho hde hbody hf hd
  subst hf
  rw [← deadlineOf_eq] at hd
  refine runSteps_send ?load (fun k hk => ?shift) ?flush
  case load => rw [step_sending hr hin ho, sendingStep, sendQueryStep_loads hde hbody]
  case shift => rw [step_sending (s := sending body k s) hr hin ho, sendingStep, sendQueryStep_shifts hk]
  case flush =>
    rw [step_sending (s := sending body _ s) hr hin ho, sendingStep, sendQueryStep_flushes, hd]
    exact congrArg (fun t => Host.Outcome.next (setOrch .awaiting t)) (receiveEntry_flushed _ body s)

end Sys2Proof.Proofs
end

