-- ==== Sys2Proof/Proofs/Codec.lean ====
section
/-!
PROOF. The Packet Codec (spec/41_frame_codec.md R150 to R158): the checksum of a string with one byte changed, the trim and
the framing checks, the two checksums of a frame that passes them, and decode of a body between its markers.
-/

namespace Sys2Proof.Proofs

open Sys2Proof.Machine

/-! ## The checksum (R150) -/

theorem chk16_add_byteSum (s : List Byte) : chk16 s + BitVec.ofNat 16 (byteSum s) = 0 := by
  apply BitVec.eq_of_toNat_eq
  rw [BitVec.toNat_add, chk16_toNat, BitVec.toNat_ofNat]
  change _ = 0
  omega

/-- The source's formula, off the multiples of 65536. -/
theorem chk16_toNat_of_mod_ne {s : List Byte} (h : byteSum s % 65536 ≠ 0) :
    (chk16 s).toNat = (65535 - byteSum s % 65536) + 1 := by
  rw [chk16_toNat]
  omega

theorem chk16_of_mod_eq {s : List Byte} (h : byteSum s % 65536 = 0) : chk16 s = 0 := by
  rw [chk16, h]
  rfl

/-- Settles O20: modulo 2^16, the checksum and the sum add up to 0. -/
theorem checksumIsTheNegatedSum : Obligations.ChecksumIsTheNegatedSum := fun s =>
  ⟨chk16_add_byteSum s, chk16_toNat_of_mod_ne, chk16_of_mod_eq, chkAcc_eq s⟩

/-! ## One byte changed -/

theorem byteSum_modify {p : List Byte} {i : Nat} (h : i < p.length) (g : Byte → Byte) :
    byteSum (p.modify i g) + p[i].toNat = byteSum p + (g p[i]).toNat := by
  induction p generalizing i with
  | nil => cases h
  | cons b bs ih =>
    cases i with
    | zero =>
      simp only [List.modify_zero_cons, List.getElem_cons_zero, byteSum_cons]
      omega
    | succ i =>
      have rest := ih (Nat.lt_of_succ_lt_succ h)
      simp only [List.modify_succ_cons, List.getElem_cons_succ, byteSum_cons]
      omega

/-- Two bytes differ by less than 65536, so another byte in one place is another checksum. -/
theorem chk16_modify_ne {p : List Byte} {i : Nat} (h : i < p.length) {g : Byte → Byte} (hg : g p[i] ≠ p[i]) :
    chk16 (p.modify i g) ≠ chk16 p := by
  have sums := byteSum_modify h g
  have differ : (g p[i]).toNat ≠ p[i].toNat := fun e => hg (BitVec.eq_of_toNat_eq e)
  have new := (g p[i]).isLt
  have old := p[i].isLt
  rw [Ne, chk16_eq_iff]
  omega

/-- A mask of one bit is not 0, so it changes every byte. -/
theorem xor_bit_ne (b : Byte) {bit : Nat} (h : bit < 8) : b ^^^ BitVec.ofNat 8 (2 ^ bit) ≠ b := by
  have mask : ∀ j : Fin 8, BitVec.ofNat 8 (2 ^ j.val) ≠ 0 := by decide
  exact fun e => mask ⟨bit, h⟩ (by simpa using e)

theorem chk16_flipBit_ne {p : List Byte} {i bit : Nat} (hi : i < p.length) (hb : bit < 8) :
    chk16 (flipBit p i bit) ≠ chk16 p :=
  chk16_modify_ne hi (xor_bit_ne _ hb)

/-! ## A body between its markers -/

@[simp] theorem trim_wrap (p c : List Byte) : trim (wrap p c) = wrap p c :=
  trim_start _

/-- decode of a body under the checksum `c`, which reads back from its four characters. -/
theorem decodeFrame_wrap {p : List Byte} (c : Word16) (k : Chk) (h : 10 ≤ p.length) :
    (decodeFrame (wrap p (hex4 c.toNat)) k).2
      = if c = chk16 p then .ok p else .error (.checksum (chk16 p) (some c)) := by
  have four := hex4_length c.toNat
  have framed : framingError (trim (wrap p (hex4 c.toNat))) = none := by
    rw [trim_wrap, wrap_framing _ _ four, if_neg (Nat.not_lt.mpr h)]
  have declared : declaredOf (trim (wrap p (hex4 c.toNat))) = some c.toNat := by
    rw [trim_wrap, wrap_declaredOf _ _ four, unhex_hex4_toNat]
  rw [decodeFrame_checked k framed declared, trim_wrap, wrap_bodyOf _ _ four, BitVec.ofNat_toNat, BitVec.setWidth_eq]

theorem decodeFrame_encodeFrame_short {p : List Byte} (k : Chk) (h : p.length < 10) :
    decodeFrame (encodeFrame p) k = (k, .error (.framing .tooShort)) := by
  refine decodeFrame_framing k ?_
  rw [encodeFrame_eq_wrap, trim_wrap, wrap_framing _ _ (hex4_length _), if_pos h]

/-- Settles O21: the frame carries the body's own checksum. -/
theorem codecRoundTrip : Obligations.CodecRoundTrip := by
  refine fun p k => ⟨fun h => ?_, decodeFrame_encodeFrame_short k⟩
  rw [encodeFrame_eq_wrap, decodeFrame_wrap _ k h, if_pos rfl]

/-- Settles O22: the frame still carries the checksum of the body before the flip. -/
theorem singleBitFlipIsDetected : Obligations.SingleBitFlipIsDetected := by
  intro p k i bit hp hi hb
  have long : 10 ≤ (flipBit p i bit).length := by rwa [flipBit, List.length_modify]
  exact (decodeFrame_wrap (chk16 p) k long).trans (if_neg (chk16_flipBit_ne hi hb).symm)

/-! ## The trim (R153) -/

theorem trim_noise {noise : List Byte} (rest : List Byte) (h : startMarker ∉ noise) :
    trim (noise ++ startMarker :: rest) = startMarker :: rest := by
  have noMarker : ∀ b ∈ noise, (b != startMarker) = true := fun b hb =>
    bne_iff_ne.mpr fun e => h (e ▸ hb)
  simp [trim, List.dropWhile_append_of_pos noMarker]

theorem trim_of_notMem {f : List Byte} (h : startMarker ∉ f) : trim f = f := by
  simp [trim, h]

/-! ## The framing checks (R154) -/

theorem framingError_short {t : List Byte} (h : t.length < minFrame) : framingError t = some .tooShort :=
  if_pos h

theorem framingError_noStart {t : List Byte} (hl : minFrame ≤ t.length) (h : t.head? ≠ some startMarker) :
    framingError t = some .noStart := by
  rw [framingError, if_neg (Nat.not_lt.mpr hl), if_pos h]

theorem framingError_noEnd {t : List Byte} (hl : minFrame ≤ t.length) (hs : t.head? = some startMarker)
    (h : t.getLast? ≠ some endMarker) : framingError t = some .noEnd := by
  rw [framingError, if_neg (Nat.not_lt.mpr hl), if_neg (not_not_intro hs), if_pos h]

theorem framingError_none {t : List Byte} (hl : minFrame ≤ t.length) (hs : t.head? = some startMarker)
    (he : t.getLast? = some endMarker) : framingError t = none := by
  rw [framingError, if_neg (Nat.not_lt.mpr hl), if_neg (not_not_intro hs), if_neg (not_not_intro he)]

/-- Behind the framing checks only the checksum can fail. -/
theorem decodeFrame_ne_framing {f : List Byte} (k : Chk) (h : framingError (trim f) = none) (r : FramingReason) :
    (decodeFrame f k).2 ≠ .error (.framing r) := by
  cases hd : declaredOf (trim f) with
  | none =>
    rw [decodeFrame_notHex k h hd]
    nofun
  | some d =>
    rw [decodeFrame_checked k h hd]
    dsimp only
    split <;> nofun

/-- Settles O23: each reason of a FramingError is the first check that fails. -/
theorem framingChecksInOrder : Obligations.FramingChecksInOrder :=
  ⟨fun _ rest => trim_noise rest, fun _ => trim_of_notMem, fun _ k =>
    ⟨fun h => decodeFrame_framing k (framingError_short h),
      fun hl h => decodeFrame_framing k (framingError_noStart hl h),
      fun hl hs h => decodeFrame_framing k (framingError_noEnd hl hs h),
      fun hl hs he => decodeFrame_ne_framing k (framingError_none hl hs he)⟩⟩

/-! ## The two checksums (R155) -/

/-- The body of a trimmed frame is all but START_MARKER in front and five characters behind. -/
theorem bodyOf_eq (t : List Byte) : bodyOf t = (t.drop 1).take (t.length - 6) := by
  rw [bodyOf, slice, Nat.sub_sub]

/-- The declared checksum stands in the four characters before the last. -/
theorem declaredOf_eq {t : List Byte} (h : 5 ≤ t.length) : declaredOf t = unhex ((t.drop (t.length - 5)).take 4) := by
  have four : t.length - 1 - (t.length - 5) = 4 := by omega
  rw [declaredOf, slice, four]

theorem declaredOf_lt {t : List Byte} (h : 5 ≤ t.length) {d : Nat} (hd : declaredOf t = some d) : d < 65536 := by
  rw [declaredOf_eq h] at hd
  calc d < 16 ^ ((t.drop (t.length - 5)).take 4).length := unhex_lt hd
    _ ≤ 16 ^ 4 := Nat.pow_le_pow_right (by decide) (List.length_take_le _ _)

/-- Four digits fit in a checksum register, so comparing numbers is comparing registers. -/
theorem ofNat_eq_iff {d : Nat} (h : d < 65536) (c : Word16) : BitVec.ofNat 16 d = c ↔ d = c.toNat := by
  rw [← BitVec.toNat_inj, BitVec.toNat_ofNat, Nat.mod_eq_of_lt h]

/-- Settles O24: past the framing checks decode compares the declared number with the checksum of the body. -/
theorem checksumCheckRecordsBoth : Obligations.ChecksumCheckRecordsBoth := by
  intro f t body k ht hl hs he hb
  subst ht hb
  have framed := framingError_none hl hs he
  have five : 5 ≤ (trim f).length := Nat.le_trans (by decide) hl
  rw [← bodyOf_eq, ← declaredOf_eq five, ← chkAcc_eq]
  refine ⟨decodeFrame_notHex k framed, fun d hd => ?_⟩
  simp only [decodeFrame_checked k framed hd, ofNat_eq_iff (declaredOf_lt five hd)]

end Sys2Proof.Proofs
end

