-- ==== Sys2Proof/Proofs/ExceptionTables.lean ====
section
/-!
PROOF. A parameter that is a function is its default with a table of exceptions (spec/30_encoding.md R88,
spec/42_command_encoder.md R171, R173; log 8): ADDR, INFO_TX and LCHK are the first entry for their arguments, else the
default. With it, which configurations ADDR allows (spec/93_implementation_defined.md U31).
-/

namespace Sys2Proof.Proofs

open Sys2Proof.Machine

/-! ## The first entry for a key -/

section
variable {α β : Type} {p : α → Bool} {key : α → β} {k : β}

theorem find?_key_eq_none_iff (hp : ∀ e, p e = true ↔ key e = k) {l : List α} :
    l.find? p = none ↔ ∀ e ∈ l, key e ≠ k := by
  simp only [List.find?_eq_none, hp, Ne]

theorem find?_key_first (hp : ∀ e, p e = true ↔ key e = k) {l pre post : List α} {e : α} (hl : l = pre ++ e :: post)
    (he : key e = k) (hpre : ∀ x ∈ pre, key x ≠ k) : l.find? p = some e := by
  rw [hl, List.find?_append, (find?_key_eq_none_iff hp).mpr hpre, Option.none_or, List.find?_cons_of_pos ((hp e).mpr he)]

end

/-! ## ADDR (R171) -/

theorem addrEntry_iff (i g : Nat) (e : Nat × Nat × Byte) : (e.1 == i && e.2.1 == g) = true ↔ (e.1, e.2.1) = (i, g) := by
  simp

theorem addr_default {c : Config} {i g : Nat} (h : ∀ e ∈ c.addrTable, (e.1, e.2.1) ≠ (i, g)) :
    addr c i g = defaultAddr i g := by
  rw [addr, (find?_key_eq_none_iff (addrEntry_iff i g)).mpr h]

theorem addr_first {c : Config} {i g : Nat} {a : Byte} {pre post : List (Nat × Nat × Byte)}
    (ht : c.addrTable = pre ++ (i, g, a) :: post) (hpre : ∀ e ∈ pre, (e.1, e.2.1) ≠ (i, g)) : addr c i g = a := by
  rw [addr, find?_key_first (addrEntry_iff i g) ht rfl hpre]

/-! ## INFO_TX (R173) -/

theorem infoEntry_iff (w : WireCmd) (i g : Nat) (e : WireCmd × Nat × Nat × List Byte) :
    (e.1 == w && e.2.1 == i && e.2.2.1 == g) = true ↔ (e.1, e.2.1, e.2.2.1) = (w, i, g) := by
  simp [and_assoc]

theorem infoTx_default {c : Config} {w : WireCmd} {i g : Nat} (h : ∀ e ∈ c.infoTable, (e.1, e.2.1, e.2.2.1) ≠ (w, i, g)) :
    infoTx c w i g = defaultInfoTx c w i g := by
  rw [infoTx, (find?_key_eq_none_iff (infoEntry_iff w i g)).mpr h]

theorem infoTx_first {c : Config} {w : WireCmd} {i g : Nat} {x : List Byte}
    {pre post : List (WireCmd × Nat × Nat × List Byte)} (ht : c.infoTable = pre ++ (w, i, g, x) :: post)
    (hpre : ∀ e ∈ pre, (e.1, e.2.1, e.2.2.1) ≠ (w, i, g)) : infoTx c w i g = x := by
  rw [infoTx, find?_key_first (infoEntry_iff w i g) ht rfl hpre]

/-- The commands whose query carries the address as its INFO by default. -/
theorem hasInfoDefault_eq_true_iff (w : WireCmd) :
    hasInfoDefault.get w = true ↔ w ∈ [WireCmd.analog, .alarm, .chargingDischarge, .serialnumber] := by
  cases w <;> decide

theorem hasInfoDefault_eq_false_iff (w : WireCmd) :
    hasInfoDefault.get w = false ↔ w ∈ [WireCmd.protocol, .manufactory, .systemparameter] := by
  cases w <;> decide

/-! ## LCHK (R88) -/

theorem lchk_default {c : Config} {n : Nat} (h : ∀ e ∈ c.lchkTable, e.1 ≠ n) : lchk c n = defaultLchk n := by
  rw [lchk, (find?_key_eq_none_iff (fun _ => beq_iff_eq)).mpr h]

theorem lchk_first {c : Config} {n : Nat} {x : BitVec 4} {pre post : List (Nat × BitVec 4)}
    (ht : c.lchkTable = pre ++ (n, x) :: post) (hpre : ∀ e ∈ pre, e.1 ≠ n) : lchk c n = x.toNat := by
  rw [lchk, find?_key_first (fun _ => beq_iff_eq) ht rfl hpre]

/-- The default checksum of a length brings the sum of its three digits to 0 modulo 16. -/
theorem defaultLchk_closes {n : Nat} (h : n ≤ 4095) :
    defaultLchk n < 16 ∧ (defaultLchk n + n % 16 + n / 16 % 16 + n / 256) % 16 = 0 := by
  have third : n / 256 % 16 = n / 256 := Nat.mod_eq_of_lt (Nat.div_lt_of_lt_mul (Nat.lt_succ_of_le h))
  rw [defaultLchk, third]
  omega

/-! ## The addresses a configuration allows (U31) -/

theorem mem_indexes {c : Config} {i : Nat} : i ∈ c.indexes ↔ i < max 1 c.discoveryLimit := List.mem_range

theorem addrLegal_of_legal {c : Config} (h : c.legal = true) :
    (∀ i ∈ c.indexes, c.addrRepresents i = true) ∧ (c.indexes.map (fun i => addr c i c.group)).Nodup := by
  simp only [Config.legal, Bool.and_eq_true, Config.addrLegal, List.all_eq_true, decide_eq_true_eq] at h
  obtain ⟨⟨⟨⟨⟨haddr, -⟩, -⟩, -⟩, -⟩, -⟩ := h
  exact haddr

/-- Without an entry of its own an index has the default formula's four bits, and so has the group. -/
theorem addrRepresents_default {c : Config} {i : Nat} (h : ∀ e ∈ c.addrTable, (e.1, e.2.1) ≠ (i, c.group)) :
    c.addrRepresents i = true ↔ i ≤ 14 ∧ c.group ≤ 15 := by
  have noEntry : c.addrTable.any (fun e => e.1 == i && e.2.1 == c.group) = false :=
    List.any_eq_false.mpr fun e he hk => h e he ((addrEntry_iff i c.group e).mp hk)
  simp only [Config.addrRepresents, noEntry, Bool.false_or, Bool.and_eq_true, decide_eq_true_eq]

theorem not_legal_of_default {c : Config} {i : Nat} (hi : i < max 1 c.discoveryLimit) (hout : 14 < i ∨ 15 < c.group)
    (h : ∀ e ∈ c.addrTable, (e.1, e.2.1) ≠ (i, c.group)) : c.legal = false := by
  refine Bool.of_not_eq_true fun hc => ?_
  have represented := (addrRepresents_default h).mp ((addrLegal_of_legal hc).1 i (mem_indexes.mpr hi))
  omega

/-- With no table the first index past the formula is in use, or the group is past it at index 0. -/
theorem not_legal_of_no_table {c : Config} (ht : c.addrTable = []) (h : 15 < c.discoveryLimit ∨ 15 < c.group) :
    c.legal = false := by
  have noEntry (i : Nat) : ∀ e ∈ c.addrTable, (e.1, e.2.1) ≠ (i, c.group) := by simp [ht]
  rcases h with hlimit | hgroup
  · exact not_legal_of_default (i := 15) (by omega) (.inl (by decide)) (noEntry 15)
  · exact not_legal_of_default (i := 0) (by omega) (.inr hgroup) (noEntry 0)

/-- Settles O60: the addresses of the indexes in use are distinct, and each is an entry or within the formula. -/
theorem legalAddressesDoNotAlias : Obligations.LegalAddressesDoNotAlias := fun _ =>
  ⟨fun hc _ _ hi hj hne heq =>
      hne (List.inj_on_of_nodup_map (addrLegal_of_legal hc).2 (mem_indexes.mpr hi) (mem_indexes.mpr hj) heq),
    not_legal_of_no_table, fun _ => not_legal_of_default⟩

end Sys2Proof.Proofs
end

