-- ==== Sys2Proof/Proofs/QueryBody.lean ====
section
/-!
PROOF. The body of a query (spec/42_command_encoder.md R170 to R180): its fields in every configuration, and under the default
parameters the hex of the bytes the opcode table gives (spec/30_encoding.md R103, spec/opcode_table.json).
-/

namespace Sys2Proof.Proofs

open Sys2Proof.Machine

/-! ## The words of the opcode table -/

/-- Settles O1, by running the decoder on the eight words. -/
theorem tableWordsDecode : Obligations.TableWordsDecode := by
  unfold Obligations.TableWordsDecode
  decide

/-! ## The fields of a body (R170) -/

theorem lengthTx_of_le {c : Config} {n : Nat} (h : n ≤ 4095) : lengthTx c n = lchk c n * 4096 + n := by
  rw [lengthTx, Nat.mod_eq_of_lt (Nat.lt_succ_of_le h)]

theorem queryBody_fields {c : Config} {w : WireCmd} {n : Nat} (h : (infoOf c w n).length ≤ 4095) :
    queryBody c w n =
      hex2 c.verTx.toNat ++ hex2 (addr c n c.group).toNat ++ hex2 c.cid1Tx.toNat ++ hex2 (c.cid2Tx.get w).toNat
        ++ hex4 (lchk c (infoOf c w n).length * 4096 + (infoOf c w n).length) ++ infoOf c w n := by
  rw [queryBody_eq, buildBody, lengthTx_of_le h]
  simp only [List.append_assoc]

/-- The table of commands that `Obligations.QueryBodyIsTheHexOfItsBytes` writes out holds each command's own parameters. -/
theorem eq_get_of_mem_commands {α β : Type} {p : PerWire α} {q : PerWire β} {w : WireCmd} {x : α} {y : β}
    (h : (w, x, y) ∈
      [(WireCmd.protocol, p.protocol, q.protocol), (WireCmd.manufactory, p.manufactory, q.manufactory),
       (WireCmd.analog, p.analog, q.analog), (WireCmd.alarm, p.alarm, q.alarm),
       (WireCmd.chargingDischarge, p.chargingDischarge, q.chargingDischarge),
       (WireCmd.serialnumber, p.serialnumber, q.serialnumber),
       (WireCmd.systemparameter, p.systemparameter, q.systemparameter)]) :
    x = p.get w ∧ y = q.get w := by
  cases w <;> simpa [PerWire.get] using h

/-! ## The bytes of a query under the default parameters (R103) -/

/-- The LENGTH of a query under the default parameters: no INFO, or the two characters of the address. -/
def defaultLength (w : WireCmd) : Nat :=
  if hasInfoDefault.get w then 0xE002 else 0

theorem patternOf_eq_wordOfHeader (w : WireCmd) :
    patternOf w = wordOfHeader 0x20 0 0x46 (cid2Default.get w) (BitVec.ofNat 8 (defaultLength w / 256))
      (BitVec.ofNat 8 (defaultLength w % 256)) := by
  cases w <;> rfl

/-- The constant bits of a row and the address bits are disjoint. -/
theorem patternOf_and_adrField (w : WireCmd) (a : Byte) : patternOf w &&& adrField a = 0 := by
  rw [← patternOf_and_headerMask, BitVec.and_assoc, BitVec.and_comm headerMask, adrField_and_headerMask]
  simp

theorem wordOfHeader_add_adrField (v a c r h l : Byte) :
    wordOfHeader v 0 c r h l + adrField a = wordOfHeader v a c r h l := by
  have zero : (0 : Byte).toNat = 0 := rfl
  rw [wordOfHeader, adrField, ← BitVec.ofNat_add, wordOfHeader, zero]
  exact congrArg (BitVec.ofNat 48) (by ring)

theorem headerBytes_pattern_or (w : WireCmd) (a : Byte) :
    headerBytes (patternOf w ||| adrField a) =
      [0x20, a, 0x46, cid2Default.get w, BitVec.ofNat 8 (defaultLength w / 256), BitVec.ofNat 8 (defaultLength w % 256)] := by
  rw [← BitVec.add_eq_or_of_and_eq_zero _ _ (patternOf_and_adrField w a), patternOf_eq_wordOfHeader,
    wordOfHeader_add_adrField, headerBytes_wordOfHeader]

section
variable {c : Config} (h : DefaultEncoding c)
include h

theorem addr_of_defaultEncoding (i g : Nat) : addr c i g = defaultAddr i g :=
  addr_default (by simp [h.addr])

/-- The INFO characters are the hex of the INFO bytes. -/
theorem infoOf_of_defaultEncoding (w : WireCmd) (n : Nat) :
    infoOf c w n = (defaultInfo w (defaultAddr n c.group)).flatMap (fun b => hex2 b.toNat) := by
  have tx : infoTx c w n c.group = defaultInfoTx c w n c.group := infoTx_default (by simp [h.infoTx])
  rw [infoOf, h.info, tx, defaultInfoTx, defaultInfo, addr_of_defaultEncoding h]
  cases hasInfoDefault.get w <;> simp

theorem lengthTx_of_defaultEncoding (w : WireCmd) (n : Nat) : lengthTx c (infoOf c w n).length = defaultLength w := by
  rw [lengthTx, lchk_default (by simp [h.lchk]), infoOf_of_defaultEncoding h, defaultInfo, defaultLength]
  cases hasInfoDefault.get w <;> simp [defaultLchk]

theorem queryBody_of_defaultEncoding (w : WireCmd) (n : Nat) :
    queryBody c w n =
      (headerBytes (patternOf w ||| adrField (defaultAddr n c.group)) ++ defaultInfo w (defaultAddr n c.group)).flatMap
        (fun b => hex2 b.toNat) := by
  have lengthHex : hex4 (defaultLength w) = hex2 (BitVec.ofNat 8 (defaultLength w / 256)).toNat
      ++ hex2 (BitVec.ofNat 8 (defaultLength w % 256)).toNat := by
    cases w <;> rfl
  rw [queryBody_eq, buildBody, lengthTx_of_defaultEncoding h, infoOf_of_defaultEncoding h, addr_of_defaultEncoding h, h.ver,
    h.cid1, h.cid2, headerBytes_pattern_or, lengthHex]
  simp

end

/-! ## The body in every configuration -/

/-- Settles O4: the fields of the body, the three parameters that are tables of exceptions, and the bytes of the opcode
table under the default parameters. -/
theorem queryBodyIsTheHexOfItsBytes : Obligations.QueryBodyIsTheHexOfItsBytes := by
  refine ⟨?fields, ?addresses, ?infos, ?checks, ?defaults⟩
  case fields =>
    intro c w n cid2 hasInfo info hmem hinfo hlen
    obtain ⟨rfl, rfl⟩ := eq_get_of_mem_commands hmem
    subst hinfo
    exact queryBody_fields hlen
  case addresses => exact fun _ _ _ => ⟨addr_default, fun _ _ _ => addr_first⟩
  case infos =>
    refine fun c w i g => ⟨fun h => ⟨fun hw => ?_, fun hw => ?_⟩, fun _ _ _ => infoTx_first⟩
    · rw [infoTx_default h, defaultInfoTx, if_pos ((hasInfoDefault_eq_true_iff w).mpr hw)]
    · rw [infoTx_default h, defaultInfoTx, if_neg (Bool.eq_false_iff.mp ((hasInfoDefault_eq_false_iff w).mpr hw))]
  case checks =>
    refine fun c n hn => ⟨fun h => ?_, fun _ _ _ => lchk_first⟩
    rw [lchk_default h]
    exact defaultLchk_closes hn
  case defaults =>
    intro c w n bytes hd _ hn henc
    rw [encodeQuery_ofCmd w c.group hn] at henc
    rw [queryBody_of_defaultEncoding hd, Option.some.inj henc]

end Sys2Proof.Proofs
end

