-- ==== Sys2Proof/Proofs/HeaderDecoder.lean ====
section
/-!
PROOF. The header decoder (spec/43_response_decoder.md R191): which of its five tokens it has read when it answers.
-/

namespace Sys2Proof.Proofs

open Sys2Proof.Machine

/-- One token with a character that is not hex leaves the header without tokens. -/
theorem headerTokens_eq_none {body : List Byte}
    (h : unhex (slice body 0 2) = none ∨ unhex (slice body 2 4) = none ∨ unhex (slice body 4 6) = none
      ∨ unhex (slice body 6 8) = none ∨ unhex (slice body 8 12) = none) : headerTokens body = none := by
  unfold headerTokens
  split
  · rename_i hv ha hc hr hl
    simp [hv, ha, hc, hr, hl] at h
  · rfl

theorem headerTokens_eq_some {body : List Byte} {v a c r l : Nat} (hv : unhex (slice body 0 2) = some v)
    (ha : unhex (slice body 2 4) = some a) (hc : unhex (slice body 4 6) = some c) (hr : unhex (slice body 6 8) = some r)
    (hl : unhex (slice body 8 12) = some l) : headerTokens body = some (v, a, c, r, l) := by
  simp only [headerTokens, hv, ha, hc, hr, hl]

/-- Settles O25: the three errors and the success are the cases of the header decoder, told apart by the length of the body,
by its tokens and by LENID. -/
theorem headerChecksInOrder : Obligations.HeaderChecksInOrder := by
  refine fun body h => ⟨decodeHeader_short h, fun hl hbad => decodeHeader_notHex h hl (headerTokens_eq_none hbad), ?_⟩
  rintro v a c r l hl ⟨-, hv⟩ ⟨-, ha⟩ ⟨-, hc⟩ ⟨-, hr⟩ ⟨-, hlen⟩
  have tokens := headerTokens_eq_some hv ha hc hr hlen
  exact ⟨decodeHeader_mismatch h hl tokens, decodeHeader_ok h hl tokens⟩

end Sys2Proof.Proofs
end

