-- ==== Sys2Proof/Proofs/PayloadReads.lean ====
section
/-!
PROOF. The reads of a payload from what its tokens spell (spec/30_encoding.md R92 to R96, spec/43_response_decoder.md R193 to
R200): for each slot of a layout, what it stores and where it leaves the cursor.
-/

namespace Sys2Proof.Proofs

open Sys2Proof.Machine

/-! ## Tokens -/

theorem takeHex_of_tokenIs {p : List Byte} {off k v : Nat} (h : tokenIs p off k v) :
    takeHex p k off = .ok (v, off + k) :=
  takeHex_ok h.1 h.2

theorem takeHex_of_tokensAre {p : List Byte} {off k : Nat} {vs : List Nat} (h : tokensAre p off k vs) (j : Nat)
    (hj : j < vs.length) : takeHex p k (off + k * j) = .ok (vs[j], off + k * j + k) :=
  takeHex_of_tokenIs (h j hj)

/-- Two characters spell a byte. -/
theorem tokenIs_byte {p : List Byte} {off v : Nat} (h : tokenIs p off 2 v) : v < 256 :=
  calc v < 16 ^ ((p.drop off).take 2).length := unhex_lt h.2
    _ ≤ 16 ^ 2 := Nat.pow_le_pow_right (by decide) (List.length_take_le _ _)

theorem toNat_ofNat_byte {p : List Byte} {off v : Nat} (h : tokenIs p off 2 v) : (BitVec.ofNat 8 v).toNat = v := by
  rw [BitVec.toNat_ofNat, Nat.mod_eq_of_lt (tokenIs_byte h)]

/-- Two tokens side by side, as bytes. -/
theorem textIs_pair {p : List Byte} {off a b : Nat} (ha : tokenIs p off 2 a) (hb : tokenIs p (off + 2) 2 b) :
    textIs p off [BitVec.ofNat 8 a, BitVec.ofNat 8 b] := by
  intro j hj
  match j, hj with
  | 0, _ => simpa [toNat_ofNat_byte ha] using ha
  | 1, _ => simpa [toNat_ofNat_byte hb] using hb

/-- The value under which a token is stored, for each kind (R92, R93, R200). -/
def tokenValue (c : Config) (f : Field) (u : Nat) : Value :=
  match tokenOf f with
  | .byte => .int u
  | .word => .int (numOf c f u)
  | .scaled d => .dec ⟨numOf c f u, d⟩
  | .temp => .dec ⟨numOf c f u - tempOffset, scaleTemp⟩
  | .alarm => .alarm (alarmOf u)

theorem readToken_ok {c : Config} {f : Field} {p : List Byte} {cur k u : Nat} (hk : (tokenOf f).chars = k)
    (h : takeHex p k cur = .ok (u, cur + k)) : readToken c f p cur = .ok (tokenValue c f u, cur + k) := by
  subst hk
  unfold tokenValue
  cases ht : tokenOf f <;> rw [ht] at h
  case byte => exact readToken_byte ht h
  case word => simp only [readToken, ht, read16_ok h, Token.chars]
  case scaled d => exact readToken_scaled ht h
  case temp => exact readToken_temp ht h
  case alarm => exact readToken_alarm ht h

/-- Only the fields of SIGNED can read below zero (R199). -/
theorem numOf_default {c : Config} (hs : c.signedFields = signedDefault) : numOf c = numOf Config.default := by
  funext f u
  rw [numOf, hs]
  rfl

theorem tokenValue_default {c : Config} (hs : c.signedFields = signedDefault) :
    tokenValue c = tokenValue Config.default := by
  funext f u
  simp only [tokenValue, numOf_default hs]

/-! ## The status byte (R94) -/

theorem flagOf_twoPow (x : Byte) {i : Nat} (hi : i < 8) : flagOf x (BitVec.twoPow 8 i) = x.getLsbD i := by
  have bit : BitVec.twoPow 8 i ≠ 0 := by
    have all : ∀ j : Fin 8, BitVec.twoPow 8 j.val ≠ 0 := by decide
    exact all ⟨i, hi⟩
  rw [flagOf, BitVec.and_twoPow]
  cases x.getLsbD i with
  | false => simp
  | true => simpa using bit

theorem flagOf_ofNat (b : Nat) {i : Nat} (hi : i < 8) : flagOf (BitVec.ofNat 8 b) (BitVec.twoPow 8 i) = b.testBit i := by
  rw [flagOf_twoPow _ hi, BitVec.getLsbD_ofNat, decide_eq_true hi, Bool.true_and]

theorem setStatusFlags_of_tokenIs {p : List Byte} {off b : Nat} (h : tokenIs p off 2 b) (r : Record) :
    setStatusFlags (BitVec.ofNat 8 b) r =
      Record.set .fullChargeRequired (.bool (b.testBit 3)) (Record.set .chargeImmediately2 (.bool (b.testBit 4))
        (Record.set .chargeImmediately1 (.bool (b.testBit 5)) (Record.set .dischargeEnable (.bool (b.testBit 6))
          (Record.set .chargeEnable (.bool (b.testBit 7)) (Record.set .statusByte (.int b) r))))) := by
  rw [← flagOf_ofNat b (i := 3) (by decide), ← flagOf_ofNat b (i := 4) (by decide), ← flagOf_ofNat b (i := 5) (by decide),
    ← flagOf_ofNat b (i := 6) (by decide), ← flagOf_ofNat b (i := 7) (by decide)]
  rw [setStatusFlags, toNat_ofNat_byte h]
  rfl

/-! ## Slots

Each rule takes the offset `off` of what the slot reads, the cursor `cur` being there, and says what is left to read behind
it. -/

section
variable {c : Config} {p : List Byte} {ts : Layout} {st : List Nat} {cur off : Nat} {r : Record} {f : Field}

theorem readSlots_token {k u : Nat} (h : tokenIs p off k u) (hk : (tokenOf f).chars = k) (hcur : cur = off) :
    readSlots c p (.token f :: ts) st cur r
      = readSlots c p ts (st ++ [cur]) (off + k) (Record.set f (tokenValue c f u) r) := by
  subst hcur
  exact readSlots_cons (readSlot_token r (readToken_ok hk (takeHex_of_tokenIs h)))

theorem readSlots_counted {n : Field} {k off' cur' : Nat} {v : Value} (hn : tokenIs p off 2 k)
    (hl : readList c f k p off' = .ok (v, cur')) (hcur : cur = off) (hoff : off' = off + 2) :
    readSlots c p (.counted n f :: ts) st cur r
      = readSlots c p ts (st ++ [cur]) cur' (Record.set f v (Record.set n (.int k) r)) := by
  subst hcur hoff
  exact readSlots_cons (readSlot_counted r (takeHex_of_tokenIs hn) hl)

theorem readSlots_text {k : Nat} {bs : List Byte} (hk : bs.length = k) (h : textIs p off bs) (hcur : cur = off) :
    readSlots c p (.text f k :: ts) st cur r
      = readSlots c p ts (st ++ [cur]) (off + 2 * k) (Record.set f (.text (trimNulls bs)) r) := by
  subst hcur hk
  exact readSlots_cons (readSlot_text r (readText_ok (takeHex_of_tokensAre h)))

theorem readSlots_bytes {k : Nat} {bs : List Byte} (hk : bs.length = k) (h : textIs p off bs) (hcur : cur = off) :
    readSlots c p (.bytes f k :: ts) st cur r
      = readSlots c p ts (st ++ [cur]) (off + 2 * k) (Record.set f (.ints (bs.map (fun b => (b.toNat : Int)))) r) := by
  subst hcur hk
  exact readSlots_cons (readSlot_bytes r (readBytes_ok (takeHex_of_tokensAre h)))

theorem readSlots_textRest {bs : List Byte} (hk : bs.length = (p.length - off) / 2) (h : textIs p off bs)
    (hcur : cur = off) :
    readSlots c p (.textRest f :: ts) st cur r
      = readSlots c p ts (st ++ [cur]) (off + 2 * bs.length) (Record.set f (.text (trimNulls bs)) r) := by
  subst hcur
  refine readSlots_cons (readSlot_textRest r ?_)
  rw [restBytes, ← hk]
  exact readText_ok (takeHex_of_tokensAre h)

theorem readSlots_bytesRest {bs : List Byte} (hk : bs.length = (p.length - off) / 2) (h : textIs p off bs)
    (hcur : cur = off) :
    readSlots c p (.bytesRest f :: ts) st cur r
      = readSlots c p ts (st ++ [cur]) (off + 2 * bs.length)
          (Record.set f (.ints (bs.map (fun b => (b.toNat : Int)))) r) := by
  subst hcur
  refine readSlots_cons (readSlot_bytesRest r ?_)
  rw [restBytes, ← hk]
  exact readBytes_ok (takeHex_of_tokensAre h)

theorem readSlots_statusFlags {b : Nat} (h : tokenIs p off 2 b) (hcur : cur = off) :
    readSlots c p (.statusFlags :: ts) st cur r
      = readSlots c p ts (st ++ [cur]) (off + 2) (setStatusFlags (BitVec.ofNat 8 b) r) := by
  subst hcur
  exact readSlots_cons (readSlot_statusFlags r (takeHex_of_tokenIs h))

theorem readSlots_narrow {u : Nat} (h : tokenIs p off 4 u) (hcur : cur = off) :
    readSlots c p (.narrow f :: ts) st cur r
      = readSlots c p ts (st ++ [cur]) (off + 4) (Record.set f (.dec ⟨numOf c f u, scaleCap⟩) r) := by
  subst hcur
  exact readSlots_cons (readSlot_narrow r (takeHex_of_tokenIs h))

theorem readSlots_wide {u : Nat} (hw : wideFlag r = true) (h : tokenIs p off 6 u) (hcur : cur = off) :
    readSlots c p (.wide f :: ts) st cur r
      = readSlots c p ts (st ++ [cur]) (off + 6) (Record.set f (.dec ⟨u, scaleCap⟩) r) := by
  subst hcur
  exact readSlots_cons (readSlot_wide hw (takeHex_of_tokenIs h))

theorem readSlots_wide_skipped (hw : wideFlag r = false) :
    readSlots c p (.wide f :: ts) st cur r = readSlots c p ts (st ++ [cur]) cur r :=
  readSlots_cons (readSlot_wide_narrow hw)

end

/-! ## A run of tokens of one width -/

/-- `r` with the tokens `us j`, `us (j + 1)`, and so on, stored under the fields `fs`. -/
def setTokens (c : Config) (us : Nat → Nat) (fs : List Field) (j : Nat) (r : Record) : Record :=
  (fs.zipIdx j).foldl (fun r e => Record.set e.1 (tokenValue c e.1 (us e.2)) r) r

theorem readSlots_tokens {c : Config} {p : List Byte} {off k : Nat} {us : Nat → Nat} {fs : List Field} {j : Nat}
    {st : List Nat} {r : Record} (hk : ∀ f ∈ fs, (tokenOf f).chars = k)
    (h : ∀ i < fs.length, tokenIs p (off + k * (j + i)) k (us (j + i))) :
    readSlots c p (fs.map .token) st (off + k * j) r
      = .ok (setTokens c us fs j r, off + k * (j + fs.length)) := by
  induction fs generalizing j st r with
  | nil => rfl
  | cons f fs ih =>
    have first : tokenIs p (off + k * j) k (us j) := h 0 (Nat.succ_pos _)
    have behind : ∀ i < fs.length, tokenIs p (off + k * (j + 1 + i)) k (us (j + 1 + i)) := fun i hi => by
      rw [Nat.add_assoc, Nat.add_comm 1]
      exact h (i + 1) (Nat.succ_lt_succ hi)
    have rest := ih (st := st ++ [off + k * j]) (r := Record.set f (tokenValue c f (us j)) r)
      (fun g hg => hk g (List.mem_cons_of_mem f hg)) behind
    rw [Nat.mul_succ, ← Nat.add_assoc] at rest
    rw [List.length_cons, Nat.add_comm fs.length, ← Nat.add_assoc]
    exact (readSlots_token first (hk f List.mem_cons_self) rfl).trans rest

/-! ## Behind the header fields (R194) -/

/-- A field is written behind all that precede it. -/
theorem set_append {f : Field} {front : Record} (v : Value) (r : Record)
    (h : ∀ e ∈ front, fieldOrder e.1 < fieldOrder f) : Record.set f v (front ++ r) = front ++ Record.set f v r := by
  induction front with
  | nil => rfl
  | cons e front ih =>
    obtain ⟨he, hfront⟩ := List.forall_mem_cons.mp h
    have other : f ≠ e.1 := fun hf => (hf ▸ he).ne rfl
    rw [List.cons_append, Record.set, if_neg he.not_gt, if_neg other, ih hfront, List.cons_append]

theorem set_behindHeader {f : Field} (hf : f ∉ headerFields) (v : Value) (h : Hdr) (p : List Byte) (r : Record) :
    Record.set f v (headerRecord h p ++ r) = headerRecord h p ++ Record.set f v r := by
  have names : (headerRecord h p).map Prod.fst = headerFields := rfl
  exact set_append v r fun e he => hdr_low (names ▸ List.mem_map_of_mem he) hf

/-- Slots that write no header field leave the header in front of the payload's fields. -/
theorem readSlots_keepsHeader {c : Config} {p q : List Byte} {h : Hdr} {l : Layout} {st : List Nat} {cur cur' : Nat}
    {r r' : Record} (hl : ∀ t ∈ l, ∀ f ∈ slotFields t, f ∉ headerFields) (hr : r = headerRecord h q ++ strip r)
    (hread : readSlots c p l st cur r = .ok (r', cur')) : r' = headerRecord h q ++ strip r' := by
  induction l generalizing st cur r with
  | nil =>
    cases hread
    exact hr
  | cons t ts ih =>
    obtain ⟨ht, hts⟩ := List.forall_mem_cons.mp hl
    simp only [readSlots] at hread
    split at hread
    · cases hread
    · rename_i slotRead
      refine ih hts (readSlot_writes (fun x => x = headerRecord h q ++ strip x) (fun f hf v x hx => ?_) hr slotRead) hread
      rw [strip_set v x (ht f hf), ← set_behindHeader (ht f hf), ← hx]

/-- A layout reads the same fields behind the header as it does alone. -/
theorem readLayout_behindHeader {c : Config} {p q : List Byte} {h : Hdr} {l : Layout} {cur : Nat} {r : Record}
    (hl : ∀ t ∈ l, ∀ f ∈ slotFields t, f ∉ headerFields) (hr : strip r = r) (hread : readLayout c p l [] = .ok (r, cur)) :
    readLayout c p l (headerRecord h q) = .ok (headerRecord h q ++ r, cur) := by
  have same : sameRead (readLayout c p l (headerRecord h q)) (readLayout c p l []) := same_slots rfl
  rw [hread] at same
  rcases same with ⟨e, -, he⟩ | ⟨x, _, _, hx, hok, hstrip⟩
  · cases he
  · cases hok
    rw [hx, readSlots_keepsHeader hl (by rfl) hx, hstrip, hr]

end Sys2Proof.Proofs
end

