-- ==== Sys2Proof/Proofs/Answers.lean ====
section
/-!
PROOF. The answers of the seven single commands (spec/43_response_decoder.md R195, R201 to R211, spec/44_orchestrator.md R247,
R252): each payload slot by slot in its default layout, and what the decode that succeeds or fails leaves.
-/

namespace Sys2Proof.Proofs

open Sys2Proof.Machine

/-! ## The end of a decode -/

section
variable {i : Instr} {w : WireCmd} {s : State} {k : Chk} {h : Hdr} {p : List Byte}

/-- A payload that decodes ends the command with the record, the header fields stripped from its copy in RESULT (R247). -/
theorem exec_singleDone {cur : Nat} {r : Record} (ha : Answered (.wire w) s k h p) (hi : i.cmd = .wire w)
    (hp : decodePayload s.cfg w h p (headerRecord h p) = .ok (headerRecord h p ++ r, cur)) (hr : strip r = r) :
    exec i s = .next (singleDone s k h p cur r) := by
  obtain ⟨hready, ho, hc, body, hd, hh⟩ := ha
  have stripped : strip (headerRecord h p ++ r) = r := by
    rw [strip, List.filter_append]
    exact hr
  rw [exec_answered hi hready hc ho hd hh hp, stripped]
  rfl

/-- A payload that does not decode takes a command in normal mode to Retrying (R195, R296). -/
theorem exec_payloadFormat {cur : Nat} {e : PayloadReason} (ha : Answered (.wire w) s k h p) (hi : i.cmd = .wire w)
    (hprobe : s.regs.probeMode = false) (hmax : s.cfg.retryMax = none)
    (hp : decodePayload s.cfg w h p (headerRecord h p) = .error (e, cur)) :
    exec i s
      = .next (retryEntered (.payloadFormat w p.length e) { s with chk := k, hdr := { h with cursor := cur } }) := by
  obtain ⟨hready, ho, hc, body, hd, hh⟩ := ha
  rw [exec_single_running hi hready hc (by rw [ho]; rfl), transactStep_decoding _ _ ho]
  simp only [decodingStep, decodeIntoRecord_accepted hd hh, hp]
  exact congrArg _ (failTransaction_normal _ hprobe hmax)

/-- A command whose payload is read by a layout ends with the record that the layout reads. -/
theorem exec_layoutDone {l : Layout} {cur : Nat} {r : Record} (ha : Answered (.wire w) s k h p) (hi : i.cmd = .wire w)
    (hw : decodePayload s.cfg w h p = readLayout s.cfg p l) (hl : ∀ t ∈ l, ∀ f ∈ slotFields t, f ∉ headerFields)
    (hr : strip r = r) (hp : readLayout s.cfg p l [] = .ok (r, cur)) : exec i s = .next (singleDone s k h p cur r) :=
  exec_singleDone ha hi ((congrFun hw _).trans (readLayout_behindHeader hl hr hp)) hr

end

/-! ## Fixed lengths (R195) -/

theorem decodePayload_wrongLength {c : Config} {w : WireCmd} {len : Nat} {h : Hdr} {p : List Byte} {r : Record}
    (hw : (w, len) ∈ [(WireCmd.systemparameter, 50), (WireCmd.chargingDischarge, 20), (WireCmd.serialnumber, 34)])
    (hlen : p.length ≠ len) : decodePayload c w h p r = .error (.wrongLength, 0) := by
  simp only [List.mem_cons, Prod.mk.injEq, List.not_mem_nil, or_false] at hw
  rcases hw with ⟨rfl, rfl⟩ | ⟨rfl, rfl⟩ | ⟨rfl, rfl⟩ <;> exact readFixed_error _ _ hlen

/-- Settles O27: the length is tested before the layout is read. -/
theorem fixedLengthIsExact : Obligations.FixedLengthIsExact := by
  intro w len i s k h p hw ha hi hprobe hmax hlen
  exact ⟨_, exec_payloadFormat ha hi hprobe hmax (decodePayload_wrongLength hw hlen)⟩

/-! ## The answers -/

/-- Settles O28: no field of the payload is read (R201). -/
theorem protocolAnswer : Obligations.ProtocolAnswer := fun _ _ _ _ _ ha =>
  exec_singleDone ha rfl rfl rfl

/-- Settles O29: a text, two bytes and a text of all whole bytes left. -/
theorem manufactoryAnswer : Obligations.ManufactoryAnswer := by
  intro idx s k h p name maker major minor ha hlayout hname hmaker htext hmajor hminor hrest
  have byLayout : decodePayload s.cfg .manufactory h p = readLayout s.cfg p layoutManufactory := by
    funext r
    rw [decodePayload, decodeManufactory, hlayout]
  refine exec_layoutDone ha rfl byLayout (by decide) rfl ?_
  refine (readSlots_text hname htext rfl).trans ?_
  refine (readSlots_bytes rfl (textIs_pair hmajor hminor) rfl).trans ?_
  refine (readSlots_textRest hmaker hrest rfl).trans ?_
  simp only [List.map_cons, List.map_nil, toNat_ofNat_byte hmajor, toNat_ofNat_byte hminor]
  rfl

/-- The fields of an analog answer (R203, R207), the capacities read from whichever tokens. -/
def analogFields (info cv : Nat) (cells temps : List Nat) (cur volt flag cyc remaining total : Nat) : Record :=
  [(.infoFlag, .int info), (.commandValue, .int cv), (.cellCount, .int cells.length),
   (.cellVoltages, .decs (cells.map (fun v : Nat => ⟨(v : Int), 1000⟩))), (.temperatureCount, .int temps.length),
   (.temperatures, .decs (temps.map (fun v : Nat => ⟨(v : Int) - 2731, 10⟩))),
   (.current, .dec ⟨if 32768 ≤ cur then (cur : Int) - 65536 else cur, 10⟩), (.moduleVoltage, .dec ⟨volt, 1000⟩),
   (.detectedCapacity, .int flag), (.cycleCount, .int cyc), (.remainingCapacity, .dec ⟨remaining, 1000⟩),
   (.moduleCapacity, .dec ⟨total, 1000⟩)]

/-- The flag decides whether the capacities are read again (R207). -/
theorem wideFlag_analogFields (info cv : Nat) (cells temps : List Nat) (cur volt flag cyc remaining total : Nat) :
    wideFlag (analogFields info cv cells temps cur volt flag cyc remaining total) = decide (flag = 4) := by
  have stored : Record.get? .detectedCapacity (analogFields info cv cells temps cur volt flag cyc remaining total)
      = some (.int flag) := rfl
  rw [wideFlag, stored, decide_eq_decide, Option.some.injEq, Value.int.injEq]
  exact Nat.cast_inj

/-- Settles O30: ten slots up to CycleCount whatever the flag; then the two wide capacities are skipped, or take the place of
the narrow ones. -/
theorem analogAnswer : Obligations.AnalogAnswer := by
  intro idx s k h p info cv cells temps cur volt rem4 flag cap4 cyc c0 ha hlayout hsigned hinfo hcv hcells cellTokens htemps
    tempTokens hc0 hcur hvolt hrem hflag hcap hcyc
  have byLayout : decodePayload s.cfg .analog h p = readLayout s.cfg p layoutAnalog := by
    funext r
    rw [decodePayload, decodeAnalog, hlayout]
  have narrow {x : Read Record} (wide : ∀ st, readSlots s.cfg p [.wide .remainingCapacity, .wide .moduleCapacity] st
      (c0 + 14) (analogFields info cv cells temps cur volt flag cyc rem4 cap4) = x) :
      readLayout s.cfg p layoutAnalog [] = x := by
    refine (readSlots_token hinfo rfl rfl).trans ?_
    refine (readSlots_token hcv rfl rfl).trans ?_
    refine (readSlots_counted hcells (readList_scaled rfl (takeHex_of_tokensAre cellTokens)) rfl rfl).trans ?_
    refine (readSlots_counted htemps (readList_temp rfl (takeHex_of_tokensAre tempTokens)) rfl (by omega)).trans ?_
    refine (readSlots_token hcur rfl (by omega)).trans ?_
    refine (readSlots_token hvolt rfl (by omega)).trans ?_
    refine (readSlots_narrow hrem (by omega)).trans ?_
    refine (readSlots_token hflag rfl rfl).trans ?_
    refine (readSlots_narrow hcap rfl).trans ?_
    refine (readSlots_token hcyc rfl rfl).trans ?_
    rw [numOf_default hsigned, tokenValue_default hsigned]
    exact wide _
  have flagRead (remaining : Nat) := wideFlag_analogFields info cv cells temps cur volt flag cyc remaining cap4
  refine ⟨fun hn => ?_, fun hw rem6 cap6 hrem6 hcap6 => ?_⟩
  · have skipped := (flagRead rem4).trans (decide_eq_false hn)
    refine exec_layoutDone ha rfl byLayout (by decide) rfl (narrow fun st => ?_)
    exact (readSlots_wide_skipped skipped).trans (readSlots_wide_skipped skipped)
  · subst hw
    refine exec_layoutDone ha rfl byLayout (by decide) rfl (narrow fun st => ?_)
    exact (readSlots_wide (flagRead rem4) hrem6 rfl).trans (readSlots_wide (flagRead rem6) hcap6 rfl)

/-- Settles O31: two lists behind their counts, three alarms, and all whole bytes left. -/
theorem alarmAnswer : Obligations.AlarmAnswer := by
  intro idx s k h p rest info cv cells temps ch v dis o ha hlayout hinfo hcv hcells cellTokens htemps tempTokens ho hch hv
    hdis hrest restTokens
  have byLayout : decodePayload s.cfg .alarm h p = readLayout s.cfg p layoutAlarm := by
    funext r
    rw [decodePayload, decodeAlarm, hlayout]
  refine exec_layoutDone ha rfl byLayout (by decide) rfl ?_
  refine (readSlots_token hinfo rfl rfl).trans ?_
  refine (readSlots_token hcv rfl rfl).trans ?_
  refine (readSlots_counted hcells (readList_alarm rfl (takeHex_of_tokensAre cellTokens)) rfl rfl).trans ?_
  refine (readSlots_counted htemps (readList_alarm rfl (takeHex_of_tokensAre tempTokens)) rfl (by omega)).trans ?_
  refine (readSlots_token hch rfl ho.symm).trans ?_
  refine (readSlots_token hv rfl rfl).trans ?_
  refine (readSlots_token hdis rfl rfl).trans ?_
  exact readSlots_bytesRest hrest restTokens rfl

/-- Settles O33: five tokens and the status byte, at the exact length. -/
theorem chargingDischargeAnswer : Obligations.ChargingDischargeAnswer := by
  intro idx s k h p cv cvl dvl ccl dcl b ha hlayout hsigned hlen hcv hcvl hdvl hccl hdcl hb
  have byLayout : decodePayload s.cfg .chargingDischarge h p = readLayout s.cfg p layoutChargingDischarge := by
    funext r
    rw [decodePayload, decodeChargingDischarge, hlayout, readFixed_ok (len := lenMgmt) _ _ hlen]
  refine exec_layoutDone ha rfl byLayout (by decide) rfl ?_
  refine (readSlots_token hcv rfl rfl).trans ?_
  refine (readSlots_token hcvl rfl rfl).trans ?_
  refine (readSlots_token hdvl rfl rfl).trans ?_
  refine (readSlots_token hccl rfl rfl).trans ?_
  refine (readSlots_token hdcl rfl rfl).trans ?_
  refine (readSlots_statusFlags hb rfl).trans ?_
  rw [setStatusFlags_of_tokenIs hb, tokenValue_default hsigned]
  rfl

/-- The fields of the limits of a system parameter answer, in their order (R210). -/
def limitFields : List Field :=
  [.cellHighVoltageLimit, .cellLowVoltageLimit, .cellUnderVoltageLimit, .chargeHighTemperatureLimit,
   .chargeLowTemperatureLimit, .chargeCurrentLimit, .moduleHighVoltageLimit, .moduleLowVoltageLimit,
   .moduleUnderVoltageLimit, .dischargeHighTemperatureLimit, .dischargeLowTemperatureLimit, .dischargeCurrentLimit]

theorem layoutSystemparameter_eq : layoutSystemparameter = .token .infoFlag :: limitFields.map .token := rfl

/-- Settles O34: a byte and twelve tokens of four characters, at the exact length. -/
theorem systemparameterAnswer : Obligations.SystemparameterAnswer := by
  intro idx s k h p info x ha hlayout hsigned hlen hx hinfo limits
  have width : ∀ f ∈ limitFields, (tokenOf f).chars = 4 := by decide
  have limit (j : Nat) (hj : j < limitFields.length) : tokenIs p (2 + 4 * (0 + j)) 4 (x.getD (0 + j) 0) := by
    have inside : j < x.length := hx ▸ hj
    rw [Nat.zero_add, List.getD_eq_getElem _ _ inside]
    exact limits j inside
  have byLayout : decodePayload s.cfg .systemparameter h p = readLayout s.cfg p layoutSystemparameter := by
    funext r
    rw [decodePayload, decodeSystemparameter, hlayout, readFixed_ok (len := lenSysparam) _ _ hlen]
  refine exec_layoutDone ha rfl byLayout (by decide) rfl ?_
  rw [layoutSystemparameter_eq]
  refine (readSlots_token hinfo rfl rfl).trans ?_
  refine (readSlots_tokens (us := fun j => x.getD j 0) width limit).trans ?_
  rw [setTokens, tokenValue_default hsigned]
  rfl

/-- Settles O35: a byte and a text, at the exact length. -/
theorem serialnumberAnswer : Obligations.SerialnumberAnswer := by
  intro idx s k h p text cv ha hlayout hlen htext hcv chars
  have byLayout : decodePayload s.cfg .serialnumber h p = readLayout s.cfg p layoutSerialnumber := by
    funext r
    rw [decodePayload, decodeSerialnumber, hlayout, readFixed_ok (len := lenSerial) _ _ hlen]
  refine exec_layoutDone ha rfl byLayout (by decide) rfl ?_
  refine (readSlots_token hcv rfl rfl).trans ?_
  exact readSlots_text htext chars rfl

end Sys2Proof.Proofs
end

