-- ==== Sys2Proof/Proofs/StepEffects.lean ====
section
/-!
PROOF. What a step of the whole machine can do, from what each move can do: it stops only where parameters are refused
(spec/93_implementation_defined.md U31), it moves ORCH_STATE along the table (spec/44_orchestrator.md R251), and after
discovery it leaves MODULE_COUNT alone (R264).
-/

namespace Sys2Proof.Proofs

open Sys2Proof.Machine

/-! ## Stopping -/

/-- Settles O54: every step from a state with the invariant answers a next state, or is the release of RESET with
parameters that are refused. -/
theorem stepNeverStops : Obligations.StepNeverStops := by
  intro s hi
  rcases step_inv_or_refused hi with ⟨t, ht, -⟩ | ⟨c, rest, hin, hc, hrefused⟩
  · refine ⟨fun r hr => ?_, fun r hr => ?_⟩
    · cases ht.symm.trans hr
    · cases ht.symm.trans hr
  · refine ⟨fun r hr => ?_, fun r hr => ?_⟩
    · cases hrefused.symm.trans hr
    · cases hrefused.symm.trans hr
      exact ⟨rfl, c, rest, hin, hc⟩

/-! ## ORCH_STATE, LAST_ERR and MODULE_COUNT under each move -/

/-- Discovery has not ended, so that the next move of the engine may be one of discovery (R262, R263). -/
def discoveryMoves (s : State) : Bool :=
  !s.flags.ready || decide (s.seq.orch = .discovering)

/-- A move outside discovery does no more than a move that may be one of discovery. -/
theorem eff_weaken {d : Bool} {s t : State} (h : Eff false s t) : Eff d s t :=
  ⟨h.trans, h.err, .inr (h.count.resolve_left nofun)⟩

theorem eff_refl (d : Bool) (s : State) : Eff d s s :=
  eff_of (trans_refl _) rfl rfl rfl

/-- The engine's own step: the start of discovery, a transaction of discovery or of the latched command, or the way from
Done to Idle (R251). -/
theorem eff_engineStep {s t : State} (h : engineStep s = .next t) : Eff (discoveryMoves s) s t := by
  have transaction (h : (if s.flags.ready then exec (latched s) s else transactStep .serialnumber .discovery s) = .next t) :
      Eff (discoveryMoves s) s t := by
    cases hr : s.flags.ready with
    | true =>
      rw [hr, if_pos rfl] at h
      exact eff_weaken (eff_exec h)
    | false =>
      rw [hr, if_neg (by decide)] at h
      rw [show discoveryMoves s = true by simp [discoveryMoves, hr]]
      exact eff_transact h
  unfold engineStep at h
  split at h
  · cases h
    exact eff_refl _ _
  · cases ho : s.seq.orch <;> rw [ho] at h
    case discovering =>
      cases h
      rw [show discoveryMoves s = true by simp [discoveryMoves, ho]]
      exact eff_loop (u := setDisc 0 s) (by rw [ho]; rfl) (by rw [ho]; rfl) rfl
    case idle =>
      cases h
      exact eff_refl _ _
    case done =>
      cases h
      exact eff_of (by rw [ho]; rfl) rfl rfl rfl
    case sending | awaiting | decoding | retrying => exact transaction h

/-- A pulse of CMD_START is the accept of a command, the end of an unknown one, or nothing (R241). -/
theorem eff_commandPulse {d : Bool} {name : List Byte} {idx : Option Int} {s t : State}
    (h : commandPulse name idx s = .next t) : Eff d s t := by
  unfold commandPulse at h
  split at h
  · rename_i hidle
    split at h
    · exact eff_weaken (eff_exec h)
    · cases h
      exact eff_finishNone (by rw [hidle.2]; rfl) rfl rfl rfl
  · cases h
    exact eff_refl _ _

theorem eff_receiveByte (d : Bool) (b : Byte) (s : State) : Eff d s (receiveByte b s) := by
  rcases receiveByte_cases b s with ⟨-, e⟩ | ⟨-, -, _, _, e, -⟩
  · rw [e]
    exact eff_refl _ _
  · rw [e]
    exact eff_of (trans_refl _) rfl rfl rfl

/-- The release of RESET samples the parameters and starts nothing itself (R320). -/
theorem eff_releaseReset {d : Bool} {c : Config} {s t : State} (h : releaseReset c s = .next t) : Eff d s t := by
  unfold releaseReset at h
  split at h
  · split at h
    · cases h
      exact eff_of (trans_refl _) rfl rfl rfl
    · cases h
  · cases h
    exact eff_refl _ _

/-- Every move but the assertion of RESET. -/
theorem eff_applyInput {i : Input} {s t : State} (hi : i ≠ .resetAssert) (h : applyInput i s = .next t) :
    Eff (discoveryMoves s) s t := by
  cases i with
  | engine => exact eff_engineStep h
  | time d =>
    cases h
    exact eff_of (trans_refl _) rfl rfl rfl
  | byte b =>
    cases h
    exact eff_receiveByte _ b s
  | stop level =>
    cases h
    exact eff_of (trans_refl _) rfl rfl rfl
  | command name idx => exact eff_commandPulse h
  | resetAssert => exact absurd rfl hi
  | resetRelease c => exact eff_releaseReset h

theorem eff_step {s t : State} (hn : noResetNext s) (h : step s = .next t) : Eff (discoveryMoves s) s t := by
  unfold step machineStep at h
  cases hin : s.env.inputs with
  | nil =>
    rw [hin] at h
    exact eff_engineStep h
  | cons i rest =>
    rw [hin] at h
    have moved := eff_applyInput (fun hi => hn rest (hi ▸ hin)) h
    exact ⟨moved.trans, moved.err, moved.count⟩

/-! ## Transitions and the count -/

/-- Settles O55: no move but the assertion of RESET leaves the table. -/
theorem transitionsAreThoseOfTheTable : Obligations.TransitionsAreThoseOfTheTable :=
  fun _ _ hn h => (eff_step hn h).trans

/-- Settles O56: after discovery no probe-mode transaction runs, and only such a one, or the start of discovery, writes the
count. -/
theorem moduleCountIsImmutable : Obligations.ModuleCountIsImmutable := by
  intro s t hi hr hn h
  have ended : discoveryMoves s = false := by simp [discoveryMoves, hr, hi.discovered hr]
  rcases (eff_step hn h).count with moves | ⟨probing, running⟩ | ⟨hcount, hready⟩
  · exact absurd (ended.symm.trans moves) nofun
  · have normal := hi.probe running
    rw [hr, probing] at normal
    exact absurd normal nofun
  · exact ⟨hcount, hready.trans hr⟩

end Sys2Proof.Proofs
end

