-- ==== Sys2Proof/Proofs/RoundFold.lean ====
section
/-!
PROOF. The fold of a status round (spec/44_orchestrator.md R253 to R260): which sums, extremes and conjunctions its values are,
which fields of the records it reads, and the end of the round that makes it.
-/

namespace Sys2Proof.Proofs

open Sys2Proof.Machine

/-! ## The percentage (R260) -/

theorem percentOf_zero (remaining : Int) : percentOf remaining 0 = 0 := rfl

theorem percentOf_mul_total (remaining : Int) {total : Int} (h : total ≠ 0) :
    percentOf remaining total * (total : Rat) = (remaining : Rat) * 100 := by
  have nonzero : (total : Rat) ≠ 0 := Int.cast_ne_zero.mpr h
  rw [percentOf, if_neg h, mul_right_comm, div_mul_cancel₀ _ nonzero]

/-- Settles O47: the sums are the fold's own; the percentage is the remaining sum over the total one. -/
theorem foldSumsOverTheModules : Obligations.FoldSumsOverTheModules := by
  refine fun l => ⟨rfl, rfl, rfl, rfl, rfl, rfl, fun h => ?_, fun h => ?_⟩
  · exact (congrArg (percentOf _) h).trans (percentOf_zero _)
  · exact percentOf_mul_total _ h

/-! ## The extremes (R258) -/

theorem leastOf_eq_min? (xs : List Int) : leastOf xs = xs.min? := by
  induction xs with
  | nil => rfl
  | cons x xs ih =>
    rw [leastOf, ih, List.min?_cons]
    cases xs.min? with
    | none => rfl
    | some y => exact congrArg some (min_def x y).symm

theorem greatestOf_eq_max? (xs : List Int) : greatestOf xs = xs.max? := by
  induction xs with
  | nil => rfl
  | cons x xs ih =>
    rw [greatestOf, ih, List.max?_cons]
    cases xs.max? with
    | none => rfl
    | some y => exact congrArg some (max_def' x y).symm

theorem isLeast_leastOf (den : Nat) (xs : List Int) : isLeast den xs (extreme den (leastOf xs)) := by
  rw [leastOf_eq_min?]
  refine ⟨by simp [extreme], fun d hd => ?_⟩
  obtain ⟨n, hn, rfl⟩ := Option.map_eq_some_iff.mp hd
  exact ⟨rfl, List.min?_eq_some_iff.mp hn⟩

theorem isGreatest_greatestOf (den : Nat) (xs : List Int) : isGreatest den xs (extreme den (greatestOf xs)) := by
  rw [greatestOf_eq_max?]
  refine ⟨by simp [extreme], fun d hd => ?_⟩
  obtain ⟨n, hn, rfl⟩ := Option.map_eq_some_iff.mp hd
  exact ⟨rfl, List.max?_eq_some_iff.mp hn⟩

/-- Settles O48: the cells and the temperatures of all modules are put in one list each, of which the extremes are taken. -/
theorem extremesRangeOverEveryModule : Obligations.ExtremesRangeOverEveryModule := fun _ =>
  ⟨isLeast_leastOf 1000 _, isGreatest_greatestOf 1000 _, isLeast_leastOf 10 _, isGreatest_greatestOf 10 _⟩

/-! ## The alarm booleans (R259) -/

theorem allOk_iff (l : List AlarmState) : allOk l = true ↔ ∀ a ∈ l, a = .ok := by
  simp [allOk]

theorem currentOk_iff (m : ModuleReading) :
    currentOk m = true ↔ m.chargeCurrentAlarm = .ok ∧ m.dischargeCurrentAlarm = .ok := by
  simp [currentOk]

/-- Settles O49: each boolean is a conjunction over the modules of what its class says of one module. -/
theorem healthIsTheConjunction : Obligations.HealthIsTheConjunction := by
  intro l
  simp only [foldReadings, List.all_eq_true, allOk_iff, currentOk_iff, decide_eq_true_eq, and_self]

/-! ## What is read of the records (R256 to R259) -/

/-- The fold reads of a module what the named fields of its records hold. -/
theorem readModule_of_readingIs {m : ModuleSnapshot} {x : ModuleReading} (h : ReadingIs m x) : readModule m = some x := by
  have analog : readAnalogRecord m.analog
      = some (x.moduleCapacity, x.remainingCapacity, x.current, x.moduleVoltage, x.cellVoltages, x.temperatures) := by
    simp [readAnalogRecord, h.moduleCapacity, h.remainingCapacity, h.current, h.moduleVoltage, h.cellVoltages,
      h.temperatures, Value.num?, Value.nums?, Function.comp_def]
  have alarm : readAlarmRecord m.alarm = some (x.cellAlarms, x.temperatureAlarms, x.chargeCurrentAlarm,
      x.dischargeCurrentAlarm, x.moduleVoltageAlarm) := by
    simp [readAlarmRecord, h.cellAlarms, h.temperatureAlarms, h.chargeCurrentAlarm, h.dischargeCurrentAlarm,
      h.moduleVoltageAlarm, Value.alarm?, Value.alarms?]
  simp only [readModule, analog, alarm]

theorem readModules_of_readings {mods : List ModuleSnapshot} {l : List ModuleReading} (h : List.Forall₂ ReadingIs mods l) :
    readModules mods = some l := by
  induction h with
  | nil => rfl
  | cons first _ rest => simp only [readModules, readModule_of_readingIs first, rest]

theorem fold_of_readings {mods : List ModuleSnapshot} {l : List ModuleReading} (h : List.Forall₂ ReadingIs mods l) :
    fold mods = some (foldReadings l) := by
  simp only [fold, readModules_of_readings h]

/-! ## The end of a round (R253) -/

/-- A round ends in RECORD when the fold finds its fields. -/
theorem completeRound_folded {s : State} {c : Calculated} (h : fold s.out.snap = some c) :
    completeRound s = .next (finish .record (.stack ⟨s.out.snap, c⟩)
      { s with out := { s.out with lastSnapshot := some ⟨s.out.snap, c⟩ } }) := by
  simp only [completeRound, h]

/-- The last query of the last module is followed by the fold. -/
theorem roundOk_last {s : State} (r : Record) (h : s.seq.seqQ = .systemparameter)
    (hm : s.regs.moduleCount ≤ s.seq.seqM + 1) :
    roundOk r s = completeRound
      (setSnap ModuleSnapshot.empty (s.out.snap ++ [{ s.out.snapM with systemParameter := r }]) s) := by
  simp only [roundOk, h, RoundQuery.next?, ModuleSnapshot.put, if_neg (Nat.not_lt.mpr hm)]

/-- Settles O46: the records of the round are the finished modules and the one whose last answer has come, and the fold finds
its fields in them. -/
theorem statusRoundCompletes : Obligations.StatusRoundCompletes := by
  intro idx s u r mods l hr hc ho hq hm hd hmods hlen hread
  have readings : List.Forall₂ ReadingIs mods l := List.forall₂_iff_get.mpr ⟨hlen.symm, hread⟩
  have folded := fold_of_readings readings
  have hu := decodeIntoRecord_ok hd
  have answered : decodeIntoRecord s.seq.seqQ.toWire s = (u, .ok r) := by rw [hq]; exact hd
  rw [exec_status_answered idx hr hc ho answered]
  generalize u.chk = k, u.hdr = h at hu
  subst hu hmods
  rw [roundOk_last (s := { s with chk := k, hdr := h, out := { s.out with record := r } }) _ hq hm]
  exact completeRound_folded (s := setSnap ModuleSnapshot.empty _ _) folded

end Sys2Proof.Proofs
end

