-- ==== Sys2Proof/Proofs/CommandAccept.lean ====
section
/-!
PROOF. A pulse of CMD_START and the step it gives (spec/44_orchestrator.md R241, R251, R252, spec/60_exceptions.md R312):
which pulses are let in, what the accept of each command leaves, and the module index (R265).
-/

namespace Sys2Proof.Proofs

open Sys2Proof.Machine

/-! ## The next input -/

theorem step_engine {s : State} {rest : List Input} (h : s.env.inputs = .engine :: rest) :
    step s = engineStep (setInputs rest s) := by
  simp only [step, machineStep, h, applyInput]

theorem step_noInput {s : State} (h : s.env.inputs = []) : step s = engineStep s := by
  simp only [step, machineStep, h]

theorem step_command {s : State} {name : List Byte} {idx : Option Int} {rest : List Input}
    (h : s.env.inputs = .command name idx :: rest) : step s = commandPulse name idx (setInputs rest s) := by
  simp only [step, machineStep, h, applyInput]

/-- Settles O6: the pulse is let in, and its name decodes. -/
theorem stepRunsThePulsedCommand : Obligations.StepRunsThePulsedCommand := by
  intro s name idx rest i hin hr ho hi
  rw [step_command hin, commandPulse, if_pos ⟨hr, ho⟩, hi]

/-- Settles O8: the pulse is not let in. -/
theorem pulseIsIgnoredUnlessReadyAndIdle : Obligations.PulseIsIgnoredUnlessReadyAndIdle := by
  intro s name idx rest hin hoff
  have notLetIn : ¬ (s.flags.ready = true ∧ s.seq.orch = .idle) := fun ⟨hr, ho⟩ =>
    hoff.elim (fun h => Bool.false_ne_true (h.symm.trans hr)) (fun h => h ho)
  rw [step_command hin, commandPulse]
  exact if_neg notLetIn

/-! ## The engine's step -/

/-- While a command is in progress the engine's step is exec of the latched command. -/
theorem engineStep_latched {s : State} (hn : s.env.inReset = false) (hr : s.flags.ready = true)
    (ho : inTransaction s.seq.orch = true) :
    engineStep s = exec (Instr.ofCmd s.regs.cmd (some (s.regs.midx : Int))) s :=
  (engineStep_running hn ho).trans (exec_eq_running (cmd_ofCmd _ _) hr ho).symm

theorem engineStep_idle {s : State} (hn : s.env.inReset = false) (ho : s.seq.orch = .idle) : engineStep s = .next s := by
  simp [engineStep, hn, ho]

theorem engineStep_done {s : State} (hn : s.env.inReset = false) (ho : s.seq.orch = .done) :
    engineStep s = .next (toIdle s) := by
  simp [engineStep, hn, ho]

/-- In Done, exec of the command in progress ends the DONE pulse (R252). -/
theorem exec_done {i : Instr} {s : State} (hi : i.cmd = s.regs.cmd) (hr : s.flags.ready = true) (ho : s.seq.orch = .done) :
    exec i s = .next (toIdle s) := by
  rw [instr_eta i]
  cases hc : i.cmd with
  | wire w => simp [exec_wire, runSingle, hr, ho, ← hi, hc]
  | status => simp [Instr.ofCmd, exec, execStatus, runStatus, hr, ho, ← hi, hc]

/-- Settles O7: in a transaction, in Done and in Idle, with no input waiting and with the engine's turn next. -/
theorem stepContinuesTheLatchedCommand : Obligations.StepContinuesTheLatchedCommand := by
  intro s rest hn
  refine ⟨fun hr ho => ⟨fun hin => ?_, fun hin => ?_⟩, fun ho => ⟨⟨fun i hr hi => ?_, fun _ hin => ?_⟩, fun hin => ?_⟩,
    fun ho => ⟨fun hin => ?_, fun hin => ?_⟩⟩
  · exact (step_noInput hin).trans (engineStep_latched hn hr ho)
  · exact (step_engine hin).trans (engineStep_latched (s := setInputs rest s) hn hr ho)
  · exact exec_done hi hr ho
  · exact (step_noInput hin).trans (engineStep_done hn ho)
  · exact (step_engine hin).trans (engineStep_done (s := setInputs rest s) hn ho)
  · exact (step_noInput hin).trans (engineStep_idle hn ho)
  · exact (step_engine hin).trans (engineStep_idle (s := setInputs rest s) hn ho)

/-! ## The module index (R265) -/

theorem clamp_none (count : Nat) : clamp none count = 0 := rfl

theorem clamp_count_zero (idx : Option Int) : clamp idx 0 = 0 := by
  cases idx <;> simp [clamp]

theorem clamp_negative {n : Int} (count : Nat) (h : n < 0) : clamp (some n) count = 0 := by
  simp [clamp, h]

theorem clamp_past {n : Int} {count : Nat} (hc : 0 < count) (h : (count : Int) ≤ n) : clamp (some n) count = count - 1 := by
  have inside : ¬ (n < 0 ∨ count = 0) := by omega
  simp only [clamp, if_neg inside, if_pos h]

theorem clamp_within {n : Int} {count : Nat} (h0 : 0 ≤ n) (h : n < (count : Int)) : (clamp (some n) count : Int) = n := by
  have inside : ¬ (n < 0 ∨ count = 0) := by omega
  simp only [clamp, if_neg inside, if_neg (Int.not_le.mpr h), Int.toNat_of_nonneg h0]

/-- Settles O10: a missing, a negative, a late and a fitting index, and no module at all. -/
theorem clampFollowsTheRule : Obligations.ClampFollowsTheRule := by
  refine fun idx count => ⟨?_, ?_, ?_, ?_, ?_⟩
  · rintro rfl
    exact clamp_none count
  · rintro rfl
    exact clamp_count_zero idx
  · rintro n rfl
    exact clamp_negative count
  · rintro n rfl
    exact clamp_past
  · rintro n rfl
    exact clamp_within

/-! ## Accept (R241) -/

/-- What accept leaves before the stop decides, the stop having been sampled. -/
theorem acceptCommand_eq (c : Cmd) (idx : Option Int) (s : State) :
    acceptCommand c idx s = { s with
      flags := { s.flags with resultKind := .nothing, stopSeen := s.env.stop, lastErr := none, busy := true }
      regs := { s.regs with cmd := c, midx := clamp idx s.regs.moduleCount } } := by
  cases h : s.env.stop <;> simp [acceptCommand, sampleStop, latchCommand, clearForCommand, h]

theorem exec_wire_idle {w : WireCmd} {idx : Option Int} {s : State} (hr : s.flags.ready = true) (ho : s.seq.orch = .idle) :
    exec (Instr.ofCmd (.wire w) idx) s = .next (acceptSingle w idx s) := by
  simp only [exec_wire, runSingle, hr, ho, if_true]

theorem exec_status_idle {idx : Option Int} {s : State} (hr : s.flags.ready = true) (ho : s.seq.orch = .idle) :
    exec (.status idx) s = acceptStatus idx s := by
  simp only [exec, execStatus, runStatus, hr, ho, if_true]

/-- Settles O11: an Idle engine accepts, no stop is sampled, and the transaction starts at the clamped index. -/
theorem singleCommandIsAccepted : Obligations.SingleCommandIsAccepted := by
  intro w idx s hr ho hs
  rw [exec_wire_idle hr ho, acceptSingle, acceptCommand_eq, hs]
  rfl

/-- Settles O12: whichever command is accepted, its stop decides before anything starts. -/
theorem stopAtAcceptGivesNull : Obligations.StopAtAcceptGivesNull := by
  intro i s hr ho hs
  rw [instr_eta i, cmd_ofCmd, idx_ofCmd]
  cases i.cmd with
  | wire w =>
    rw [exec_wire_idle hr ho, acceptSingle, acceptCommand_eq, hs]
    rfl
  | status =>
    rw [show Instr.ofCmd .status i.idx = .status i.idx from rfl, exec_status_idle hr ho, acceptStatus, acceptCommand_eq, hs]
    rfl

/-- Without a stop the accept of `status` is the start of its round. -/
theorem acceptStatus_starts {idx : Option Int} {s : State} (hs : s.env.stop = false) :
    acceptStatus idx s = startRound (acceptCommand .status idx s) := by
  simp only [acceptStatus, hs, Bool.false_eq_true, if_false]

/-- Settles O13: the round has a module to poll, and no stop is sampled before its first query. -/
theorem statusStartsItsRound : Obligations.StatusStartsItsRound := by
  intro idx s hr ho hs hm
  rw [exec_status_idle hr ho, acceptStatus_starts hs, acceptCommand_eq, startRound, if_neg (Nat.ne_of_gt hm), hs]
  exact congrArg _ (roundQuery_starts 0 .analog hs)

theorem fold_nil : fold [] = some emptyStack.calculated := rfl

/-- Settles O14: the round ends before its first query, with the fold over nothing. -/
theorem statusOverNoModule : Obligations.StatusOverNoModule := by
  intro idx s hr ho hs hm
  rw [exec_status_idle hr ho, acceptStatus_starts hs, acceptCommand_eq, startRound, if_pos hm,
    completeRound_folded fold_nil, hs, hm, clamp_count_zero]
  rfl

end Sys2Proof.Proofs
end

