-- ==== Sys2Proof/Proofs/DecodeOutcome.lean ====
section
/-!
PROOF. How a decode comes out (spec/44_orchestrator.md R245, spec/60_exceptions.md R294): the error and the registers that the
first failing check leaves, with the payload checks of the two probes' answers, `serialnumber` (R195, R211) and `protocol` (R201).
-/

namespace Sys2Proof.Proofs

open Sys2Proof.Machine

/-! ## The first failing check -/

/-- A decode fails by the codec's check, the header's or the payload's, and leaves what that check does; `payload` says so of
the payload of query `w`. -/
theorem decodeAnswer_of_decodeFails {w : WireCmd} {s : State} {k : Chk} {h : Hdr} {e : EngineError}
    (payload : ∀ h p r off reason, PayloadFails s.cfg w p off reason → decodePayload s.cfg w h p r = .error (reason, off))
    (hf : DecodeFails w s k h e) : decodeAnswer w s = ({ s with chk := k, hdr := h }, .error e) := by
  rcases hf with ⟨codec, rfl⟩ | ⟨body, x, codec, header, rfl⟩ | ⟨body, h', p, off, reason, codec, header, hp, rfl, rfl⟩
  · simp only [decodeAnswer, codec]
  · simp only [decodeAnswer, codec, decodeResponse, header]
  · simp only [decodeAnswer, codec, decodeResponse, header, payload _ _ _ _ _ hp]

/-- An error of the decoder clears RECORD, one of the codec leaves it (R190, log 10). -/
theorem decodeIntoRecord_of_decodeAnswer_error {w : WireCmd} {s u : State} {e : EngineError}
    (h : decodeAnswer w s = (u, .error e)) : ∃ r, decodeIntoRecord w s = (setRecord r u, .error e) := by
  cases e with
  | header x => exact ⟨[], by simp only [decodeIntoRecord, h]⟩
  | payloadFormat v n x => exact ⟨[], by simp only [decodeIntoRecord, h]⟩
  | transportTimeout | framing x | checksum c d | protocolMisuse n =>
    exact ⟨u.out.record, by simp only [decodeIntoRecord, h]; rfl⟩

/-! ## The answer to `protocol` (R201) -/

/-- No payload fails as an answer to `protocol`: it has no fixed length and no token is read (R195, R201). -/
theorem not_payloadFails_protocol {c : Config} {p : List Byte} {off : Nat} {reason : PayloadReason} :
    ¬ PayloadFails c .protocol p off reason := by
  rintro (⟨len, hlen, -⟩ | ⟨-, -, n, m, k, wide, pre, post, split, -⟩)
  · cases hlen
  · exact List.append_ne_nil_of_right_ne_nil pre (List.cons_ne_nil _ _) split.symm

/-- An answer to `protocol` decodes once its header does, whatever its payload (R201). -/
theorem decodeAnswer_protocol_accepted {s : State} {k : Chk} {h : Hdr} {body p : List Byte}
    (hd : decodeFrame s.frame s.chk = (k, .ok body)) (hh : decodeHeader body s.hdr = (h, .ok p)) :
    ∃ r, decodeAnswer .protocol s = ({ s with chk := k, hdr := { h with cursor := 0 } }, .ok r) :=
  ⟨_, by simp only [decodeAnswer, hd, decodeResponse, hh, decodePayload, decodeProtocol]; rfl⟩

/-! ## The answer to `serialnumber` (R195, R211) -/

/-- The default layout of a serial number takes its seventeen tokens in order (R211). -/
theorem takes_layoutSerialnumber (c : Config) (p : List Byte) (r : Record) (n m : Nat) (wide : Bool) (len : Nat) :
    Takes p (tokenReads p) (payloadTokens .serialnumber n m wide len) 34 (readLayout c p layoutSerialnumber r) := by
  have tokens : payloadTokens .serialnumber n m wide len
      = [(0, 2)] ++ ((List.range 16).map (fun j => (2 + 2 * j, 2)) ++ []) := rfl
  rw [tokens]
  refine takes_slots (takes_store (takes_token (fun _ ht => ht) c .commandValue 0)) fun _ _ _ => ?_
  exact takes_slots (takes_store (takes_text (fun _ ht => ht) 16 2)) fun _ _ _ => takes_nil rfl

/-- The payload of a serial number fails by its length, or at the first token that does not read. -/
theorem decodePayload_of_payloadFails_serialnumber {c : Config} {h : Hdr} {p : List Byte} {r : Record} {off : Nat}
    {reason : PayloadReason} (hf : PayloadFails c .serialnumber p off reason) :
    decodePayload c .serialnumber h p r = .error (reason, off) := by
  rcases hf with ⟨len, hlen, hne, rfl, rfl⟩ | ⟨layout, length, n, m, k, wide, pre, post, split, read, -, -, fails⟩
  · cases hlen
    exact decodePayload_wrongLength (by decide) hne
  · have reads : ∀ t ∈ pre, tokenReads p t := fun t ht => (read t ht).imp fun _ hv => takeHex_of_tokenIs hv
    have failed := (takes_layoutSerialnumber c p r n m wide p.length).2 pre (off, k) post reason split reads fails
    rw [decodePayload, decodeSerialnumber, readFixed_ok (len := lenSerial) _ _ (length 34 rfl),
      show c.layouts.serialnumber = layoutSerialnumber from layout]
    exact failed

end Sys2Proof.Proofs
end

