-- ==== Sys2Proof/Proofs/Discovery.lean ====
section
/-!
PROOF. Discovery (spec/44_orchestrator.md R245, R246, R250, R262, R263): what the head of its loop does, and what a serial number
that decodes and a probe that fails lead to.
-/

namespace Sys2Proof.Proofs

open Sys2Proof.Machine

/-! ## The head of the loop (R262) -/

theorem discoverLoop_atLimit {n : Nat} {s : State} (h : s.cfg.discoveryLimit ≤ n) :
    discoverLoop (setDisc n s) = discovered n s :=
  if_neg (Nat.not_lt.mpr h)

theorem discoverLoop_probes {n : Nat} {s : State} (h : n < s.cfg.discoveryLimit) (hs : s.env.stop = false) :
    discoverLoop (setDisc n s) = probing n s := by
  simp [discoverLoop, setDisc, sampleStop, startTransaction, probing, h, hs]

theorem discoverLoop_stopped {n : Nat} {s : State} (h : n < s.cfg.discoveryLimit) (hs : s.env.stop = true) :
    discoverLoop (setDisc n s) = discovered n { s with flags := { s.flags with stopSeen := true } } := by
  simp [discoverLoop, setDisc, sampleStop, endDiscovery, discovered, h, hs]

/-! ## Steps of discovery -/

theorem step_discovering {s : State} (hn : s.env.inReset = false) (hin : s.env.inputs = []) (ho : s.seq.orch = .discovering) :
    step s = .next (discoverLoop (setDisc 0 s)) := by
  simp only [step_noInput hin, engineStep, hn, ho, Bool.false_eq_true, if_false, discoverStart]

/-- Before READY the transaction in progress is discovery's (R262). -/
theorem step_probe {s : State} (hn : s.env.inReset = false) (hin : s.env.inputs = []) (hr : s.flags.ready = false)
    (ho : inTransaction s.seq.orch = true) : step s = transactStep .serialnumber .discovery s := by
  rw [step_running hn hin ho]
  simp only [running, hr, Bool.false_eq_true, if_false]

/-- A serial number that decodes is counted (R262). -/
theorem step_probe_answered {s u : State} {r : Record} (hn : s.env.inReset = false) (hin : s.env.inputs = [])
    (hr : s.flags.ready = false) (ho : s.seq.orch = .decoding) (hd : decodeIntoRecord .serialnumber s = (u, .ok r)) :
    step s = .next (discoverLoop (setDisc (u.seq.discI + 1) u)) := by
  rw [step_probe hn hin hr (by rw [ho]; rfl), transactStep_decoding _ _ ho]
  simp only [decodingStep, hd, transactOk]

/-- Settles O40: the three cases of the head of the loop, at the start of discovery and behind each answer. -/
theorem discoveryCountsAnswers : Obligations.DiscoveryCountsAnswers := by
  refine ⟨fun s hn hin ho => ?_, fun s u r hn hin hr ho hd => ?_⟩
  · rw [step_discovering hn hin ho]
    exact ⟨fun h => congrArg _ (discoverLoop_atLimit h.le), fun h hs => congrArg _ (discoverLoop_probes h hs),
      fun h hs => congrArg _ (discoverLoop_stopped h hs)⟩
  · rw [step_probe_answered hn hin hr ho hd]
    have hu := decodeIntoRecord_ok hd
    generalize u.chk = k, u.hdr = h at hu
    subst hu
    exact ⟨fun h hs => congrArg _ (discoverLoop_probes h hs), fun h hs => congrArg _ (discoverLoop_stopped h hs),
      fun h => congrArg _ (discoverLoop_atLimit h), rfl⟩

/-! ## A probe that fails (R246) -/

theorem step_probe_notDecoded {s u : State} {e : EngineError} (hn : s.env.inReset = false) (hin : s.env.inputs = [])
    (hr : s.flags.ready = false) (ho : s.seq.orch = .decoding) (hd : decodeIntoRecord .serialnumber s = (u, .error e)) :
    step s = .next (failTransaction e u) := by
  rw [step_probe hn hin hr (by rw [ho]; rfl), transactStep_decoding _ _ ho]
  simp only [decodingStep, hd]

theorem step_probe_unanswered {s u : State} (hn : s.env.inReset = false) (hin : s.env.inputs = [])
    (hr : s.flags.ready = false) (ho : s.seq.orch = .awaiting) (hd : receiveStep s.cfg.deadlineFast s = (.noFrame, u)) :
    step s = .next (failTransaction .transportTimeout u) := by
  rw [step_probe hn hin hr (by rw [ho]; rfl)]
  simp only [transactStep, ho, awaitingStep_eq, deadlineOf, hd, afterReceive]

/-- Settles O39: in probe mode a failure ends discovery, whichever check of the decode it is, or the deadline. -/
theorem failedProbeEndsDiscovery : Obligations.FailedProbeEndsDiscovery := by
  intro s u e hn hin hr hp
  refine ⟨?_, fun k h ho hf => ?_⟩
  · rintro (⟨ho, hd⟩ | ⟨ho, hd, rfl⟩)
    · rw [step_probe_notDecoded hn hin hr ho hd]
      obtain ⟨k, h, r, hu, -⟩ := decodeIntoRecord_frame .serialnumber s
      rw [hd] at hu
      subst hu
      exact congrArg _ (failTransaction_probe e hp)
    · rw [step_probe_unanswered hn hin hr ho hd]
      obtain ⟨rx, now, hu, -⟩ := receiveStep_frame s.cfg.deadlineFast s
      rw [hd] at hu
      subst hu
      exact congrArg _ (failTransaction_probe .transportTimeout hp)
  · obtain ⟨r, hd⟩ := decodeIntoRecord_of_decodeAnswer_error
      (decodeAnswer_of_decodeFails (fun _ _ _ _ _ => decodePayload_of_payloadFails_serialnumber) hf)
    refine ⟨r, ?_⟩
    rw [step_probe_notDecoded hn hin hr ho hd]
    exact congrArg _ (failTransaction_probe e hp)

end Sys2Proof.Proofs
end

