-- ==== Sys2Proof/Proofs/RecoveryProbe.lean ====
section
/-!
PROOF. Retrying (spec/44_orchestrator.md R248, R250, spec/60_exceptions.md R300): the loop of the recovery probe, its send, its
receive and its decode, what none of them changes, and the stop that cancels the command.
-/

namespace Sys2Proof.Proofs

open Sys2Proof.Machine

/-! ## A step in Retrying -/

theorem exec_retrying {i : Instr} {s : State} (hr : s.flags.ready = true) (hi : i.cmd = s.regs.cmd)
    (ho : s.seq.orch = .retrying) : exec i s = .next (retryingStep (inProgress s).2 s) := by
  rw [exec_running hi hr (by rw [ho]; rfl)]
  simp only [transactStep, ho]

theorem step_retrying {s : State} (hn : s.env.inReset = false) (hin : s.env.inputs = []) (ho : s.seq.orch = .retrying) :
    step s = .next (retryingStep (running s).2 s) := by
  rw [step_running hn hin (by rw [ho]; rfl)]
  simp only [transactStep, ho]

section
variable {c : Caller} {s : State}

theorem retryingStep_entry (hp : s.seq.retryPhase = .entry) (hs : s.env.stop = false) :
    retryingStep c s = { s with seq := { s.seq with probeCnt := 0, retryPhase := .test } } := by
  simp only [retryingStep, hp, retryEntry, hs, Bool.false_eq_true, if_false]

theorem retryingStep_attempts (hp : s.seq.retryPhase = .test) (h : s.seq.probeCnt < s.cfg.probeMax) :
    retryingStep c s = { s with seq := { s.seq with probeCnt := s.seq.probeCnt + 1, retryPhase := .probeSend } } := by
  simp only [retryingStep, hp, retryTest, if_pos h]

theorem retryingStep_givesUp (hp : s.seq.retryPhase = .test) (h : s.cfg.probeMax ≤ s.seq.probeCnt) :
    retryingStep c s = setRetryPhase .leave s := by
  simp only [retryingStep, hp, retryTest, if_neg (Nat.not_lt.mpr h)]

theorem retryingStep_failed (hp : s.seq.retryPhase = .probeFailed) (hs : s.env.stop = false) :
    retryingStep c s = setRetryPhase .test s := by
  simp only [retryingStep, hp, retryFailed, hs, Bool.false_eq_true, if_false]

/-- A stop sampled in Retrying (R250). -/
theorem retryingStep_stopped
    (hp : s.seq.retryPhase = .entry ∨ s.seq.retryPhase = .probeFailed ∨ s.seq.retryPhase = .leave)
    (hs : s.env.stop = true) : retryingStep c s = transactCancelled c (sampleStop s) := by
  rcases hp with hp | hp | hp
  · simp only [retryingStep, hp, retryEntry, hs, if_true]
  · simp only [retryingStep, hp, retryFailed, hs, if_true]
  · simp only [retryingStep, hp, retryLeave, hs, if_true]

/-! ## The send of the probe (R121, R124) -/

theorem retryingStep_loads (hp : s.seq.retryPhase = .probeSend) (hde : s.tx.de = false) :
    retryingStep c s = sending (protocolBody s.cfg 0) 0 s := by
  simp only [retryingStep, hp, sendQueryStep_loads (w := .protocol) (i := 0) hde rfl]
  rfl

theorem retryingStep_shifts {body : List Byte} {k : Nat} (hp : s.seq.retryPhase = .probeSend)
    (hk : k < (encodeFrame body).length) : retryingStep c (sending body k s) = sending body (k + 1) s := by
  simp only [retryingStep, show (sending body k s).seq.retryPhase = .probeSend from hp, sendQueryStep_shifts hk]

theorem retryingStep_flushes {body : List Byte} (hp : s.seq.retryPhase = .probeSend) :
    retryingStep c (sending body (encodeFrame body).length s)
      = setRetryPhase .probeReceive (sentAndListening body s.cfg.deadlineFast s) := by
  simp only [retryingStep, show (sending body (encodeFrame body).length s).seq.retryPhase = .probeSend from hp,
    sendQueryStep_flushes]
  exact congrArg _ (receiveEntry_flushed s.cfg.deadlineFast body s)

/-! ## The receive of the probe (R248) -/

/-- What Retrying makes of the answer of a step of `receive_frame` (R248). -/
def afterProbeReceive : Received × State → State
  | (.waiting, u) => u
  | (.noFrame, u) => setRetryPhase .probeFailed u
  | (.frame, u) => setRetryPhase .probeDecode u

theorem retryingStep_probeReceive (hp : s.seq.retryPhase = .probeReceive) :
    retryingStep c s = afterProbeReceive (receiveStep s.cfg.deadlineFast s) := by
  simp only [retryingStep, hp]
  rcases receiveStep s.cfg.deadlineFast s with ⟨_ | _ | _, u⟩ <;> rfl

/-! ## The decode of the probe (R248) -/

theorem retryingStep_decodes {u : State} {r : Record} (hp : s.seq.retryPhase = .probeDecode)
    (hd : decodeAnswer .protocol s = (u, .ok r)) : retryingStep c s = setRetryPhase .leave u := by
  simp only [retryingStep, hp, probeDecodeStep, hd]

theorem retryingStep_decodeFails {u : State} {e : EngineError} (hp : s.seq.retryPhase = .probeDecode)
    (hd : decodeAnswer .protocol s = (u, .error e)) : retryingStep c s = setRetryPhase .probeFailed u := by
  simp only [retryingStep, hp, probeDecodeStep, hd]

end

/-! ## The bounded loop -/

/-- Settles O42: the tests of the loop one by one, and the send as a run. -/
theorem recoveryProbeIsBounded : Obligations.RecoveryProbeIsBounded := by
  refine ⟨fun i s hr hi ho => ?_, fun s f hn hin hr ho hp hde hf => ?_⟩
  · rw [exec_retrying hr hi ho]
    refine ⟨fun hp hs => ?_, fun hp h => ?_, fun hp h => ?_, fun hp hs => ?_, fun hp hde => ?_⟩
    · exact congrArg _ (retryingStep_entry hp hs)
    · exact congrArg _ (retryingStep_attempts hp h)
    · exact congrArg _ (retryingStep_givesUp hp h)
    · exact congrArg _ (retryingStep_failed hp hs)
    · exact ⟨_, congrArg _ (retryingStep_loads hp hde), rfl, rfl, rfl, rfl, rfl, rfl, rfl⟩
  · subst hf
    refine runSteps_send ?load (fun k hk => ?shift) ?flush
    case load => rw [step_retrying hn hin ho, retryingStep_loads hp hde]
    case shift => rw [step_retrying (s := sending _ k s) hn hin ho, retryingStep_shifts hp hk]
    case flush =>
      rw [step_retrying (s := sending _ _ s) hn hin ho, retryingStep_flushes hp]
      rfl

/-! ## What the probe leaves alone (R300) -/

/-- `t` differs from `s` in nothing that a step of the recovery probe must not write: only PROBE_CNT and the place in the probe
change of the sequencer, and of the rest only buffers, codec and decoder registers and what stands outside the engine. -/
structure ProbeFrame (s t : State) : Prop where
  flags : t.flags = s.flags
  regs : t.regs = s.regs
  out : t.out = s.out
  cfg : t.cfg = s.cfg
  seq : t.seq = { s.seq with probeCnt := t.seq.probeCnt, retryPhase := t.seq.retryPhase }

theorem probeFrame_setRetryPhase (p : RetryPhase) (s : State) : ProbeFrame s (setRetryPhase p s) :=
  ⟨rfl, rfl, rfl, rfl, rfl⟩

theorem probeFrame_test {c : Caller} {s : State} (hp : s.seq.retryPhase = .test) : ProbeFrame s (retryingStep c s) := by
  rcases Nat.lt_or_ge s.seq.probeCnt s.cfg.probeMax with h | h
  · rw [retryingStep_attempts hp h]
    exact ⟨rfl, rfl, rfl, rfl, rfl⟩
  · rw [retryingStep_givesUp hp h]
    exact probeFrame_setRetryPhase _ s

theorem probeFrame_probeSend {c : Caller} {s : State} (hp : s.seq.retryPhase = .probeSend) :
    ProbeFrame s (retryingStep c s) := by
  simp only [retryingStep, hp]
  rcases sendQueryStep_cases .protocol 0 s with ⟨-, e⟩ | ⟨-, -, e⟩ | ⟨-, -, e⟩ <;> rw [e] <;>
    exact ⟨rfl, rfl, rfl, rfl, rfl⟩

theorem probeFrame_probeReceive {c : Caller} {s : State} (hp : s.seq.retryPhase = .probeReceive) :
    ProbeFrame s (retryingStep c s) := by
  rw [retryingStep_probeReceive hp]
  obtain ⟨rx, now, hu, -⟩ := receiveStep_frame s.cfg.deadlineFast s
  generalize receiveStep s.cfg.deadlineFast s = answer at hu
  obtain ⟨x, u⟩ := answer
  subst hu
  cases x <;> exact ⟨rfl, rfl, rfl, rfl, rfl⟩

theorem probeFrame_probeDecode {c : Caller} {s : State} (hp : s.seq.retryPhase = .probeDecode) :
    ProbeFrame s (retryingStep c s) := by
  obtain ⟨k, h, hu⟩ := decodeAnswer_frame .protocol s
  rcases hd : decodeAnswer .protocol s with ⟨u, e | r⟩ <;> rw [hd] at hu <;> subst hu
  · rw [retryingStep_decodeFails hp hd]
    exact ⟨rfl, rfl, rfl, rfl, rfl⟩
  · rw [retryingStep_decodes hp hd]
    exact ⟨rfl, rfl, rfl, rfl, rfl⟩

/-- Every step of the recovery probe, from the test of its loop to the failed attempt. -/
theorem probeFrame_retryingStep {c : Caller} {s : State}
    (hp : s.seq.retryPhase ∈ [RetryPhase.test, .probeSend, .probeReceive, .probeDecode]
      ∨ (s.seq.retryPhase = .probeFailed ∧ s.env.stop = false)) : ProbeFrame s (retryingStep c s) := by
  simp only [List.mem_cons, List.not_mem_nil, or_false] at hp
  rcases hp with (hp | hp | hp | hp) | ⟨hp, hs⟩
  · exact probeFrame_test hp
  · exact probeFrame_probeSend hp
  · exact probeFrame_probeReceive hp
  · exact probeFrame_probeDecode hp
  · rw [retryingStep_failed hp hs]
    exact probeFrame_setRetryPhase _ s

/-- Settles O43: the frame of each step of the probe, and the outcomes of its receive and of its decode. -/
theorem probeErrorsDoNotNest : Obligations.ProbeErrorsDoNotNest := by
  intro i s hr hi ho
  rw [exec_retrying hr hi ho]
  refine ⟨fun hp => ?frame, fun hp hx hd => ?timeout, fun x u hp hu => ?receive, fun hp => ?decode,
    fun k h e hp hf => ?decodeFails, fun k body h p hp hd hh => ?decodes⟩
  case frame =>
    obtain ⟨hflags, hregs, hout, hcfg, hseq⟩ := probeFrame_retryingStep (c := (inProgress s).2) hp
    exact ⟨_, rfl, hflags, hregs, hout, hcfg, hseq⟩
  case timeout =>
    have expired : receiveStep s.cfg.deadlineFast s = (.noFrame, setRx .off s) := by
      simp only [receiveStep, hx, huntStep_expired hd]
    rw [retryingStep_probeReceive hp, expired]
    rfl
  case receive =>
    obtain ⟨rx, now, e, -⟩ := receiveStep_frame s.cfg.deadlineFast s
    rw [hu] at e
    subst e
    rw [retryingStep_probeReceive hp, hu]
    refine ⟨?_, ?_, ?_⟩ <;> rintro rfl <;> rfl
  case decode =>
    obtain ⟨k, h, hu⟩ := decodeAnswer_frame .protocol s
    rcases hd : decodeAnswer .protocol s with ⟨u, e | r⟩ <;> rw [hd] at hu <;> subst hu
    · exact ⟨_, congrArg _ (retryingStep_decodeFails hp hd), rfl, rfl, rfl, fun ⟨_, ok⟩ => (nomatch ok), fun _ => rfl⟩
    · exact ⟨_, congrArg _ (retryingStep_decodes hp hd), rfl, rfl, rfl, fun _ => rfl, fun ⟨_, error⟩ => (nomatch error)⟩
  case decodeFails =>
    have failed := decodeAnswer_of_decodeFails (fun _ _ _ _ _ h => absurd h not_payloadFails_protocol) hf
    exact congrArg _ (retryingStep_decodeFails hp failed)
  case decodes =>
    obtain ⟨r, accepted⟩ := decodeAnswer_protocol_accepted hd hh
    exact congrArg _ (retryingStep_decodes hp accepted)

/-! ## The stop (R250) -/

/-- A cancelled transaction ends its command, be it a single one or a round. -/
theorem transactCancelled_inProgress {s : State} (hs : s.env.stop = true) :
    transactCancelled (inProgress s).2 (sampleStop s) = cancelledState s := by
  cases hc : s.regs.cmd with
  | wire w => simp [inProgress, transactCancelled, cancelledState, sampleStop, finish, hc, hs]
  | status => simp [inProgress, transactCancelled, cancelRound, setSnap, cancelledState, sampleStop, finish, hc, hs]

/-- Settles O44: each of the three sampling points of Retrying cancels the transaction. -/
theorem stopInRetryingCancels : Obligations.StopInRetryingCancels := by
  intro i s hr hi ho hs hp
  rw [exec_retrying hr hi ho, retryingStep_stopped hp hs, transactCancelled_inProgress hs]

end Sys2Proof.Proofs
end

