-- ==== Sys2Proof/Proofs/PayloadChecks.lean ====
section
/-!
PROOF. Where each payload fails in its default layout (spec/43_response_decoder.md R193, R195, R196, R202 to R211,
spec/60_exceptions.md R294 (5)): every layout takes the tokens that `payloadTokens` lists, in that order, so that its reading
ends at the first that does not read.
-/

namespace Sys2Proof.Proofs

open Sys2Proof.Machine

theorem tokenIs_of_takeHex {p : List Byte} {off k u : Nat} (h : takeHex p k off = .ok (u, off + k)) : tokenIs p off k u := by
  rcases takeHex_cases p k off with ⟨-, e⟩ | ⟨-, -, e⟩ | ⟨v, inside, spelled, e⟩ <;> cases h.symm.trans e
  exact ⟨inside, spelled⟩

/-- A token has one value. -/
theorem tokenIs_unique {p : List Byte} {off k u v : Nat} (hu : tokenIs p off k u) (hv : tokenIs p off k v) : u = v :=
  Option.some.inj (hu.2.symm.trans hv.2)

/-- The more is known of the tokens that are read, the less is left to show. -/
theorem takes_mono {α : Type} {p : List Byte} {G G' : Nat × Nat → Prop} {toks : List (Nat × Nat)} {cur : Nat} {x : Read α}
    (h : ∀ t, G' t → G t) (hx : Takes p G toks cur x) : Takes p G' toks cur x :=
  ⟨fun known => hx.1 fun t ht => h t (known t ht),
    fun pre t post reason split known => hx.2 pre t post reason split fun u hu => h u (known u hu)⟩

/-! ## Slots

As in the rules for reads, `off` is the offset of what the slot reads, the cursor `cur` being there. -/

section
variable {c : Config} {p : List Byte} {G : Nat × Nat → Prop} {ts : Layout} {st : List Nat} {cur off last : Nat} {r : Record}
  {f : Field} {toks : List (Nat × Nat)} (hG : ∀ t, G t → tokenReads p t)
include hG

/-- A token slot, then the rest of the layout, behind the value the token spells. -/
theorem takes_tokenSlot {k : Nat} (hk : (tokenOf f).chars = k) (hcur : cur = off)
    (rest : ∀ u, G (off, k) → tokenIs p off k u →
      Takes p G toks last (readSlots c p ts (st ++ [cur]) (off + k) (Record.set f (tokenValue c f u) r))) :
    Takes p G ((off, k) :: toks) last (readSlots c p (.token f :: ts) st cur r) := by
  subst hcur hk
  refine takes_slots (t := .token f) (a := [(cur, (tokenOf f).chars)]) (takes_store (takes_token hG c f cur))
    fun r' hr' known => ?_
  have hknown := known _ (List.mem_singleton.mpr rfl)
  obtain ⟨u, hu⟩ := hG _ hknown
  cases (readSlot_token r (readToken_ok rfl hu)).symm.trans hr'
  exact rest u hknown (tokenIs_of_takeHex hu)

theorem takes_narrowSlot (hcur : cur = off)
    (rest : ∀ v, Takes p G toks last (readSlots c p ts (st ++ [cur]) (off + 4) (Record.set f v r))) :
    Takes p G ((off, 4) :: toks) last (readSlots c p (.narrow f :: ts) st cur r) := by
  subst hcur
  refine takes_slots (t := .narrow f) (a := [(cur, 4)]) (takes_store (takes_narrow hG c f cur)) fun r' hr' known => ?_
  obtain ⟨u, hu⟩ := hG _ (known _ (List.mem_singleton.mpr rfl))
  cases (readSlot_narrow r hu).symm.trans hr'
  exact rest _

theorem takes_wideSlot (hw : wideFlag r = true) (hcur : cur = off)
    (rest : ∀ v, Takes p G toks last (readSlots c p ts (st ++ [cur]) (off + 6) (Record.set f v r))) :
    Takes p G ((off, 6) :: toks) last (readSlots c p (.wide f :: ts) st cur r) := by
  subst hcur
  have slot : readSlot c (.wide f) st p cur r = storeRead f r (readWide p cur) := by
    simp only [readSlot, hw, if_true]
  refine takes_slots (a := [(cur, 6)]) (slot ▸ takes_store (takes_wideToken hG cur)) fun r' hr' known => ?_
  obtain ⟨u, hu⟩ := hG _ (known _ (List.mem_singleton.mpr rfl))
  cases (readSlot_wide hw hu).symm.trans hr'
  exact rest _

/-- A counted list, as long as its count says, then the rest of the layout (R196). -/
theorem takes_countedSlot {l : Field} {k n off' : Nat} (hk : (tokenOf l).chars = k) (hcur : cur = off) (hoff : off' = off + 2)
    (hn : G (off, 2) → tokenIs p off 2 n)
    (rest : ∀ r', Takes p G toks last (readSlots c p ts (st ++ [cur]) (off' + k * n) r')) :
    Takes p G ((off, 2) :: ((List.range n).map (fun j => (off' + k * j, k)) ++ toks)) last
      (readSlots c p (.counted f l :: ts) st cur r) := by
  subst hcur hk hoff
  exact takes_slots (takes_counted hG c f l st r n cur fun known => takeHex_of_tokenIs (hn known)) fun r' _ _ => rest r'

omit hG in
theorem takes_noSlots (hcur : cur = last) : Takes p G [] last (readSlots c p [] st cur r) := by
  subst hcur
  exact takes_nil rfl

/-- The rest of a payload as bytes, at the end of a layout (R193). -/
theorem takes_bytesRestSlot (hcur : cur = off) :
    Takes p G ((List.range ((p.length - off) / 2)).map (fun j => (off + 2 * j, 2))) (off + 2 * ((p.length - off) / 2))
      (readSlots c p [.bytesRest f] st cur r) := by
  subst hcur
  rw [← List.append_nil (List.map _ _)]
  exact takes_slots (takes_store (takes_bytes hG (restBytes p cur) cur)) fun _ _ _ => takes_nil rfl

/-- Token slots of one width, side by side. -/
theorem takes_tokenSlots {k : Nat} {fs : List Field} (hk : ∀ f ∈ fs, (tokenOf f).chars = k) :
    Takes p G ((List.range fs.length).map (fun j => (cur + k * j, k))) (cur + k * fs.length)
      (readSlots c p (fs.map .token) st cur r) := by
  induction fs generalizing st cur r with
  | nil => exact takes_nil rfl
  | cons f fs ih =>
    have tokens : (List.range (fs.length + 1)).map (fun j => (cur + k * j, k))
        = (cur, k) :: (List.range fs.length).map (fun j => (cur + k + k * j, k)) := by
      rw [List.range_succ_eq_map, List.map_cons, List.map_map]
      simp only [Function.comp_def, Nat.mul_succ, Nat.mul_zero, Nat.add_zero, Nat.add_assoc, Nat.add_comm k]
    rw [List.length_cons, tokens, Nat.mul_succ, Nat.add_comm (k * _), ← Nat.add_assoc]
    exact takes_tokenSlot hG (hk f List.mem_cons_self) rfl fun _ _ _ => ih fun g hg => hk g (List.mem_cons_of_mem f hg)

end

/-! ## Layouts without counts -/

section
variable (c : Config) (p : List Byte) (r : Record) (n m : Nat) (wide : Bool)

/-- R202. -/
theorem takes_layoutManufactory :
    Takes p (tokenReads p) (payloadTokens .manufactory n m wide p.length) (24 + 2 * ((p.length - 24) / 2))
      (readLayout c p layoutManufactory r) := by
  have tokens : payloadTokens .manufactory n m wide p.length
      = (List.range 10).map (fun j => (0 + 2 * j, 2)) ++ ((List.range 2).map (fun j => (20 + 2 * j, 2))
        ++ ((List.range ((p.length - 24) / 2)).map (fun j => (24 + 2 * j, 2)) ++ [])) := by
    rw [List.append_nil]
    rfl
  rw [tokens]
  refine takes_slots (takes_store (takes_text (fun _ ht => ht) 10 0)) fun _ _ _ => ?_
  refine takes_slots (takes_store (takes_bytes (fun _ ht => ht) 2 20)) fun _ _ _ => ?_
  exact takes_slots (takes_store (takes_text (fun _ ht => ht) (restBytes p 24) 24)) fun _ _ _ => takes_nil rfl

/-- R208. -/
theorem takes_layoutChargingDischarge (len : Nat) :
    Takes p (tokenReads p) (payloadTokens .chargingDischarge n m wide len) 20
      (readLayout c p layoutChargingDischarge r) := by
  refine takes_tokenSlot (fun _ ht => ht) rfl rfl fun _ _ _ => ?_
  refine takes_tokenSlot (fun _ ht => ht) rfl rfl fun _ _ _ => ?_
  refine takes_tokenSlot (fun _ ht => ht) rfl rfl fun _ _ _ => ?_
  refine takes_tokenSlot (fun _ ht => ht) rfl rfl fun _ _ _ => ?_
  refine takes_tokenSlot (fun _ ht => ht) rfl rfl fun _ _ _ => ?_
  exact takes_slots (takes_statusFlags (fun _ ht => ht) c _ _ 18) fun _ _ _ => takes_nil rfl

/-- R210. -/
theorem takes_layoutSystemparameter (len : Nat) :
    Takes p (tokenReads p) (payloadTokens .systemparameter n m wide len) 50 (readLayout c p layoutSystemparameter r) := by
  have width : ∀ f ∈ limitFields, (tokenOf f).chars = 4 := by decide
  rw [layoutSystemparameter_eq]
  exact takes_tokenSlot (fun _ ht => ht) rfl rfl fun _ _ _ => takes_tokenSlots (fun _ ht => ht) width

end

/-! ## Layouts with two counted lists -/

section
variable {c : Config} {p : List Byte} {G : Nat × Nat → Prop} {r : Record} {n m : Nat} (hG : ∀ t, G t → tokenReads p t)
include hG

/-- R209. -/
theorem takes_layoutAlarm (wide : Bool) (hn : G (4, 2) → tokenIs p 4 2 n)
    (hm : G (6 + 2 * n, 2) → tokenIs p (6 + 2 * n) 2 m) :
    Takes p G (payloadTokens .alarm n m wide p.length)
      (14 + 2 * n + 2 * m + 2 * ((p.length - (14 + 2 * n + 2 * m)) / 2)) (readLayout c p layoutAlarm r) := by
  simp only [payloadTokens, List.cons_append, List.nil_append, List.append_assoc]
  refine takes_tokenSlot hG rfl rfl fun _ _ _ => ?_
  refine takes_tokenSlot hG rfl rfl fun _ _ _ => ?_
  refine takes_countedSlot hG rfl rfl rfl hn fun _ => ?_
  refine takes_countedSlot hG rfl rfl (by omega) hm fun _ => ?_
  refine takes_tokenSlot hG rfl rfl fun _ _ _ => ?_
  refine takes_tokenSlot hG rfl (by omega) fun _ _ _ => ?_
  refine takes_tokenSlot hG rfl (by omega) fun _ _ _ => ?_
  exact takes_bytesRestSlot hG (by omega)

/-- R203 and R207: the wide capacities are read when the flag, which has been read by then, is 4. -/
theorem takes_layoutAnalog {wide : Bool} (len : Nat) (hn : G (4, 2) → tokenIs p 4 2 n)
    (hm : G (6 + 4 * n, 2) → tokenIs p (6 + 4 * n) 2 m)
    (hw : G (20 + 4 * n + 4 * m, 2) → (wide = true ↔ tokenIs p (20 + 4 * n + 4 * m) 2 4)) :
    Takes p G (payloadTokens .analog n m wide len) (30 + 4 * n + 4 * m + if wide then 12 else 0)
      (readLayout c p layoutAnalog r) := by
  simp only [payloadTokens, List.cons_append, List.nil_append, List.append_assoc]
  refine takes_tokenSlot hG rfl rfl fun _ _ _ => ?_
  refine takes_tokenSlot hG rfl rfl fun _ _ _ => ?_
  refine takes_countedSlot hG rfl rfl rfl hn fun _ => ?_
  refine takes_countedSlot hG rfl rfl (by omega) hm fun _ => ?_
  refine takes_tokenSlot hG rfl rfl fun _ _ _ => ?_
  refine takes_tokenSlot hG rfl (by omega) fun _ _ _ => ?_
  refine takes_narrowSlot hG (by omega) fun _ => ?_
  refine takes_tokenSlot hG rfl (by omega) fun flag known hflag => ?_
  refine takes_narrowSlot hG (by omega) fun _ => ?_
  refine takes_tokenSlot hG rfl (by omega) fun _ _ _ => ?_
  generalize hr : Record.set Field.cycleCount _ _ = read
  have stored : wideFlag read = decide (flag = 4) := by
    rw [← hr, wideFlag_set_ne _ _ (by decide), wideFlag_set_ne _ _ (by decide)]
    exact wideFlag_set flag _
  have selected : wideFlag read = wide := by
    rw [stored, Bool.eq_iff_iff, decide_eq_true_iff, hw known]
    exact ⟨fun h => h ▸ hflag, tokenIs_unique hflag⟩
  cases wide with
  | false =>
    rw [readSlots_wide_skipped selected, readSlots_wide_skipped selected]
    exact takes_noSlots (by rw [if_neg nofun]; omega)
  | true =>
    refine takes_wideSlot hG selected (by omega) fun _ => ?_
    refine takes_wideSlot hG ((wideFlag_set_ne _ _ (by decide)).trans selected) (by omega) fun _ => ?_
    exact takes_noSlots (by rw [if_pos rfl]; omega)

end

/-! ## The payload check (R294 (5)) -/

theorem mem_of_fixedLength? {w : WireCmd} {len : Nat} (h : fixedLength? w = some len) :
    (w, len) ∈ [(WireCmd.systemparameter, 50), (WireCmd.chargingDischarge, 20), (WireCmd.serialnumber, 34)] := by
  cases w <;> cases h <;> decide

/-- The payload of query `w` in its default layout takes the tokens of that layout. -/
theorem takes_decodePayload {c : Config} {w : WireCmd} {h : Hdr} {p : List Byte} {r : Record} {G : Nat × Nat → Prop}
    {n m : Nat} {wide : Bool} (hG : ∀ t, G t → tokenReads p t) (layout : defaultLayout c w)
    (length : ∀ len, fixedLength? w = some len → p.length = len)
    (analog : w = .analog → (G (4, 2) → tokenIs p 4 2 n) ∧ (G (6 + 4 * n, 2) → tokenIs p (6 + 4 * n) 2 m)
      ∧ (G (20 + 4 * n + 4 * m, 2) → (wide = true ↔ tokenIs p (20 + 4 * n + 4 * m) 2 4)))
    (alarm : w = .alarm → (G (4, 2) → tokenIs p 4 2 n) ∧ (G (6 + 2 * n, 2) → tokenIs p (6 + 2 * n) 2 m)) :
    ∃ last, Takes p G (payloadTokens w n m wide p.length) last (decodePayload c w h p r) := by
  cases w with
  | protocol => exact ⟨0, takes_nil rfl⟩
  | manufactory =>
    rw [decodePayload, decodeManufactory, show c.layouts.manufactory = _ from layout]
    exact ⟨_, takes_mono hG (takes_layoutManufactory c p r n m wide)⟩
  | analog =>
    rw [decodePayload, decodeAnalog, show c.layouts.analog = _ from layout]
    obtain ⟨hn, hm, hw⟩ := analog rfl
    exact ⟨_, takes_layoutAnalog hG p.length hn hm hw⟩
  | alarm =>
    rw [decodePayload, decodeAlarm, show c.layouts.alarm = _ from layout]
    obtain ⟨hn, hm⟩ := alarm rfl
    exact ⟨_, takes_layoutAlarm hG wide hn hm⟩
  | chargingDischarge =>
    rw [decodePayload, decodeChargingDischarge, readFixed_ok (len := lenMgmt) _ _ (length 20 rfl),
      show c.layouts.chargingDischarge = _ from layout]
    exact ⟨_, takes_mono hG (takes_layoutChargingDischarge c p r n m wide p.length)⟩
  | serialnumber =>
    rw [decodePayload, decodeSerialnumber, readFixed_ok (len := lenSerial) _ _ (length 34 rfl),
      show c.layouts.serialnumber = _ from layout]
    exact ⟨_, takes_mono hG (takes_layoutSerialnumber c p r n m wide p.length)⟩
  | systemparameter =>
    rw [decodePayload, decodeSystemparameter, readFixed_ok (len := lenSysparam) _ _ (length 50 rfl),
      show c.layouts.systemparameter = _ from layout]
    exact ⟨_, takes_mono hG (takes_layoutSystemparameter c p r n m wide p.length)⟩

/-- The payload of any query fails by its length, or at the first token that does not read. -/
theorem decodePayload_of_payloadFails {c : Config} {w : WireCmd} {h : Hdr} {p : List Byte} {r : Record} {off : Nat}
    {reason : PayloadReason} (hf : PayloadFails c w p off reason) : decodePayload c w h p r = .error (reason, off) := by
  rcases hf with ⟨len, hlen, hne, rfl, rfl⟩
    | ⟨layout, length, n, m, k, wide, pre, post, split, read, analog, alarm, fails⟩
  · exact decodePayload_wrongLength (mem_of_fixedLength? hlen) hne
  · have reads : ∀ t, t ∈ pre → tokenReads p t := fun t ht => (read t ht).imp fun _ hv => takeHex_of_tokenIs hv
    obtain ⟨last, takes⟩ := takes_decodePayload (G := (· ∈ pre)) reads layout length analog alarm
    exact takes.2 pre (off, k) post reason split (fun _ ht => ht) fails

end Sys2Proof.Proofs
end

