-- ==== Sys2Proof/Proofs/RecoverableErrors.lean ====
section
/-!
PROOF. Recoverable errors (spec/60_exceptions.md R290, R294, R296, R297, R299): what takes a command to Retrying and what is
written then, what the host sees of it, and the return.
-/

namespace Sys2Proof.Proofs

open Sys2Proof.Machine

/-! ## Entering Retrying (R296) -/

theorem inProgress_query {s : State} (hr : s.flags.ready = true) : (inProgress s).1 = queryInProgress s := by
  rw [← running_query, running, if_pos hr]

section
variable {i : Instr} {s u : State} {e : EngineError} (hr : s.flags.ready = true) (hi : i.cmd = s.regs.cmd)
  (hp : s.regs.probeMode = false) (hm : s.cfg.retryMax = none)
include hr hi hp hm

/-- A frame that does not decode takes any command in normal mode to Retrying (R245). -/
theorem exec_notDecoded (ho : s.seq.orch = .decoding) (hd : decodeIntoRecord (queryInProgress s) s = (u, .error e)) :
    exec i s = .next (retryEntered e u) := by
  obtain ⟨k, h, r, hu, -⟩ := decodeIntoRecord_frame (queryInProgress s) s
  rw [hd] at hu
  subst hu
  rw [exec_running hi hr (by rw [ho]; rfl), transactStep_decoding _ _ ho, inProgress_query hr]
  simp only [decodingStep, hd]
  exact congrArg _ (failTransaction_normal e hp hm)

/-- So does a transport timeout, of which RX_STATE is all that is left (R243). -/
theorem exec_unanswered (ho : s.seq.orch = .awaiting)
    (hx : receiveStep (deadlineOf s.cfg (queryInProgress s)) s = (.noFrame, u)) :
    exec i s = .next (retryEntered .transportTimeout u) ∧ u = { s with rx := { s.rx with state := .off } } := by
  obtain ⟨rx, now, hu, -, -, timeout, -⟩ := receiveStep_frame (deadlineOf s.cfg (queryInProgress s)) s
  rw [hx] at hu timeout
  obtain ⟨-, rfl, rfl⟩ := timeout rfl
  subst hu
  refine ⟨?_, rfl⟩
  rw [exec_running hi hr (by rw [ho]; rfl), inProgress_query hr]
  simp only [transactStep, ho, awaitingStep_eq, hx, afterReceive]
  exact congrArg _ (failTransaction_normal .transportTimeout hp hm)

end

/-- Settles O38: a decode that fails, the first failing check that makes it fail, and the deadline; RECORD, cleared on the way
into Retrying, does not tell a codec error from a decoder's. -/
theorem recoverableErrorEntersRetrying : Obligations.RecoverableErrorEntersRetrying := by
  intro i s u e hr hi hp hm
  refine ⟨fun ho hd => ?notDecoded, fun k h ho hf => ?firstCheck, fun ho hx => exec_unanswered hr hi hp hm ho hx⟩
  case notDecoded =>
    obtain ⟨k, h, r, hu, -, errors⟩ := decodeIntoRecord_frame (queryInProgress s) s
    rw [hd] at hu errors
    obtain ⟨-, recoverable, noTimeout⟩ := errors e rfl
    refine ⟨exec_notDecoded hr hi hp hm ho hd, recoverable, noTimeout, ?_⟩
    subst hu
    rfl
  case firstCheck =>
    obtain ⟨r, hd⟩ := decodeIntoRecord_of_decodeAnswer_error
      (decodeAnswer_of_decodeFails (fun _ _ _ _ _ => decodePayload_of_payloadFails) hf)
    exact (exec_notDecoded hr hi hp hm ho hd).trans rfl

/-! ## What the host sees (R297) -/

/-- RESET asserted is a move whatever the engine does; the state it leaves has no error in LAST_ERR (R36, R320). -/
theorem step_resetAssert {s : State} {rest : List Input} (h : s.env.inputs = .resetAssert :: rest) :
    step s = .next (assertReset (setInputs rest s)) := by
  simp only [step, machineStep, h, applyInput]

/-- Settles O57: of the moves that write LAST_ERR, only a failed transaction records an error; RESET, accept and misuse clear
the register. -/
theorem recoverableErrorsNeverReachTheHost : Obligations.RecoverableErrorsNeverReachTheHost := by
  intro s t e h recorded new
  by_cases hn : noResetNext s
  · rcases (eff_step hn h).err with kept | cleared | ⟨e', failed, recoverable, kind, result, pulse⟩
    · exact absurd (kept.symm.trans recorded) new
    · cases cleared.symm.trans recorded
    · cases failed.symm.trans recorded
      exact ⟨recoverable, kind, result, pulse⟩
  · obtain ⟨rest, hin⟩ := not_forall_not.mp hn
    cases (step_resetAssert hin).symm.trans h
    cases recorded

/-! ## The return (R299) -/

theorem retryingStep_returns {c : Caller} {s : State} (hp : s.seq.retryPhase = .leave) (hs : s.env.stop = false) :
    retryingStep c s = setOrch .sending s := by
  simp only [retryingStep, hp, retryLeave, hs, Bool.false_eq_true, if_false, returnFromRetrying]

/-- Settles O41: without a stop, the last step of Retrying is the return. -/
theorem retryReturnRestoresNothing : Obligations.RetryReturnRestoresNothing := by
  intro i s hr hi ho hp hs
  rw [exec_retrying hr hi ho, retryingStep_returns hp hs]
  rfl

end Sys2Proof.Proofs
end

