-- ==== Sys2Proof/Proofs/Reset.lean ====
section
/-!
PROOF. RESET (spec/70_reset_and_hazards.md R320, R321; spec/10_state.md R33): what a step is while it is held and at its
release, and how discovery starts behind it (spec/44_orchestrator.md R262).
-/

namespace Sys2Proof.Proofs

open Sys2Proof.Machine

/-! ## Steps under RESET (R320) -/

/-- The engine holds while RESET is asserted. -/
theorem step_held {s : State} (hr : s.env.inReset = true) (hin : s.env.inputs = []) : step s = .next s := by
  rw [step_noInput hin]
  exact if_pos hr

/-- The release of RESET is a move of the host's, with the input taken. -/
theorem step_resetRelease {s : State} {c : Config} {rest : List Input} (hin : s.env.inputs = .resetRelease c :: rest) :
    step s = releaseReset c (setInputs rest s) := by
  simp only [step, machineStep, hin, applyInput]

/-- At the release the parameters are sampled (R33). -/
theorem step_resetRelease_legal {s : State} {c : Config} {rest : List Input} (hr : s.env.inReset = true)
    (hin : s.env.inputs = .resetRelease c :: rest) (hc : c.legal = true) :
    step s = .next { s with cfg := c, env := { s.env with inputs := rest, inReset := false } } := by
  rw [step_resetRelease hin]
  exact (if_pos hr).trans (if_pos hc)

/-- Parameters the spec does not allow are refused at the release (U31). -/
theorem step_resetRelease_illegal {s : State} {c : Config} {rest : List Input} (hr : s.env.inReset = true)
    (hin : s.env.inputs = .resetRelease c :: rest) (hc : c.legal = false) :
    step s = .refused .illegalConfiguration := by
  rw [step_resetRelease hin]
  exact (if_pos hr).trans (if_neg (Bool.eq_false_iff.mp hc))

/-! ## The restart (R262) -/

/-- Discovery starts with the probe of index 0. -/
theorem step_discovering_probes {s : State} (hn : s.env.inReset = false) (hin : s.env.inputs = [])
    (ho : s.seq.orch = .discovering) (hl : 0 < s.cfg.discoveryLimit) (hs : s.env.stop = false) :
    step s = .next (probing 0 s) := by
  rw [step_discovering hn hin ho, discoverLoop_probes hl hs]

/-- Behind an assertion and a release the engine's first step starts discovery from the reset values. -/
theorem runSteps_restart {s : State} {c : Config} (hin : s.env.inputs = [.resetAssert, .resetRelease c])
    (hc : c.legal = true) (hl : 0 < c.discoveryLimit) (hs : s.env.stop = false) :
    runSteps 3 s =
      .next (probing 0 { State.reset with env := { s.env with inputs := [], inReset := false }, cfg := c }) := by
  have asserted := step_resetAssert hin
  have released := step_resetRelease_legal (s := assertReset (setInputs [.resetRelease c] s)) rfl rfl hc
  rw [runSteps_succ 2 asserted, runSteps_succ 1 released]
  exact runSteps_succ 0 (step_discovering_probes rfl rfl rfl hl hs)

/-- Settles O51: an assertion, the hold, a release with each kind of parameters, and the three steps of a restart. -/
theorem resetAbandonsEverything : Obligations.ResetAbandonsEverything := by
  intro s rest
  refine ⟨fun hin => ⟨_, step_resetAssert hin, ?registers⟩, step_held,
    fun c hr hin => ⟨step_resetRelease_legal hr hin, step_resetRelease_illegal hr hin⟩,
    fun c hin hc hl hs => ⟨_, runSteps_restart hin hc hl hs, rfl, rfl, rfl, rfl, rfl⟩⟩
  case registers => simp only [assertReset, setInputs, State.reset, and_self]

end Sys2Proof.Proofs
end
